-- ==== Sys2Proof/Word.lean ====
section
/-! DEFINITION. The word types of the block and the two fixed groups of words it is built from: the
four-word MD5 value and the sixteen-word block (spec/00_scope.md R4, R5; spec/10_state.md R11 to R21). -/

namespace Sys2Proof

/-- R5: "Every byte is an unsigned 8-bit value." -/
abbrev Byte := BitVec 8

/-- R4, R5: the word width is 32 bits, unsigned. -/
abbrev Word := BitVec 32

/-- Four words: the MD5 value `(A, B, C, D)` or `(A0, B0, C0, D0)`, a digest, an inner hash
(R11, R12, R19, R21). -/
structure Quad where
  a : Word
  b : Word
  c : Word
  d : Word
  deriving DecidableEq, Repr

/-- R21, R46: element `j` of a four-word register array, in the order `(A0, B0, C0, D0)[j]`. -/
def Quad.get (q : Quad) (j : BitVec 2) : Word :=
  match j.toNat with
  | 0 => q.a
  | 1 => q.b
  | 2 => q.c
  | _ => q.d

/-- Four zero words (the reset value of R12, R19, R21, R29). -/
def Quad.zero : Quad := ⟨0, 0, 0, 0⟩

/-- R6, R92: word-wise addition, each modulo 2^32, no carry between words. -/
def Quad.add (p q : Quad) : Quad := ⟨p.a + q.a, p.b + q.b, p.c + q.c, p.d + q.d⟩

/-- Sixteen words: one 512-bit block (R15, R17, R18, R29). -/
structure Block where
  w0 : Word
  w1 : Word
  w2 : Word
  w3 : Word
  w4 : Word
  w5 : Word
  w6 : Word
  w7 : Word
  w8 : Word
  w9 : Word
  w10 : Word
  w11 : Word
  w12 : Word
  w13 : Word
  w14 : Word
  w15 : Word
  deriving DecidableEq, Repr

/-- R5: element `j` of a sixteen-word register array, counted from 0. -/
def Block.get (b : Block) (j : BitVec 4) : Word :=
  match j.toNat with
  | 0 => b.w0
  | 1 => b.w1
  | 2 => b.w2
  | 3 => b.w3
  | 4 => b.w4
  | 5 => b.w5
  | 6 => b.w6
  | 7 => b.w7
  | 8 => b.w8
  | 9 => b.w9
  | 10 => b.w10
  | 11 => b.w11
  | 12 => b.w12
  | 13 => b.w13
  | 14 => b.w14
  | _ => b.w15

/-- R7: `r[j] <- v` on a sixteen-word register array. -/
def Block.set (b : Block) (j : BitVec 4) (v : Word) : Block :=
  match j.toNat with
  | 0 => { b with w0 := v }
  | 1 => { b with w1 := v }
  | 2 => { b with w2 := v }
  | 3 => { b with w3 := v }
  | 4 => { b with w4 := v }
  | 5 => { b with w5 := v }
  | 6 => { b with w6 := v }
  | 7 => { b with w7 := v }
  | 8 => { b with w8 := v }
  | 9 => { b with w9 := v }
  | 10 => { b with w10 := v }
  | 11 => { b with w11 := v }
  | 12 => { b with w12 := v }
  | 13 => { b with w13 := v }
  | 14 => { b with w14 := v }
  | _ => { b with w15 := v }

/-- The block whose word `j` is `f j`. -/
def Block.ofFn (f : BitVec 4 → Word) : Block :=
  ⟨f 0, f 1, f 2, f 3, f 4, f 5, f 6, f 7, f 8, f 9, f 10, f 11, f 12, f 13, f 14, f 15⟩

/-- The block with `f` applied to every word. -/
def Block.map (f : Word → Word) (b : Block) : Block :=
  ⟨f b.w0, f b.w1, f b.w2, f b.w3, f b.w4, f b.w5, f b.w6, f b.w7,
   f b.w8, f b.w9, f b.w10, f b.w11, f b.w12, f b.w13, f b.w14, f b.w15⟩

/-- Sixteen zero words (the reset value of R15, R17, R18, R29). -/
def Block.zero : Block := ⟨0, 0, 0, 0, 0, 0, 0, 0, 0, 0, 0, 0, 0, 0, 0, 0⟩

end Sys2Proof
end

