-- ==== Sys2Proof/Config.lean ====
section
/-! DEFINITION. What is fixed for the hardware: the constants and read-only tables of
spec/00_scope.md R4 and spec/40_compression_engine.md R80 to R82, the free value of a CHAIN read while
BUSY = 1 (spec/20_memory.md R49) and the open parameter BASE_ADDR (spec/92_eei_decisions.md OPEN-1). -/

namespace Sys2Proof.Config

/-- R82: the initial value IV of the chaining registers. -/
def iv : Quad := ⟨0x67452301, 0xEFCDAB89, 0x98BADCFE, 0x10325476⟩

/-- R25: the constant read at offset 0x014. -/
def idWord : Word := 0x4D443501

/-- R4, R132: the ipad byte 0x36 in every lane of a word. -/
def ipadWord : Word := 0x36363636

/-- R4, R133: the opad byte 0x5C in every lane of a word. -/
def opadWord : Word := 0x5C5C5C5C

/-- R80, rounds 0 to 15. -/
def kQuarter0 : List Word :=
  [0xD76AA478, 0xE8C7B756, 0x242070DB, 0xC1BDCEEE,
   0xF57C0FAF, 0x4787C62A, 0xA8304613, 0xFD469501,
   0x698098D8, 0x8B44F7AF, 0xFFFF5BB1, 0x895CD7BE,
   0x6B901122, 0xFD987193, 0xA679438E, 0x49B40821]

/-- R80, rounds 16 to 31. -/
def kQuarter1 : List Word :=
  [0xF61E2562, 0xC040B340, 0x265E5A51, 0xE9B6C7AA,
   0xD62F105D, 0x02441453, 0xD8A1E681, 0xE7D3FBC8,
   0x21E1CDE6, 0xC33707D6, 0xF4D50D87, 0x455A14ED,
   0xA9E3E905, 0xFCEFA3F8, 0x676F02D9, 0x8D2A4C8A]

/-- R80, rounds 32 to 47. -/
def kQuarter2 : List Word :=
  [0xFFFA3942, 0x8771F681, 0x6D9D6122, 0xFDE5380C,
   0xA4BEEA44, 0x4BDECFA9, 0xF6BB4B60, 0xBEBFBC70,
   0x289B7EC6, 0xEAA127FA, 0xD4EF3085, 0x04881D05,
   0xD9D4D039, 0xE6DB99E5, 0x1FA27CF8, 0xC4AC5665]

/-- R80, rounds 48 to 63. -/
def kQuarter3 : List Word :=
  [0xF4292244, 0x432AFF97, 0xAB9423A7, 0xFC93A039,
   0x655B59C3, 0x8F0CCC92, 0xFFEFF47D, 0x85845DD1,
   0x6FA87E4F, 0xFE2CE6E0, 0xA3014314, 0x4E0811A1,
   0xF7537E82, 0xBD3AF235, 0x2AD7D2BB, 0xEB86D391]

/-- R16, R80: the K table, 64 words. -/
def kTable : List Word := kQuarter0 ++ kQuarter1 ++ kQuarter2 ++ kQuarter3

/-- R16, R81: the rotation amounts, one row of four for each quarter, indexed by `i[1:0]` within the row. -/
def sTable : List Nat :=
  [7, 12, 17, 22,
   5, 9, 14, 20,
   4, 11, 16, 23,
   6, 10, 15, 21]

theorem kTable_length : kTable.length = 64 := rfl

theorem sTable_length : sTable.length = 16 := rfl

/-- R49, R182: the value of a CHAIN read while BUSY = 1, "a fresh 32-bit draw on each read"
(spec/93_implementation_defined.md section 2). FREE VALUE: no body, so nothing can be proved of it;
the argument is the count of such reads before this one (`State.freeCtr`). Log entry 1. -/
opaque freeChain : Nat → Word

/-- R4, R40, OPEN-1: the base address of the register window in the host's address map. "The platform
chooses it and no rule depends on its value." An open parameter without a body. Log entry 2. -/
opaque baseAddr : Nat

/-- R40: the address, in the host's map, of window offset `off`. -/
def windowAddr (off : BitVec 12) : Nat := baseAddr + off.toNat

end Sys2Proof.Config
end

