-- ==== Sys2Proof/Syntax.lean ====
section
/-! DEFINITION. The instruction set: the eight host commands and the illegal range of format CMD, the four
rounds of format ROUND and the two micro-operations of format EPH, one constructor for each row of
spec/opcode_table.json (spec/30_encoding.md R60 to R66). -/

namespace Sys2Proof

/-- R14: the engine phase `eph`. It also selects the micro-operations LOAD and ADD (R65, format EPH). -/
inductive EnginePhase where
  | idle
  | load
  | round
  | add
  deriving DecidableEq, Repr

/-- R23, R60: what a command word holds beside its opcode. The reserved bits have no effect on the
command but are stored in CTRL and read back (R63), so an instruction keeps them. -/
structure CmdFields where
  /-- LEN, bits [14:8] (R61). -/
  len : BitVec 7
  /-- Reserved bits [7:4]. -/
  rsvLo : BitVec 4
  /-- Reserved bits [31:15]. -/
  rsvHi : BitVec 17
  deriving DecidableEq, Repr

/-- R62, R64, R65, R91, R92: one constructor per row of spec/opcode_table.json. -/
inductive Instr where
  /-- OP 0x0, R110. -/
  | nop (f : CmdFields)
  /-- OP 0x1, R111. -/
  | md5Init (f : CmdFields)
  /-- OP 0x2, R112. -/
  | md5Update (f : CmdFields)
  /-- OP 0x3, R113. -/
  | md5Final (f : CmdFields)
  /-- OP 0x4, R130. -/
  | hmacSetkey (f : CmdFields)
  /-- OP 0x5, R131. -/
  | hmacSetkeyDigest (f : CmdFields)
  /-- OP 0x6, R132. -/
  | hmacInit (f : CmdFields)
  /-- OP 0x7, R134. -/
  | hmacFinal (f : CmdFields)
  /-- OP 0x8 to 0xF, R64. -/
  | illegalOp (op : BitVec 4) (f : CmdFields)
  /-- Round `i = r` of quarter 0, R84 and R90. -/
  | roundF (r : BitVec 4)
  /-- Round `i = 16 + r` of quarter 1, R85 and R90. -/
  | roundG (r : BitVec 4)
  /-- Round `i = 32 + r` of quarter 2, R86 and R90. -/
  | roundH (r : BitVec 4)
  /-- Round `i = 48 + r` of quarter 3, R87 and R90. -/
  | roundI (r : BitVec 4)
  /-- `eph` = LOAD, R91. -/
  | load
  /-- `eph` = ADD, R92. -/
  | add
  deriving DecidableEq, Repr

/-- The encoded form of an instruction. The two decoders of the block never see each other's words: a
command word reaches the controller through CTRL (R60), a round index comes from `rnd` (R65), and LOAD and
ADD "are likewise selected by the phase". -/
inductive Code where
  /-- Format CMD: the 32-bit word written to CTRL. -/
  | cmd (w : Word)
  /-- Format ROUND: the 6-bit round index. -/
  | round (i : BitVec 6)
  /-- Format EPH: the value of `eph`. -/
  | eph (p : EnginePhase)
  deriving DecidableEq, Repr

end Sys2Proof
end

