-- ==== Sys2Proof/Machine/State.lean ====
section
/-! DEFINITION. The state of the block (spec/10_state.md R10 to R31), the ways a step can stop, and the state
after reset (spec/70_reset_and_hazards.md R170). -/

namespace Sys2Proof.Machine

/-- R28, R176: the controller phase `cph`. -/
inductive ControllerPhase where
  | idle
  | run
  deriving DecidableEq, Repr

/-- R10: the input ports in one clock cycle. -/
structure BusIn where
  /-- `rst_n`: false while the reset is asserted. -/
  rstN : Bool
  /-- `reg_req`. -/
  req : Bool
  /-- `reg_we`: true for a write. -/
  we : Bool
  /-- `reg_addr`. -/
  addr : BitVec 12
  /-- `reg_be`. -/
  be : BitVec 4
  /-- `reg_wdata`. -/
  wdata : Word
  deriving DecidableEq, Repr

/-- R10: a cycle in which the host presents no access and reset is not asserted. -/
def BusIn.idle : BusIn :=
  { rstN := true, req := false, we := false, addr := 0, be := 0, wdata := 0 }

/-- R10: the answer to an access. `rdata` is `none` where `reg_rdata` is not valid (a write). -/
structure Response where
  /-- `reg_err`. -/
  err : Bool
  /-- `reg_rdata`. -/
  rdata : Option Word
  deriving DecidableEq, Repr

/-- Every state element of the block, then the model's own fields. -/
structure State where
  /-- R11: A0, B0, C0, D0. -/
  chain : Quad
  /-- R12: A, B, C, D. -/
  work : Quad
  /-- R13: the round counter. -/
  rnd : BitVec 6
  /-- R14: the engine phase. -/
  eph : EnginePhase
  /-- R15: M[0..15]. -/
  m : Block
  /-- R17: DATA[0..15]. -/
  data : Block
  /-- R18: K0[0..15]. -/
  k0 : Block
  /-- R19: IHASH[0..3]. -/
  ihash : Quad
  /-- R20: BITLEN. -/
  bitlen : BitVec 64
  /-- R21: DIGEST[0..3]. -/
  digest : Quad
  /-- R22: KEY_VALID. -/
  keyValid : Bool
  /-- R22: HMAC_ACTIVE. -/
  hmacActive : Bool
  /-- R23: CTRL, the last word written. -/
  ctrl : Word
  /-- R24: STATUS.BUSY. -/
  busy : Bool
  /-- R24: STATUS.DONE. -/
  done : Bool
  /-- R24: STATUS.ERR. -/
  err : Bool
  /-- R24: STATUS.ERRCODE. -/
  errcode : BitVec 4
  /-- R26: IRQ_EN.DONE_IE. -/
  doneIe : Bool
  /-- R26: IRQ_EN.ERR_IE. -/
  errIe : Bool
  /-- R28: the controller phase. -/
  cph : ControllerPhase
  /-- R28: the latched opcode. -/
  opL : BitVec 4
  /-- R28: the latched length. -/
  nL : BitVec 7
  /-- R28: the index of the current job. -/
  jobIdx : Nat
  /-- R28: the padding stage: the second padding block is still to come. -/
  padStage : Bool
  /-- R29: DL[0..15]. -/
  dl : Block
  /-- R29: DGL[0..3]. -/
  dgl : Quad
  /-- The model's own: what the host drives on the ports in the coming cycles, the next cycle first; after
  its end the host presents no access (log entry 4). -/
  host : List BusIn
  /-- The model's own: the answer given in the last cycle; `none` is `reg_ack` = 0 (log entry 5). -/
  resp : Option Response
  /-- The model's own: how many free values have been drawn (log entry 1). -/
  freeCtr : Nat
  deriving DecidableEq, Repr

/-- The reasons for which the machine stops with a fault. -/
inductive Fault where
  /-- Raised by LOAD alone, when the controller has no current job, so that no block is presented to it
  (R91, R177). No state that a run from reset reaches raises it (`Inv` of Sys2Proof/Safety.lean rules it out).
  Safe: the model stops where the spec describes nothing. Log entry 6. -/
  | loadWithoutJob
  deriving DecidableEq, Repr

/-- The reasons for which the model has no meaning to give. -/
inductive Refusal where
  /-- An instruction whose arm of `exec` has no meaning yet. No arm of this model raises it. Safe. -/
  | notModelled (mnemonic : String)
  deriving DecidableEq, Repr

/-- R170: every state element at its reset value; log entries 1, 4 and 5 for the model's own fields. -/
def State.reset : State :=
  { chain := Config.iv
    work := Quad.zero
    rnd := 0
    eph := .idle
    m := Block.zero
    data := Block.zero
    k0 := Block.zero
    ihash := Quad.zero
    bitlen := 0
    digest := Quad.zero
    keyValid := false
    hmacActive := false
    ctrl := 0x00000000
    busy := false
    done := false
    err := false
    errcode := 0
    doneIe := false
    errIe := false
    cph := .idle
    opL := 0
    nL := 0
    jobIdx := 0
    padStage := false
    dl := Block.zero
    dgl := Quad.zero
    host := []
    resp := none
    freeCtr := 0 }

end Sys2Proof.Machine
end

