-- ==== Sys2Proof/Machine/Flags.lean ====
section
/-! DEFINITION. The STATUS and IRQ_EN words, the interrupt output, and the writes of STATUS flags
(spec/10_state.md R24, R26, R27; spec/20_memory.md R46, R47; spec/60_exceptions.md R150 to R156). -/

namespace Sys2Proof.Machine

/-- A one-bit field of a register word, zero-extended to 32 bits. -/
def bitWord (b : Bool) : Word := (BitVec.ofBool b).setWidth 32

/-- R24, R46: the word a STATUS read returns. -/
def State.statusWord (s : State) : Word :=
  bitWord s.hmacActive <<< 9 ||| bitWord s.keyValid <<< 8 ||| (s.errcode.setWidth 32) <<< 4 |||
    bitWord s.err <<< 2 ||| bitWord s.done <<< 1 ||| bitWord s.busy

/-- R26, R46: the word an IRQ_EN read returns. -/
def State.irqEnWord (s : State) : Word := bitWord s.errIe <<< 1 ||| bitWord s.doneIe

/-- R27, R156: the output `irq`, a level with no state of its own. -/
def State.irq (s : State) : Bool := (s.done && s.doneIe) || (s.err && s.errIe)

/-- R151: the causes for which a command is rejected. -/
inductive CmdError where
  | illegalOp
  | busy
  | badLen
  | noKey
  | sequence
  deriving DecidableEq, Repr

/-- R151: the code STATUS.ERRCODE records. -/
def CmdError.code : CmdError → BitVec 4
  | .illegalOp => 1
  | .busy => 2
  | .badLen => 3
  | .noKey => 4
  | .sequence => 5

/-- R47: the effect of writing `v` to STATUS: bit 1 clears DONE, bit 2 clears ERR and with it ERRCODE, and
no other bit has an effect. R155: "Return" from a rejection is this write with bit 2 set. -/
def State.writeStatus (v : Word) (s : State) : State :=
  { s with
    done := if v.getLsbD 1 then false else s.done
    err := if v.getLsbD 2 then false else s.err
    errcode := if v.getLsbD 2 then 0 else s.errcode }

/-- R47: the effect of writing `v` to IRQ_EN. -/
def State.writeIrqEn (v : Word) (s : State) : State :=
  { s with doneIe := v.getLsbD 0, errIe := v.getLsbD 1 }

/-- spec/41_md5_commands.md: `Complete: BUSY <- 0 ; DONE <- 1`; R176: "and then `cph` <- IDLE". -/
def State.complete (s : State) : State := { s with busy := false, done := true, cph := .idle }

end Sys2Proof.Machine
end

