-- ==== Sys2Proof/WellFormed.lean ====
section
/-! DEFINITION. Which terms of `Instr` are instructions of the block, and which of those the assembler of
spec/30_encoding.md R67 writes. -/

namespace Sys2Proof

/-- R64: the illegal range is OP 0x8 to 0xF. Every other field is as wide as its encoding, so this is the
one check. LEN outside its legal range is no ill-formed instruction: it can be written to CTRL, and the
block answers it with BAD_LEN (R61, R150). -/
def Instr.wellFormed : Instr → Bool
  | .nop _ => true
  | .md5Init _ => true
  | .md5Update _ => true
  | .md5Final _ => true
  | .hmacSetkey _ => true
  | .hmacSetkeyDigest _ => true
  | .hmacInit _ => true
  | .hmacFinal _ => true
  | .illegalOp op _ => decide (8 ≤ op.toNat)
  | .roundF _ => true
  | .roundG _ => true
  | .roundH _ => true
  | .roundI _ => true
  | .load => true
  | .add => true

/-- R60, R63: software writes the reserved bits as 0. -/
def CmdFields.reservedZero (f : CmdFields) : Bool := f.rsvLo == 0 && f.rsvHi == 0

/-- R67: which instructions an assembler writes: "A mnemonic with no operand encodes LEN = 0. An
assembler refuses an operand outside the legal range of rule R61." The illegal range has no mnemonic, and
the host cannot issue the engine's micro-operations. -/
def Instr.assembles : Instr → Bool
  | .nop f => f.reservedZero && f.len == 0
  | .md5Init f => f.reservedZero && f.len == 0
  | .md5Update f => f.reservedZero && f.len == 0
  | .md5Final f => f.reservedZero && decide (f.len.toNat ≤ 63)
  | .hmacSetkey f => f.reservedZero && decide (f.len.toNat ≤ 64)
  | .hmacSetkeyDigest f => f.reservedZero && f.len == 0
  | .hmacInit f => f.reservedZero && f.len == 0
  | .hmacFinal f => f.reservedZero && decide (f.len.toNat ≤ 63)
  | .illegalOp _ _ => false
  | .roundF _ => false
  | .roundG _ => false
  | .roundH _ => false
  | .roundI _ => false
  | .load => false
  | .add => false

end Sys2Proof
end

