-- ==== Sys2Proof/Decode.lean ====
section
/-! DEFINITION. The two decoders of the block and the phase selection (spec/30_encoding.md R60 to R65), the
decoder over bytes, the encoder written from the same tables, and the table-word reading the host asks for. -/

namespace Sys2Proof

/-- Why bytes or a code are no instruction. -/
inductive Reject where
  /-- Fewer than the four bytes of a command word are left (R60: "There is exactly one command length,
  32 bits"). -/
  | truncated
  /-- A byte with bit 6 or 7 set is no 6-bit round index (R65). -/
  | indexTooWide
  /-- `eph` = IDLE selects no micro-operation (R175). -/
  | idlePhase
  /-- `eph` = ROUND selects a round by its index, not by the phase (R65). -/
  | roundPhase
  deriving DecidableEq, Repr

/-- R60: `OP = word[3:0]`. -/
def opOf (w : Word) : BitVec 4 := w.extractLsb' 0 4

/-- R60: `LEN = word[14:8]` and the reserved fields `[7:4]` and `[31:15]`. -/
def fieldsOf (w : Word) : CmdFields :=
  { len := w.extractLsb' 8 7, rsvLo := w.extractLsb' 4 4, rsvHi := w.extractLsb' 15 17 }

/-- R62: the opcode map. Every word is a command or lies in the illegal range, so this decoder rejects
nothing; the reserved bits do not take part (R63). -/
def decodeCmd (w : Word) : Instr :=
  match (opOf w).toNat with
  | 0x0 => .nop (fieldsOf w)
  | 0x1 => .md5Init (fieldsOf w)
  | 0x2 => .md5Update (fieldsOf w)
  | 0x3 => .md5Final (fieldsOf w)
  | 0x4 => .hmacSetkey (fieldsOf w)
  | 0x5 => .hmacSetkeyDigest (fieldsOf w)
  | 0x6 => .hmacInit (fieldsOf w)
  | 0x7 => .hmacFinal (fieldsOf w)
  | _ => .illegalOp (opOf w) (fieldsOf w)

/-- R65, R83: the quarter `q = i[5:4]`. -/
def quarterOf (i : BitVec 6) : BitVec 2 := i.extractLsb' 4 2

/-- R65: the round index `i` of the ROUND phase, `q` selecting the row and `r = i[3:0]`. -/
def decodeRound (i : BitVec 6) : Instr :=
  match (quarterOf i).toNat with
  | 0 => .roundF (i.extractLsb' 0 4)
  | 1 => .roundG (i.extractLsb' 0 4)
  | 2 => .roundH (i.extractLsb' 0 4)
  | _ => .roundI (i.extractLsb' 0 4)

/-- R65: the micro-operations selected by the engine phase. -/
def decodePhase : EnginePhase → Except Reject Instr
  | .idle => .error .idlePhase
  | .load => .ok .load
  | .round => .error .roundPhase
  | .add => .ok .add

/-- The decoder over all three formats. -/
def decode : Code → Except Reject Instr
  | .cmd w => .ok (decodeCmd w)
  | .round i => .ok (decodeRound i)
  | .eph p => decodePhase p

/-- R42, R60: the command in the first four bytes, as the host lays a word out in the byte lanes (byte lane
`k` is bits `[8k+7:8k]`), with the bytes after it. -/
def decodeCmdBytes : List Byte → Except Reject (Instr × List Byte)
  | b0 :: b1 :: b2 :: b3 :: rest => .ok (decodeCmd (b3 ++ b2 ++ b1 ++ b0), rest)
  | _ => .error .truncated

/-- R65: the round whose index stands in the low six bits of a byte. -/
def decodeRoundByte (b : Byte) : Except Reject Instr :=
  if b.toNat < 64 then .ok (decodeRound (b.extractLsb' 0 6)) else .error .indexTooWide

/-! ### The encoder -/

/-- R60: `word = (LEN << 8) | OP` with the reserved bits in their places. -/
def cmdWord (op : BitVec 4) (f : CmdFields) : Word := f.rsvHi ++ f.len ++ f.rsvLo ++ op

/-- R65: the round index with quarter `q` and round-in-quarter `r`. -/
def roundIndex (q : BitVec 2) (r : BitVec 4) : BitVec 6 := q ++ r

/-- R62, R64, R65: the code of an instruction. -/
def encode : Instr → Code
  | .nop f => .cmd (cmdWord 0x0 f)
  | .md5Init f => .cmd (cmdWord 0x1 f)
  | .md5Update f => .cmd (cmdWord 0x2 f)
  | .md5Final f => .cmd (cmdWord 0x3 f)
  | .hmacSetkey f => .cmd (cmdWord 0x4 f)
  | .hmacSetkeyDigest f => .cmd (cmdWord 0x5 f)
  | .hmacInit f => .cmd (cmdWord 0x6 f)
  | .hmacFinal f => .cmd (cmdWord 0x7 f)
  | .illegalOp op f => .cmd (cmdWord op f)
  | .roundF r => .round (roundIndex 0 r)
  | .roundG r => .round (roundIndex 1 r)
  | .roundH r => .round (roundIndex 2 r)
  | .roundI r => .round (roundIndex 3 r)
  | .load => .eph .load
  | .add => .eph .add

/-- R42: the four bytes of a word, least significant first. -/
def wordBytes (w : Word) : List Byte :=
  [w.extractLsb' 0 8, w.extractLsb' 8 8, w.extractLsb' 16 8, w.extractLsb' 24 8]

/-! ### Table words

spec/opcode_table.json numbers the bits of a command word and of a round index alike from 0, and the two
formats share the low bits; in the hardware the place a word stands in says which decoder reads it. -/

/-- Which of the two decoders a word of the opcode table is meant for (log entry 3): a whole 32-bit word is
a command; of the words of at most one byte, 0x00 and 0x10 to 0x3F are round indices (the fixed bits of the
ROUND rows) and the others commands. -/
def tableCode (nbits w : Nat) : Code :=
  if nbits ≤ 8 ∧ (w = 0 ∨ 16 ≤ w) ∧ w < 64 then .round (BitVec.ofNat 6 w) else .cmd (BitVec.ofNat 32 w)

/-- The instruction the block's decoder reads from the table word `w`. -/
def decodeTableWord (nbits w : Nat) : Option Instr := (decode (tableCode nbits w)).toOption

end Sys2Proof
end

