-- ==== Sys2Proof/Machine/Operands.lean ====
section
/-! DEFINITION. Everything an operation reads that is formed from registers and tables without storing it:
the byte order of words and blocks (spec/20_memory.md R42), the round operands (spec/40_compression_engine.md
R80 to R89), the padding of a tail (spec/41_md5_commands.md R114), the normalised key and the ipad, opad and
outer tail blocks (spec/42_hmac_commands.md R130 to R133). -/

namespace Sys2Proof.Machine

/-! ### Byte order -/

/-- R6: `LE32(b0,b1,b2,b3) = b0 | b1<<8 | b2<<16 | b3<<24`. -/
def le32 (b0 b1 b2 b3 : Byte) : Word := b3 ++ b2 ++ b1 ++ b0

/-- R6: the 8-byte sequence of a 64-bit value, least significant byte first. -/
def le64 (v : BitVec 64) : List Byte :=
  [v.extractLsb' 0 8, v.extractLsb' 8 8, v.extractLsb' 16 8, v.extractLsb' 24 8,
   v.extractLsb' 32 8, v.extractLsb' 40 8, v.extractLsb' 48 8, v.extractLsb' 56 8]

/-- R21, R133: the 16 bytes of four words, in digest byte order. -/
def quadBytes (q : Quad) : List Byte :=
  wordBytes q.a ++ wordBytes q.b ++ wordBytes q.c ++ wordBytes q.d

/-- R17, R42: the 64 bytes of a block; byte `4j + k` is lane `k` of word `j`. -/
def blockBytes (b : Block) : List Byte :=
  wordBytes b.w0 ++ wordBytes b.w1 ++ wordBytes b.w2 ++ wordBytes b.w3 ++
  wordBytes b.w4 ++ wordBytes b.w5 ++ wordBytes b.w6 ++ wordBytes b.w7 ++
  wordBytes b.w8 ++ wordBytes b.w9 ++ wordBytes b.w10 ++ wordBytes b.w11 ++
  wordBytes b.w12 ++ wordBytes b.w13 ++ wordBytes b.w14 ++ wordBytes b.w15

/-- R93, R114: `Words(p)[j] = LE32(p[4j], p[4j+1], p[4j+2], p[4j+3])`. Used on 64 bytes; R69's LOADBLK pads
a shorter list "with 0x00 up to 64 bytes", which is what the default of a missing byte says. -/
def words (p : List Byte) : Block :=
  Block.ofFn fun j =>
    le32 (p.getD (4 * j.toNat) 0) (p.getD (4 * j.toNat + 1) 0)
      (p.getD (4 * j.toNat + 2) 0) (p.getD (4 * j.toNat + 3) 0)

/-! ### Round operands -/

/-- R84. -/
def fnF (b c d : Word) : Word := (b &&& c) ||| (~~~b &&& d)

/-- R85. -/
def fnG (b c d : Word) : Word := (d &&& b) ||| (~~~d &&& c)

/-- R86. -/
def fnH (b c d : Word) : Word := b ^^^ c ^^^ d

/-- R87. -/
def fnI (b c d : Word) : Word := c ^^^ (b ||| ~~~d)

/-- R83: the function the quarter selects. -/
def phi (q : BitVec 2) : Word → Word → Word → Word :=
  match q.toNat with
  | 0 => fnF
  | 1 => fnG
  | 2 => fnH
  | _ => fnI

/-- R80: K[i]. -/
def kConst (i : BitVec 6) : Word :=
  Config.kTable[i.toNat]'(by have h := i.isLt; rw [Config.kTable_length]; omega)

/-- R81: S[i], which depends only on `q = i[5:4]` and on `i[1:0]`. -/
def sAmount (i : BitVec 6) : Nat :=
  Config.sTable[4 * (quarterOf i).toNat + i.toNat % 4]'(by
    have h := (quarterOf i).isLt; rw [Config.sTable_length]; omega)

/-- R88: the message index, each formula on the full round index. -/
def gIndex (i : BitVec 6) : BitVec 4 :=
  match (quarterOf i).toNat with
  | 0 => BitVec.ofNat 4 (i.toNat % 16)
  | 1 => BitVec.ofNat 4 ((5 * i.toNat + 1) % 16)
  | 2 => BitVec.ofNat 4 ((3 * i.toNat + 5) % 16)
  | _ => BitVec.ofNat 4 ((7 * i.toNat) % 16)

/-- R6, R89: `rotl32(x, s)` for 0 < s < 32. -/
def rotl32 (x : Word) (s : Nat) : Word := (x <<< s) ||| (x >>> (32 - s))

/-- R90: one round on the working registers with the function `f` for Φ, every right-hand side read before
any register is written. -/
def roundWith (f : Word → Word → Word → Word) (i : BitVec 6) (v : Quad) (m : Block) : Quad :=
  let sum := f v.b v.c v.d + v.a + kConst i + m.get (gIndex i)
  { a := v.d, b := v.b + rotl32 sum (sAmount i), c := v.b, d := v.c }

/-- R90, R93: `Round(i, (A,B,C,D), M)`. -/
def roundFn (i : BitVec 6) (v : Quad) (m : Block) : Quad := roundWith (phi (quarterOf i)) i v m

/-- R93: the working registers after the first `k` rounds. -/
def roundsUpTo (v : Quad) (m : Block) : Nat → Quad
  | 0 => v
  | k + 1 => roundFn (BitVec.ofNat 6 k) (roundsUpTo v m k) m

/-- R93: the compression function. -/
def compress (c : Quad) (m : Block) : Quad := c.add (roundsUpTo c m 64)

/-! ### Padding and pads -/

/-- R114: the padding of a final tail `t` of at most 63 bytes with the message bit length `len`. -/
def padTail (t : List Byte) (len : BitVec 64) : List Block :=
  let p := t ++ [0x80]
  if t.length ≤ 55 then
    [words (p ++ List.replicate (55 - t.length) 0x00 ++ le64 len)]
  else
    [words (p ++ List.replicate (63 - t.length) 0x00),
     words (List.replicate 56 0x00 ++ le64 len)]

/-- R130: the key of `k` bytes, right-padded with 0x00 bytes to exactly 64. -/
def keyBlock (dl : Block) (k : Nat) : Block :=
  words ((blockBytes dl).take k ++ List.replicate (64 - k) 0x00)

/-- R131: the 16 digest bytes followed by 48 bytes 0x00. -/
def digestKeyBlock (dgl : Quad) : Block := words (quadBytes dgl ++ List.replicate 48 0x00)

/-- R132: `IPAD[j] = K0[j] ^ 0x36363636`. -/
def ipadBlock (k0 : Block) : Block := k0.map (· ^^^ Config.ipadWord)

/-- R133: `OPAD[j] = K0[j] ^ 0x5C5C5C5C`. -/
def opadBlock (k0 : Block) : Block := k0.map (· ^^^ Config.opadWord)

/-- R133: the one block `PadTail(bytes(IH0) ++ … ++ bytes(IH3), 640)[0]`. -/
def outerTail (ih : Quad) : Block := (padTail (quadBytes ih) 640).headD Block.zero

/-! ### Operands of the running command -/

/-- R113, R134: the message bytes of a final command, `DL bytes 0..n-1`. -/
def State.tailBytes (s : State) : List Byte := (blockBytes s.dl).take s.nL.toNat

/-- R113, R134, R177: `L = (BITLEN + 8·n_l) mod 2^64`. -/
def State.finalLen (s : State) : BitVec 64 := s.bitlen + 8#64 * s.nL.setWidth 64

/-- R177: the padding blocks P1 and P2 of the running command. -/
def State.padBlocks (s : State) : List Block := padTail s.tailBytes s.finalLen

end Sys2Proof.Machine
end

