-- ==== Sys2Proof/Machine/Ops.lean ====
section
/-! DEFINITION. The shared operations: the job lists of the controller (spec/70_reset_and_hazards.md R177),
issuing a command with its acceptance and its rejection, which is the block's whole counterpart of taking an
exception (spec/60_exceptions.md R150 to R155), and the engine's three micro-operations
(spec/40_compression_engine.md R90 to R92). -/

namespace Sys2Proof.Machine

/-- What an instruction or a step answers. -/
abbrev Result := Host.Outcome State Fault Refusal

/-- Continue with `k` from a next state; a stop stays a stop. -/
def andThen (r : Result) (k : State → Result) : Result :=
  match r with
  | .next s => k s
  | .fault f => .fault f
  | .refused q => .refused q

/-! ### Job lists -/

/-- R177: the source of the block a job compresses. -/
inductive Src where
  | dl
  | p1
  | p2
  | ipad
  | opad
  | t
  deriving DecidableEq, Repr

/-- R177: the chaining value a job starts from. -/
inductive Base where
  | iv
  | chain
  deriving DecidableEq, Repr

/-- R177: a job is a compression `COMP(src, base)`, some with the flag SAVE. -/
structure Job where
  src : Src
  base : Base
  save : Bool
  deriving DecidableEq, Repr

/-- R177: the job list of each command; the length chooses it for MD5_FINAL and HMAC_FINAL alone (R30). -/
def jobList (op : BitVec 4) (n : BitVec 7) : List Job :=
  match op.toNat with
  | 0x2 => [⟨.dl, .chain, false⟩]
  | 0x3 =>
    if n.toNat ≤ 55 then [⟨.p1, .chain, false⟩] else [⟨.p1, .chain, false⟩, ⟨.p2, .chain, false⟩]
  | 0x6 => [⟨.ipad, .iv, false⟩]
  | 0x7 =>
    if n.toNat ≤ 55 then [⟨.p1, .chain, true⟩, ⟨.opad, .iv, false⟩, ⟨.t, .chain, false⟩]
    else [⟨.p1, .chain, false⟩, ⟨.p2, .chain, true⟩, ⟨.opad, .iv, false⟩, ⟨.t, .chain, false⟩]
  | _ => []

/-- The job list of the running command. -/
def State.jobs (s : State) : List Job := jobList s.opL s.nL

/-- The job the engine works on. -/
def State.currentJob (s : State) : Option Job := s.jobs[s.jobIdx]?

/-- R92, R175: the controller has a further job after the current one. -/
def State.furtherJob (s : State) : Bool := decide (s.jobIdx + 1 < s.jobs.length)

/-- R177: the block a source stands for. P2 occurs in a job list only where `PadTail` returns two blocks. -/
def State.jobBlock (s : State) : Src → Block
  | .dl => s.dl
  | .p1 => s.padBlocks.getD 0 Block.zero
  | .p2 => s.padBlocks.getD 1 Block.zero
  | .ipad => ipadBlock s.k0
  | .opad => opadBlock s.k0
  | .t => outerTail s.ihash

/-- R177: the chaining value the job's LOAD copies into the working registers. -/
def State.baseChain (s : State) : Base → Quad
  | .iv => Config.iv
  | .chain => s.chain

/-- R179: the latency of a command in cycles: 66 for each compression, and 1 where there is none. -/
def latency (op : BitVec 4) (n : BitVec 7) : Nat :=
  if jobList op n = [] then 1 else 66 * (jobList op n).length

/-! ### Issuing a command -/

/-- R150: the checks in the order written; the first that applies decides (R153). -/
def rejection (op : BitVec 4) (len : BitVec 7) (s : State) : Option CmdError :=
  if s.busy = true then some .busy
  else if 0x8 ≤ op.toNat then some .illegalOp
  else if (op = 0x3 ∨ op = 0x7) ∧ 63 < len.toNat then some .badLen
  else if op = 0x4 ∧ 64 < len.toNat then some .badLen
  else if (op = 0x3 ∨ op = 0x4 ∨ op = 0x5) ∧ s.hmacActive = true then some .sequence
  else if op = 0x7 ∧ s.hmacActive = false then some .sequence
  else if op = 0x6 ∧ s.keyValid = false then some .noKey
  else none

/-- R150, R152: `raise CmdError(code)`: "ERR <- 1 ; ERRCODE <- code -- the command is dropped; nothing else
changes". -/
def State.raiseCmdError (c : CmdError) (s : State) : State :=
  { s with err := true, errcode := c.code }

/-- R150, R29: acceptance: the flags and the latches; R175, R176: `cph` <- RUN, the job list of the command
with its first job current, and `eph` <- LOAD if there is one; R28: the padding stage. -/
def State.accept (op : BitVec 4) (len : BitVec 7) (s : State) : State :=
  { s with
    busy := true
    done := false
    dl := s.data
    dgl := s.digest
    opL := op
    nL := len
    cph := .run
    jobIdx := 0
    padStage := (jobList op len).any (·.src == .p2)
    eph := if jobList op len = [] then .idle else .load }

/-- R47, R150: a write of the command word `v` to CTRL: `CTRL <- v ; IssueCommand(v)`, with the opcode and the
length that the word decodes to. -/
def State.issue (v : Word) (op : BitVec 4) (len : BitVec 7) (s : State) : State :=
  match rejection op len s with
  | some c => { s with ctrl := v }.raiseCmdError c
  | none => { s with ctrl := v }.accept op len

/-! ### Engine micro-operations -/

/-- R90: the round `i` with the function `f`: the working registers, then `rnd <- i + 1` or, after round 63,
`eph <- ADD`. -/
def State.doRound (f : Word → Word → Word → Word) (i : BitVec 6) (s : State) : State :=
  { s with
    work := roundWith f i s.work s.m
    rnd := if i.toNat < 63 then i + 1 else s.rnd
    eph := if i.toNat < 63 then s.eph else .add }

/-- R91, R177: LOAD for the job `j`: "If base = IV, the same LOAD first sets (A0, B0, C0, D0) <- IV". -/
def State.doLoad (j : Job) (s : State) : State :=
  { s with
    chain := s.baseChain j.base
    m := s.jobBlock j.src
    work := s.baseChain j.base
    rnd := 0
    eph := .round }

/-- R92, R175, R177: the add-back; a SAVE job's ADD also writes IHASH with the new chaining value; the engine
goes on with the next job if there is one. The padding stage ends with P1's job: the second padding block is then no
longer to come (R28, log entry 7). -/
def State.doAdd (s : State) : State :=
  { s with
    chain := s.chain.add s.work
    ihash := if s.currentJob.any (·.save) then s.chain.add s.work else s.ihash
    eph := if s.furtherJob then .load else .idle
    jobIdx := if s.furtherJob then s.jobIdx + 1 else s.jobIdx
    padStage := s.padStage && !s.currentJob.any (·.src == .p1) }

end Sys2Proof.Machine
end

