-- ==== Sys2Proof/Machine/Bus.lean ====
section
/-! DEFINITION. The register window: what an access is, what a read returns and what a write does
(spec/20_memory.md R40 to R51). -/

namespace Sys2Proof.Machine

/-- What the host presents in a cycle. -/
inductive Access where
  /-- `reg_req` = 0. -/
  | none
  /-- R43, R44: not a full aligned word. -/
  | bad (we : Bool)
  /-- R46. -/
  | read (off : BitVec 12)
  /-- R47, of an offset other than CTRL's. -/
  | write (off : BitVec 12) (v : Word)
  /-- R47: a write of CTRL, which issues a command. -/
  | command (v : Word)
  deriving DecidableEq, Repr

/-- R43: the only access the block serves is `reg_addr[1:0]` = 0 and `reg_be` = 0b1111. -/
def BusIn.fullWord (c : BusIn) : Bool := c.addr.extractLsb' 0 2 == 0 && c.be == 0b1111

/-- R43, R46, R47: the access the ports present. -/
def BusIn.access (c : BusIn) : Access :=
  if c.req = false then .none
  else if c.fullWord = false then .bad c.we
  else if c.we = false then .read c.addr
  else if c.addr = 0x000 then .command c.wdata
  else .write c.addr c.wdata

/-- R41: the offset lies in the CHAIN registers, 0x090 to 0x09C. -/
def isChainOff (off : BitVec 12) : Bool := decide (0x090 ≤ off.toNat ∧ off.toNat ≤ 0x09C)

/-- R46: the value BusRead returns. A CHAIN read while BUSY = 1 returns the next free value (R49). -/
def State.busRead (off : BitVec 12) (s : State) : Word :=
  if off = 0x000 then s.ctrl
  else if off = 0x004 then s.statusWord
  else if off = 0x008 then s.irqEnWord
  else if off = 0x00C then s.bitlen.extractLsb' 0 32
  else if off = 0x010 then s.bitlen.extractLsb' 32 32
  else if off = 0x014 then Config.idWord
  else if 0x040 ≤ off.toNat ∧ off.toNat ≤ 0x07C then s.data.get ((off - 0x040) >>> 2 |>.setWidth 4)
  else if 0x080 ≤ off.toNat ∧ off.toNat ≤ 0x08C then s.digest.get ((off - 0x080) >>> 2 |>.setWidth 2)
  else if isChainOff off = true then
    if s.busy = false then s.chain.get ((off - 0x090) >>> 2 |>.setWidth 2) else Config.freeChain s.freeCtr
  else 0

/-- R47, R48: BusWrite at an offset other than CTRL's. -/
def State.busWrite (off : BitVec 12) (v : Word) (s : State) : State :=
  if off = 0x004 then s.writeStatus v
  else if off = 0x008 then s.writeIrqEn v
  else if 0x040 ≤ off.toNat ∧ off.toNat ≤ 0x07C then
    { s with data := s.data.set ((off - 0x040) >>> 2 |>.setWidth 4) v }
  else s

/-- R10, R44 to R47: the answer on the ports. -/
def State.respond (err : Bool) (rdata : Option Word) (s : State) : State :=
  { s with resp := some { err := err, rdata := rdata } }

/-- R44, R46, R47: the access of one cycle, with `command` for the write of CTRL. A read changes no state
of the block; a CHAIN read while BUSY = 1 moves the model's count of free values on. -/
def busEdge (command : Word → State → Result) (a : Access) (s : State) : Result :=
  match a with
  | .none => .next { s with resp := none }
  | .bad we => .next (s.respond true (if we then none else some 0))
  | .read off =>
    .next ({ s with freeCtr := if s.busy && isChainOff off then s.freeCtr + 1 else s.freeCtr }.respond
      false (some (s.busRead off)))
  | .write off v => .next ((s.busWrite off v).respond false none)
  | .command v => andThen (command v s) fun t => .next (t.respond false none)

end Sys2Proof.Machine
end

