-- ==== Sys2Proof/Machine/Hmac.lean ====
section
/-! DEFINITION. The commands HMAC_SETKEY, HMAC_SETKEY_DIGEST, HMAC_INIT and HMAC_FINAL: what writing each to
CTRL does (spec/60_exceptions.md R150) and the writes at its completion (spec/70_reset_and_hazards.md R177, R178;
spec/42_hmac_commands.md R130 to R134). -/

namespace Sys2Proof.Machine

/-- R130: HMAC_SETKEY, OP = 0x4. -/
def execHmacSetkey (f : CmdFields) (s : State) : Result := .next (s.issue (cmdWord 0x4 f) 0x4 f.len)

/-- R131: HMAC_SETKEY_DIGEST, OP = 0x5. -/
def execHmacSetkeyDigest (f : CmdFields) (s : State) : Result :=
  .next (s.issue (cmdWord 0x5 f) 0x5 f.len)

/-- R132: HMAC_INIT, OP = 0x6. -/
def execHmacInit (f : CmdFields) (s : State) : Result := .next (s.issue (cmdWord 0x6 f) 0x6 f.len)

/-- R134: HMAC_FINAL, OP = 0x7. -/
def execHmacFinal (f : CmdFields) (s : State) : Result := .next (s.issue (cmdWord 0x7 f) 0x7 f.len)

/-- R130: `K0 <- key bytes ++ zeros; KEY_VALID <- 1`, then `Complete`. -/
def finishHmacSetkey (s : State) : State :=
  { s with k0 := keyBlock s.dl s.nL.toNat, keyValid := true }.complete

/-- R131: `K0 <- DGL bytes ++ zeros; KEY_VALID <- 1`, then `Complete`. -/
def finishHmacSetkeyDigest (s : State) : State :=
  { s with k0 := digestKeyBlock s.dgl, keyValid := true }.complete

/-- R132: `BITLEN <- 512; HMAC_ACTIVE <- 1`, then `Complete`. -/
def finishHmacInit (s : State) : State := { s with bitlen := 512, hmacActive := true }.complete

/-- R134: `DIGEST <- chain; BITLEN <- 640; HMAC_ACTIVE <- 0; KEY_VALID <- 0; K0 <- 0`, then `Complete`. -/
def finishHmacFinal (s : State) : State :=
  { s with
    digest := s.chain
    bitlen := 640
    hmacActive := false
    keyValid := false
    k0 := Block.zero }.complete

end Sys2Proof.Machine
end

