-- ==== Sys2Proof/Machine/Md5.lean ====
section
/-! DEFINITION. The commands NOP, MD5_INIT, MD5_UPDATE and MD5_FINAL and the illegal range: what writing each
to CTRL does (spec/60_exceptions.md R150) and the writes at its completion (spec/70_reset_and_hazards.md R177,
R178; spec/41_md5_commands.md R110 to R113; spec/30_encoding.md R64). The compressions between the two are the
engine's (Machine/Engine.lean). -/

namespace Sys2Proof.Machine

/-- R110: NOP, OP = 0x0. -/
def execNop (f : CmdFields) (s : State) : Result := .next (s.issue (cmdWord 0x0 f) 0x0 f.len)

/-- R111: MD5_INIT, OP = 0x1. -/
def execMd5Init (f : CmdFields) (s : State) : Result := .next (s.issue (cmdWord 0x1 f) 0x1 f.len)

/-- R112: MD5_UPDATE, OP = 0x2. -/
def execMd5Update (f : CmdFields) (s : State) : Result := .next (s.issue (cmdWord 0x2 f) 0x2 f.len)

/-- R113: MD5_FINAL, OP = 0x3. -/
def execMd5Final (f : CmdFields) (s : State) : Result := .next (s.issue (cmdWord 0x3 f) 0x3 f.len)

/-- R64: OP 0x8 to 0xF: rejected with ILLEGAL_OP, or with BUSY while a command runs, and no other effect. -/
def execIllegalOp (op : BitVec 4) (f : CmdFields) (s : State) : Result :=
  .next (s.issue (cmdWord op f) op f.len)

/-- R110: `Complete`. -/
def finishNop (s : State) : State := s.complete

/-- R111: `chain <- IV; BITLEN <- 0; HMAC_ACTIVE <- 0`, then `Complete`. -/
def finishMd5Init (s : State) : State :=
  { s with chain := Config.iv, bitlen := 0, hmacActive := false }.complete

/-- R112: `BITLEN <- BITLEN + 512`, then `Complete`. -/
def finishMd5Update (s : State) : State := { s with bitlen := s.bitlen + 512 }.complete

/-- R113: `BITLEN <- L; DIGEST <- chain`, then `Complete`. -/
def finishMd5Final (s : State) : State :=
  { s with bitlen := s.finalLen, digest := s.chain }.complete

end Sys2Proof.Machine
end

