-- ==== Sys2Proof/Machine/Controller.lean ====
section
/-! DEFINITION. The controller's own part of a clock edge: recognising the last cycle of a command and its
completion writes (spec/70_reset_and_hazards.md R176 to R178). -/

namespace Sys2Proof.Machine

/-- R176, R178: this cycle is the last of the running command: its single cycle where the job list is empty,
otherwise the ADD of its last job. -/
def State.lastCycle (s : State) : Bool :=
  s.cph == .run && (decide (s.jobs = []) || (s.eph == .add && !s.furtherJob))

/-- R177, R178: the completion writes of the latched command. An opcode of the illegal range is never
latched (R150). -/
def finish (s : State) : State :=
  match s.opL.toNat with
  | 0x0 => finishNop s
  | 0x1 => finishMd5Init s
  | 0x2 => finishMd5Update s
  | 0x3 => finishMd5Final s
  | 0x4 => finishHmacSetkey s
  | 0x5 => finishHmacSetkeyDigest s
  | 0x6 => finishHmacInit s
  | 0x7 => finishHmacFinal s
  | _ => s

end Sys2Proof.Machine
end

