-- ==== Sys2Proof/Machine/Engine.lean ====
section
/-! DEFINITION. The engine's micro-operations, each executed in one cycle (spec/40_compression_engine.md R84 to
R92). -/

namespace Sys2Proof.Machine

/-- R84, R90: round `i = r` of quarter 0, with Φ = F. -/
def execRoundF (r : BitVec 4) (s : State) : Result := .next (s.doRound fnF (roundIndex 0 r))

/-- R85, R90: round `i = 16 + r` of quarter 1, with Φ = G. -/
def execRoundG (r : BitVec 4) (s : State) : Result := .next (s.doRound fnG (roundIndex 1 r))

/-- R86, R90: round `i = 32 + r` of quarter 2, with Φ = H. -/
def execRoundH (r : BitVec 4) (s : State) : Result := .next (s.doRound fnH (roundIndex 2 r))

/-- R87, R90: round `i = 48 + r` of quarter 3, with Φ = I. -/
def execRoundI (r : BitVec 4) (s : State) : Result := .next (s.doRound fnI (roundIndex 3 r))

/-- R91: "The controller presents the 16-word block to be compressed. It is chosen by the current job". -/
def execLoad (s : State) : Result :=
  match s.currentJob with
  | some j => .next (s.doLoad j)
  | none => .fault .loadWithoutJob

/-- R92: the add-back. -/
def execAdd (s : State) : Result := .next s.doAdd

end Sys2Proof.Machine
end

