-- ==== Sys2Proof/Machine/Dispatch.lean ====
section
/-! DEFINITION. One arm per instruction. A command's meaning is the write of its word to CTRL: its rejection, or
its acceptance, from which the engine and the controller carry it to its completion (Machine/Cycle.lean). -/

namespace Sys2Proof.Machine

def exec (i : Instr) (s : State) : Host.Outcome State Fault Refusal :=
  match i with
  | .nop f => Sys2Proof.Machine.execNop f s
  | .md5Init f => Sys2Proof.Machine.execMd5Init f s
  | .md5Update f => Sys2Proof.Machine.execMd5Update f s
  | .md5Final f => Sys2Proof.Machine.execMd5Final f s
  | .hmacSetkey f => Sys2Proof.Machine.execHmacSetkey f s
  | .hmacSetkeyDigest f => Sys2Proof.Machine.execHmacSetkeyDigest f s
  | .hmacInit f => Sys2Proof.Machine.execHmacInit f s
  | .hmacFinal f => Sys2Proof.Machine.execHmacFinal f s
  | .illegalOp op f => Sys2Proof.Machine.execIllegalOp op f s
  | .roundF r => Sys2Proof.Machine.execRoundF r s
  | .roundG r => Sys2Proof.Machine.execRoundG r s
  | .roundH r => Sys2Proof.Machine.execRoundH r s
  | .roundI r => Sys2Proof.Machine.execRoundI r s
  | .load => Sys2Proof.Machine.execLoad s
  | .add => Sys2Proof.Machine.execAdd s

end Sys2Proof.Machine
end

