-- ==== Sys2Proof/Machine/Cycle.lean ====
section
/-! DEFINITION. One clock cycle (spec/70_reset_and_hazards.md R170 to R178): the host's access, the engine's
micro-operation and the controller's completion, all from the state at the start of the cycle and all taking
effect at the edge that ends it. -/

namespace Sys2Proof.Machine

/-- R10: what the host drives in this cycle. -/
def State.busIn (s : State) : BusIn := s.host.headD BusIn.idle

/-- The state with this cycle's port values taken from the host's list. -/
def State.popHost (s : State) : State := { s with host := s.host.tail }

/-- R14, R65, R175: the micro-operation of this cycle; none while `eph` = IDLE. -/
def State.microOp (s : State) : Option Instr :=
  match s.eph with
  | .idle => none
  | .load => (decode (.eph .load)).toOption
  | .round => (decode (.round s.rnd)).toOption
  | .add => (decode (.eph .add)).toOption

/-- R174, R175: execute the micro-operation that the cycle began with. -/
def engineEdge (i : Option Instr) (s : State) : Result :=
  match i with
  | none => .next s
  | some i => exec i s

/-- R176, R178: the completion writes, if the cycle was the command's last. -/
def controllerEdge (last : Bool) (s : State) : State := if last then finish s else s

/-- R57, R170: an edge with `rst_n` = 0: every state element takes its reset value and no access is served.
The model's own fields are no state elements: what the host drives next stays, and so does the count of free
values. -/
def resetEdge (s : State) : State :=
  { State.reset with host := s.host, freeCtr := s.freeCtr }

/-- R47, R52: the host's access; a write of CTRL runs the instruction its word decodes to. -/
def hostEdge (c : BusIn) (s : State) : Result :=
  busEdge (fun v t => exec (decodeCmd v) t) c.access s

/-- R174: one cycle with `rst_n` = 1. The access comes first and the engine and the controller after it, so
that a completion's DONE wins over a clear of the same cycle (R58); which micro-operation runs and whether the
cycle is the last are read from the state `s` the cycle began with. -/
def servedEdge (s : State) : Result :=
  andThen (hostEdge s.busIn s.popHost) fun t =>
    andThen (engineEdge s.microOp t) fun u => .next (controllerEdge s.lastCycle u)

/-- One clock cycle. -/
def clockEdge (s : State) : Result :=
  if s.busIn.rstN = false then .next (resetEdge s.popHost) else servedEdge s

/-! ### Placing an instruction where the next step takes it from -/

/-- R47, R68: the cycle of a full-word write, `WR off, v`. -/
def BusIn.wr (off : BitVec 12) (v : Word) : BusIn :=
  { rstN := true, req := true, we := true, addr := off, be := 0b1111, wdata := v }

/-- R46, R68: the cycle of a full-word read, `RD off`. -/
def BusIn.rd (off : BitVec 12) : BusIn :=
  { rstN := true, req := true, we := false, addr := off, be := 0b1111, wdata := 0 }

/-- A command is taken from the host's write to CTRL; a round from `rnd` while `eph` = ROUND; LOAD and ADD from
`eph` (R65). For the engine's codes the host presents no access in that cycle. -/
def State.placeCode (c : Code) (s : State) : State :=
  match c with
  | .cmd w => { s with host := BusIn.wr 0x000 w :: s.host }
  | .round i => { s with eph := .round, rnd := i, host := BusIn.idle :: s.host }
  | .eph p => { s with eph := p, host := BusIn.idle :: s.host }

end Sys2Proof.Machine
end

