-- ==== Sys2Proof/Machine/Step.lean ====
section
/-! DEFINITION. The step of the machine: one clock cycle. -/

namespace Sys2Proof.Machine

/-- R174: one clock cycle (Machine/Cycle.lean). -/
def step (s : State) : Host.Outcome State Fault Refusal := clockEdge s

/-- The word `w` of spec/opcode_table.json, placed where the next step takes its instruction from (log entries
3 and 4). -/
def State.withFetchWord (s : State) (nbits w : Nat) : State := s.placeCode (tableCode nbits w)

end Sys2Proof.Machine
end

