-- ==== Sys2Proof/Machine/Atomic.lean ====
section
/-! DEFINITION. The atomic view of the commands (spec/00_scope.md R8): each command as one state change at
completion, as spec/41_md5_commands.md R110 to R113 and spec/42_hmac_commands.md R130 to R134 write it. The step
does not use these; the statements say that the cycle view ends in them. -/

namespace Sys2Proof.Machine

/-- The registers the command rules speak of. -/
structure CmdState where
  chain : Quad
  bitlen : BitVec 64
  digest : Quad
  k0 : Block
  ihash : Quad
  keyValid : Bool
  hmacActive : Bool
  busy : Bool
  done : Bool
  deriving DecidableEq, Repr

/-- The command rules' registers of a state. -/
def State.cmdState (s : State) : CmdState :=
  { chain := s.chain, bitlen := s.bitlen, digest := s.digest, k0 := s.k0, ihash := s.ihash
    keyValid := s.keyValid, hmacActive := s.hmacActive, busy := s.busy, done := s.done }

/-- R152: what a rejection of the word `w` with the error `code` leaves: "A rejected command changes exactly
STATUS.ERR (to 1), STATUS.ERRCODE (to the code) and CTRL (to the written word)". -/
def State.rejected (w : Word) (code : BitVec 4) (s : State) : State :=
  { s with ctrl := w, err := true, errcode := code }

/-- `Complete: BUSY <- 0 ; DONE <- 1`. -/
def CmdState.complete (x : CmdState) : CmdState := { x with busy := false, done := true }

/-- R110. -/
def atomicNop (x : CmdState) : CmdState := x.complete

/-- R111. -/
def atomicMd5Init (x : CmdState) : CmdState :=
  { x with chain := Config.iv, bitlen := 0, hmacActive := false }.complete

/-- R112, with `dl` the copy of DATA. -/
def atomicMd5Update (dl : Block) (x : CmdState) : CmdState :=
  { x with chain := compress x.chain dl, bitlen := x.bitlen + 512 }.complete

/-- R113, R134: the compressions of `PadTail(DL bytes 0..n-1, L)`, in order. -/
def compressTail (dl : Block) (n : BitVec 7) (len : BitVec 64) (c : Quad) : Quad :=
  (padTail ((blockBytes dl).take n.toNat) len).foldl compress c

/-- R113, R134: `L = (BITLEN + 8*n) mod 2^64`. -/
def CmdState.finalLen (n : BitVec 7) (x : CmdState) : BitVec 64 :=
  BitVec.ofNat 64 ((x.bitlen.toNat + 8 * n.toNat) % 2 ^ 64)

/-- R113. -/
def atomicMd5Final (dl : Block) (n : BitVec 7) (x : CmdState) : CmdState :=
  let len := x.finalLen n
  let c := compressTail dl n len x.chain
  { x with chain := c, bitlen := len, digest := c }.complete

/-- R130. -/
def atomicHmacSetkey (dl : Block) (k : BitVec 7) (x : CmdState) : CmdState :=
  { x with k0 := keyBlock dl k.toNat, keyValid := true }.complete

/-- R131. -/
def atomicHmacSetkeyDigest (dgl : Quad) (x : CmdState) : CmdState :=
  { x with k0 := digestKeyBlock dgl, keyValid := true }.complete

/-- R132. -/
def atomicHmacInit (x : CmdState) : CmdState :=
  { x with chain := compress Config.iv (ipadBlock x.k0), bitlen := 512, hmacActive := true }.complete

/-- R133: OuterHash(IH) under the key `k0`. -/
def outerHash (k0 : Block) (ih : Quad) : Quad :=
  compress (compress Config.iv (opadBlock k0)) (outerTail ih)

/-- R134. -/
def atomicHmacFinal (dl : Block) (n : BitVec 7) (x : CmdState) : CmdState :=
  let ih := compressTail dl n (x.finalLen n) x.chain
  let mac := outerHash x.k0 ih
  { x with
    chain := mac, ihash := ih, digest := mac, bitlen := 640
    hmacActive := false, keyValid := false, k0 := Block.zero }.complete

end Sys2Proof.Machine
end

