-- ==== Sys2Proof/Machine/Reference.lean ====
section
/-! DEFINITION. The document's two functions on byte sequences, digest(m) and hmac(k, m), as
spec/41_md5_commands.md R114, R115 and spec/42_hmac_commands.md R135, R136 recount them. The host
programs that compute them are in Machine/HostOps.lean. The step uses neither. -/

namespace Sys2Proof.Machine

/-- The first `k` pieces of 64 bytes. -/
def chunks : Nat → List Byte → List (List Byte)
  | 0, _ => []
  | k + 1, m => m.take 64 :: chunks k (m.drop 64)

/-- R114, R115: the padded message: "append a single 0x80 byte", the minimum number of 0x00 bytes "such that
total length ≡ 56 (mod 64)", then the bit length modulo 2^64 as a little-endian 64-bit integer. -/
def paddedMessage (m : List Byte) : List Byte :=
  m ++ [0x80] ++ List.replicate ((119 - m.length % 64) % 64) 0x00 ++ le64 (BitVec.ofNat 64 (8 * m.length))

/-- R115: each block of the padded message compressed in order from the IV. -/
def digestOf (m : List Byte) : Quad :=
  ((chunks ((paddedMessage m).length / 64) (paddedMessage m)).map words).foldl compress Config.iv

/-- R135: the normalised 64-byte key. -/
def normalisedKey (key : List Byte) : List Byte :=
  if key.length ≤ 64 then key ++ List.replicate (64 - key.length) 0x00
  else quadBytes (digestOf key) ++ List.replicate 48 0x00

/-- R136: `digest(opad ++ digest(ipad ++ m))`. -/
def hmacOf (key m : List Byte) : Quad :=
  digestOf ((normalisedKey key).map (· ^^^ 0x5C) ++
    quadBytes (digestOf ((normalisedKey key).map (· ^^^ 0x36) ++ m)))

end Sys2Proof.Machine
end

