-- ==== Sys2Proof/Machine/HostOps.lean ====
section
/-! DEFINITION. The host's bus operations and pseudo-instructions of spec/30_encoding.md R67 to R69, and the host that
carries them out: it presents the access of its next operation, cycle by cycle, and WAIT repeats its read of STATUS
until the answer has bit 0 = 0. -/

namespace Sys2Proof.Machine

/-! ### The operations -/

/-- R68, R69: the primitive lines of a host program; `CMD` is the `WR` of its encoding (`cmdOp`). -/
inductive HostOp where
  /-- `WR off, v`. -/
  | wr (off : BitVec 12) (v : Word)
  /-- `RD off -> x`. -/
  | rd (off : BitVec 12)
  /-- `WAIT`: "repeat `RD STATUS -> s` until `s[0] = 0`". -/
  | wait
  deriving DecidableEq, Repr

/-- R67, R68: `CMD mnemonic [operand]` is `WR 0x000, <encoding>`, with the reserved bits 0. -/
def cmdOp (op : BitVec 4) (len : BitVec 7) : HostOp :=
  .wr 0x000 (cmdWord op { len := len, rsvLo := 0, rsvHi := 0 })

/-- R41: the window offset of DATA[j]. -/
def dataOff (j : BitVec 4) : BitVec 12 := 0x040 + (j.setWidth 12 <<< 2)

/-- R69: `LOADBLK bytes`. -/
def loadBlk (p : List Byte) : List HostOp :=
  [0, 1, 2, 3, 4, 5, 6, 7, 8, 9, 10, 11, 12, 13, 14, 15].map fun j => .wr (dataOff j) ((words p).get j)

/-- R69: `read DIGEST[0..3]`. -/
def readDigest : List HostOp := [.rd 0x080, .rd 0x084, .rd 0x088, .rd 0x08C]

/-- R69: "for each full block b_t of msg: LOADBLK b_t ; CMD MD5_UPDATE ; WAIT". -/
def updateOps (m : List Byte) : List HostOp :=
  (chunks (m.length / 64) m).flatMap fun b => loadBlk b ++ [cmdOp 0x2 0, .wait]

/-- R69: the last `N mod 64` bytes of a message. -/
def tailOf (m : List Byte) : List Byte := m.drop (64 * (m.length / 64))

/-- R69: the operand `N mod 64` of the final command. -/
def tailLen (m : List Byte) : BitVec 7 := BitVec.ofNat 7 (m.length % 64)

/-- R69: the expansion of `MD5 msg`. -/
def md5Ops (m : List Byte) : List HostOp :=
  [cmdOp 0x1 0, .wait] ++ updateOps m ++ loadBlk (tailOf m) ++ [cmdOp 0x3 (tailLen m), .wait] ++ readDigest

/-- R69, R135: the key load of `HMAC key, msg`. -/
def keyOps (key : List Byte) : List HostOp :=
  if key.length ≤ 64 then loadBlk key ++ [cmdOp 0x4 (BitVec.ofNat 7 key.length), .wait]
  else md5Ops key ++ [cmdOp 0x5 0, .wait]

/-- R69: the expansion of `HMAC key, msg`. -/
def hmacOps (key m : List Byte) : List HostOp :=
  keyOps key ++ [cmdOp 0x6 0, .wait] ++ updateOps m ++ loadBlk (tailOf m) ++ [cmdOp 0x7 (tailLen m), .wait] ++
    readDigest

/-! ### The host that carries them out -/

/-- R68, R69: the access an operation presents. -/
def HostOp.busIn : HostOp → BusIn
  | .wr off v => BusIn.wr off v
  | .rd off => BusIn.rd off
  | .wait => BusIn.rd 0x004

/-- The data a read answered. -/
def State.answered (s : State) : Option Word := s.resp.bind (·.rdata)

/-- R69: the operation is over with the answer that stands in `t`: a WAIT when the STATUS it read has bit 0 = 0, any
other after its one access. -/
def HostOp.ended (op : HostOp) (t : State) : Bool :=
  match op with
  | .wr _ _ => true
  | .rd _ => true
  | .wait => t.answered.any fun v => !v.getLsbD 0

/-- R68: the values an operation leaves the program, `-> x`: an `RD`'s; those a WAIT read are used up by it. -/
def HostOp.result (op : HostOp) (t : State) : List Word :=
  match op with
  | .wr _ _ => []
  | .rd _ => t.answered.toList
  | .wait => []

/-- A host program on its way, with the block it works on. -/
structure HostRun where
  /-- What is still to be carried out, the operation at hand first. -/
  prog : List HostOp
  /-- The values read so far, in order. -/
  reads : List Word
  /-- The block. -/
  st : State
  deriving DecidableEq, Repr

/-- What carrying out a host program answers. -/
abbrev HostResult := Host.Outcome HostRun Fault Refusal

/-- The state whose next cycle has the port values `c`. -/
def State.present (c : BusIn) (s : State) : State := { s with host := c :: s.host }

/-- R52, R68, R69: one clock cycle of the host and the block. If the host is `ready` to present an access (log entry 11)
and its program is not over, it presents the access of the operation at hand; otherwise it presents none. -/
def HostRun.cycle (ready : Bool) (h : HostRun) : HostResult :=
  match ready, h.prog with
  | true, op :: ops =>
    match step (h.st.present op.busIn) with
    | .next t =>
      .next { prog := if op.ended t then ops else op :: ops, reads := h.reads ++ op.result t, st := t }
    | .fault f => .fault f
    | .refused q => .refused q
  | _, _ =>
    match step (h.st.present BusIn.idle) with
    | .next t => .next { h with st := t }
    | .fault f => .fault f
    | .refused q => .refused q

/-- The cycles in which the host is ready or not as `sched` says, one entry a cycle. -/
def HostRun.drive : List Bool → HostRun → HostResult
  | [], h => .next h
  | r :: rs, h =>
    match h.cycle r with
    | .next h' => h'.drive rs
    | .fault f => .fault f
    | .refused q => .refused q

end Sys2Proof.Machine
end

