-- ==== Sys2Proof/Safety.lean ====
section
/-! DEFINITION. What the block keeps in every state a run from reset reaches, and what a safe run is. -/

namespace Sys2Proof.Machine

/-- What every clock edge keeps (R137, R151, R176, R177). Each field is a rule of the spec or follows from
the controller's sequencing. -/
structure Inv (s : State) : Prop where
  /-- R176: "`cph` = IDLE when no command runs (BUSY = 0) and RUN while one runs (BUSY = 1)". -/
  busy_iff_run : s.busy = true ↔ s.cph = .run
  /-- R175, R176: the engine is idle while no command runs. -/
  idle_engine : s.cph = .idle → s.eph = .idle
  /-- R176: a command with an empty job list never starts the engine. -/
  empty_engine : s.cph = .run → s.jobs = [] → s.eph = .idle
  /-- R175, R177: while a command with jobs runs, the engine works on one of them. -/
  job_engine : s.cph = .run → s.jobs ≠ [] → s.eph ≠ .idle ∧ s.jobIdx < s.jobs.length
  /-- R150: only OP 0x0 to 0x7 is accepted, with a legal length (R61). -/
  latched_legal : s.cph = .run → s.opL.toNat < 8 ∧ ((s.opL = 3 ∨ s.opL = 7) → s.nL.toNat ≤ 63) ∧
    (s.opL = 4 → s.nL.toNat ≤ 64)
  /-- R150: the mode flags a running command was accepted under still hold (R29). -/
  latched_mode : s.cph = .run → ((s.opL = 3 ∨ s.opL = 4 ∨ s.opL = 5) → s.hmacActive = false) ∧
    (s.opL = 7 → s.hmacActive = true) ∧ (s.opL = 6 → s.keyValid = true)
  /-- R24: DONE is cleared by the acceptance of a command and set by its completion. -/
  busy_not_done : s.busy = true → s.done = false
  /-- R24: "0 when ERR = 0"; R151: codes 6 to 15 are never written. -/
  errcode_legal : if s.err then 1 ≤ s.errcode.toNat ∧ s.errcode.toNat ≤ 5 else s.errcode = 0
  /-- R137: "HMAC_ACTIVE = 1 ⇒ KEY_VALID = 1 in every state". -/
  active_has_key : s.hmacActive = true → s.keyValid = true
  /-- R18, R22, R134, R170: without a loaded key K0 is zero. -/
  no_key_zero : s.keyValid = false → s.k0 = Block.zero
  /-- R28: the padding stage says whether P2 is still to come. -/
  pad_stage : s.padStage = (s.cph == .run && (s.jobs.drop (s.jobIdx + 1)).any (·.src == .p2))

/-- R57, R171: the host asserts no reset in the next `k` cycles. -/
def State.served (s : State) (k : Nat) : Prop := ∀ c ∈ s.host.take k, c.rstN = true

/-- R94: the part of the state that no host access reaches while a command runs: CTRL, DATA, the flags and
enables of STATUS and IRQ_EN that the host writes, and the ports are set to fixed values. -/
def State.internals (s : State) : State :=
  { s with
    ctrl := 0
    data := Block.zero
    done := false
    err := false
    errcode := 0
    doneIe := false
    errIe := false
    host := []
    resp := none
    freeCtr := 0 }

/-- R154: the premise "no interface error": ERR = 0. -/
def State.noError (s : State) : Prop := s.err = false

/-- A step that does not stop the machine. -/
def Safe (s : State) : Prop := ∃ t, step s = .next t

end Sys2Proof.Machine
end

