-- ==== Sys2Proof/Certificates/Slice0/Obligations.lean ====
section
/-! DEFINITION. The statements for the provers, each with the rule of spec/ it formalises. -/

open Sys2Proof Sys2Proof.Machine

/-! ### Encodings -/

/-- R60, R62, R64, R65: no bit of an encoding is dropped: decoding the encoding of a well-formed instruction of
any of the three formats gives the instruction back, with every operand and reserved field. -/
def Obligations.EncodedInstructionDecodesBack : Prop :=
  ∀ i : Instr, i.wellFormed = true → decode (encode i) = .ok i

/-- R60, R62, R64, R65: each code has one meaning: what decodes is well-formed and encodes back to the code. -/
def Obligations.DecodedCodeEncodesBack : Prop :=
  ∀ (c : Code) (i : Instr), decode c = .ok i → i.wellFormed = true ∧ encode i = c

/-- The model's choice of log entry 12, with the lanes of R42 and the format of R60: a command is read from bytes in
lane order, lane 0 first. So laid out, a command word decodes to its instruction and leaves the bytes after it; fewer
than four bytes are no command. The spec itself writes a command only as a whole word. -/
def Obligations.CommandBytesDecodeInLaneOrder : Prop :=
  (∀ (i : Instr) (w : Word) (rest : List Byte), i.wellFormed = true → encode i = .cmd w →
    decodeCmdBytes (wordBytes w ++ rest) = .ok (i, rest)) ∧
  (∀ bs : List Byte, bs.length < 4 → decodeCmdBytes bs = .error .truncated)

/-- R62, R64, R65, R67: words written out from the spec's encodings decode to what they stand for. -/
def Obligations.WrittenOutWordsDecode : Prop :=
  decodeCmd 0x00000000 = .nop ⟨0, 0, 0⟩ ∧
  decodeCmd 0x00000001 = .md5Init ⟨0, 0, 0⟩ ∧
  decodeCmd 0x000000F1 = .md5Init ⟨0, 0xF, 0⟩ ∧
  decodeCmd 0x00000002 = .md5Update ⟨0, 0, 0⟩ ∧
  decodeCmd 0x00000303 = .md5Final ⟨3, 0, 0⟩ ∧
  decodeCmd 0x00004004 = .hmacSetkey ⟨64, 0, 0⟩ ∧
  decodeCmd 0x00000005 = .hmacSetkeyDigest ⟨0, 0, 0⟩ ∧
  decodeCmd 0x00000006 = .hmacInit ⟨0, 0, 0⟩ ∧
  decodeCmd 0x00000807 = .hmacFinal ⟨8, 0, 0⟩ ∧
  decodeCmd 0x00007F0F = .illegalOp 0xF ⟨127, 0, 0⟩ ∧
  decodeCmd 0xFFFF8008 = .illegalOp 0x8 ⟨0, 0, 0x1FFFF⟩ ∧
  decodeRound 0b000101 = .roundF 5 ∧
  decodeRound 0b010000 = .roundG 0 ∧
  decodeRound 0b101111 = .roundH 15 ∧
  decodeRound 0b110001 = .roundI 1

/-- R63: two command words with the same OP and LEN do the same, except that CTRL holds the word as written. -/
def Obligations.ReservedBitsOnlyReachCtrl : Prop :=
  ∀ (w w' : Word) (s : State), opOf w = opOf w' → (fieldsOf w).len = (fieldsOf w').len →
    ∃ t, exec (decodeCmd w) s = .next t ∧ t.ctrl = w ∧
      exec (decodeCmd w') s = .next { t with ctrl := w' }

/-! ### The engine -/

/-- R90 (with R80, R81, R84 to R88): each of the four rounds, for every round of its quarter: the new working
registers from the old ones, from K, from S and from the message word the quarter's index formula selects, then
the next round index or, after round 63, the phase ADD; every other register is unchanged. -/
def Obligations.RoundsComputeTheWorkingRegisters : Prop :=
  (∀ (r : BitVec 4) (s : State), exec (.roundF r) s = .next { s with
    work :=
      { a := s.work.d
        b := s.work.b + (((s.work.b &&& s.work.c) ||| (~~~s.work.b &&& s.work.d)) + s.work.a +
          Config.kTable.getD r.toNat 0 + s.m.get r).rotateLeft ([7, 12, 17, 22].getD (r.toNat % 4) 0)
        c := s.work.b
        d := s.work.c }
    rnd := BitVec.ofNat 6 (r.toNat + 1) }) ∧
  (∀ (r : BitVec 4) (s : State), exec (.roundG r) s = .next { s with
    work :=
      { a := s.work.d
        b := s.work.b + (((s.work.d &&& s.work.b) ||| (~~~s.work.d &&& s.work.c)) + s.work.a +
          Config.kTable.getD (16 + r.toNat) 0 +
          s.m.get (BitVec.ofNat 4 (5 * (16 + r.toNat) + 1))).rotateLeft
            ([5, 9, 14, 20].getD (r.toNat % 4) 0)
        c := s.work.b
        d := s.work.c }
    rnd := BitVec.ofNat 6 (16 + r.toNat + 1) }) ∧
  (∀ (r : BitVec 4) (s : State), exec (.roundH r) s = .next { s with
    work :=
      { a := s.work.d
        b := s.work.b + ((s.work.b ^^^ s.work.c ^^^ s.work.d) + s.work.a +
          Config.kTable.getD (32 + r.toNat) 0 +
          s.m.get (BitVec.ofNat 4 (3 * (32 + r.toNat) + 5))).rotateLeft
            ([4, 11, 16, 23].getD (r.toNat % 4) 0)
        c := s.work.b
        d := s.work.c }
    rnd := BitVec.ofNat 6 (32 + r.toNat + 1) }) ∧
  (∀ (r : BitVec 4) (s : State), exec (.roundI r) s = .next { s with
    work :=
      { a := s.work.d
        b := s.work.b + ((s.work.c ^^^ (s.work.b ||| ~~~s.work.d)) + s.work.a +
          Config.kTable.getD (48 + r.toNat) 0 +
          s.m.get (BitVec.ofNat 4 (7 * (48 + r.toNat)))).rotateLeft
            ([6, 10, 15, 21].getD (r.toNat % 4) 0)
        c := s.work.b
        d := s.work.c }
    rnd := if r = 15 then s.rnd else BitVec.ofNat 6 (48 + r.toNat + 1)
    eph := if r = 15 then .add else s.eph })

/-- R84 to R87: each function works on each bit position alone. -/
def Obligations.RoundFunctionsAreBitwise : Prop :=
  ∀ (b c d : Word) (k : Nat), k < 32 →
    (fnF b c d).getLsbD k = (if b.getLsbD k then c.getLsbD k else d.getLsbD k) ∧
    (fnG b c d).getLsbD k = (if d.getLsbD k then b.getLsbD k else c.getLsbD k) ∧
    (fnH b c d).getLsbD k = (b.getLsbD k ^^ c.getLsbD k ^^ d.getLsbD k) ∧
    (fnI b c d).getLsbD k = (c.getLsbD k ^^ (b.getLsbD k || !d.getLsbD k))

/-- R88: the message index on the full round index, its equality with the same formula on `i[3:0]`, each value 0
to 15 exactly once over each quarter, and the full sequence. -/
def Obligations.MessageIndexIsAPermutation : Prop :=
  (∀ r : BitVec 4,
    gIndex (roundIndex 0 r) = BitVec.ofNat 4 (r.toNat % 16) ∧
    gIndex (roundIndex 1 r) = BitVec.ofNat 4 ((5 * (16 + r.toNat) + 1) % 16) ∧
    gIndex (roundIndex 2 r) = BitVec.ofNat 4 ((3 * (32 + r.toNat) + 5) % 16) ∧
    gIndex (roundIndex 3 r) = BitVec.ofNat 4 ((7 * (48 + r.toNat)) % 16)) ∧
  (∀ r : BitVec 4,
    gIndex (roundIndex 0 r) = r ∧
    gIndex (roundIndex 1 r) = BitVec.ofNat 4 ((5 * r.toNat + 1) % 16) ∧
    gIndex (roundIndex 2 r) = BitVec.ofNat 4 ((3 * r.toNat + 5) % 16) ∧
    gIndex (roundIndex 3 r) = BitVec.ofNat 4 ((7 * r.toNat) % 16)) ∧
  (∀ (q : BitVec 2) (j : BitVec 4), ∃ r : BitVec 4, gIndex (roundIndex q r) = j ∧
    ∀ r' : BitVec 4, gIndex (roundIndex q r') = j → r' = r) ∧
  (List.range 64).map (fun i => (gIndex (BitVec.ofNat 6 i)).toNat) =
    [0, 1, 2, 3, 4, 5, 6, 7, 8, 9, 10, 11, 12, 13, 14, 15] ++
    [1, 6, 11, 0, 5, 10, 15, 4, 9, 14, 3, 8, 13, 2, 7, 12] ++
    [5, 8, 11, 14, 1, 4, 7, 10, 13, 0, 3, 6, 9, 12, 15, 2] ++
    [0, 7, 14, 5, 12, 3, 10, 1, 8, 15, 6, 13, 4, 11, 2, 9]

/-- R91 with the sources and bases of R177: exec of LOAD, for the current job, whatever the phase (that the step runs
LOAD in the cycle with `eph` = LOAD is StepRunsTheMicroOperation): M takes the block of the job's source, the working
registers and, for base IV, the chaining registers take the job's base, and the rounds begin at 0; nothing else
changes. -/
def Obligations.LoadStartsTheCurrentJob : Prop :=
  ∀ (s : State) (j : Job), s.currentJob = some j →
    exec .load s = .next { s with
      m := match j.src with
        | .dl => s.dl
        | .p1 => s.padBlocks.getD 0 Block.zero
        | .p2 => s.padBlocks.getD 1 Block.zero
        | .ipad => s.k0.map (· ^^^ 0x36363636)
        | .opad => s.k0.map (· ^^^ 0x5C5C5C5C)
        | .t => outerTail s.ihash
      chain := if j.base = .iv then Config.iv else s.chain
      work := if j.base = .iv then Config.iv else s.chain
      rnd := 0
      eph := .round }

/-- Log entry 6, the model's choice: LOAD stops, by name, exactly where the controller has no current job. -/
def Obligations.LoadStopsOnlyWithoutAJob : Prop :=
  ∀ s : State, exec .load s = .fault .loadWithoutJob ↔ s.currentJob = none

/-- R92, R175, R177: the add-back, word by word; a SAVE job's ADD also writes IHASH; the next job is loaded if there
is one; nothing else changes but the padding stage. That the job index stays on the last job after its ADD is the
model's choice of log entry 9, and when the padding stage of R28 changes that of log entry 7. -/
def Obligations.AddAccumulatesIntoTheChain : Prop :=
  ∀ s : State, ∃ t, exec .add s = .next t ∧
    t.chain = ⟨s.chain.a + s.work.a, s.chain.b + s.work.b, s.chain.c + s.work.c, s.chain.d + s.work.d⟩ ∧
    t.ihash = (if ∃ j, s.currentJob = some j ∧ j.save = true then t.chain else s.ihash) ∧
    t.eph = (if s.jobIdx + 1 < s.jobs.length then .load else .idle) ∧
    t.jobIdx = (if s.jobIdx + 1 < s.jobs.length then s.jobIdx + 1 else s.jobIdx) ∧
    t = { s with
      chain := t.chain, ihash := t.ihash, eph := t.eph, jobIdx := t.jobIdx, padStage := t.padStage }

/-- R93: the whole effect of one LOAD, 64 ROUNDs and ADD on the chaining value is Compress, whatever accesses the
host makes meanwhile (R94); a SAVE job leaves it in IHASH too. -/
def Obligations.SixtySixCyclesCompressTheBlock : Prop :=
  ∀ (s : State) (j : Job), s.busy = true → s.cph = .run → s.served 66 → s.eph = .load →
    s.currentJob = some j →
    ∃ u, Host.Core.run core 66 s = .next u ∧
      u.chain = compress (if j.base = .iv then Config.iv else s.chain) (s.jobBlock j.src) ∧
      (j.save = true → u.ihash = u.chain)

/-! ### The commands, from the write of CTRL to completion -/

/-- R110: NOP is accepted whenever BUSY = 0, whatever LEN is, and completes; nothing but BUSY and DONE is
written on the way. Written while BUSY = 1 it is rejected with BUSY. -/
def Obligations.NopCompletes : Prop :=
  (∀ (f : CmdFields) (s : State), s.busy = false → s.served 1 →
    ∃ t u,
      t = { s with
        ctrl := cmdWord 0x0 f, busy := true, done := false, dl := s.data, dgl := s.digest, opL := 0x0
        nL := f.len, cph := .run, jobIdx := 0, padStage := false, eph := .idle } ∧
      exec (.nop f) s = .next t ∧ Host.Core.run core 1 t = .next u ∧
      u.cmdState = { s.cmdState with busy := false, done := true }) ∧
  (∀ (f : CmdFields) (s : State), s.busy = true → exec (.nop f) s = .next (s.rejected (cmdWord 0x0 f) 2))

/-- R111: MD5_INIT is accepted whenever BUSY = 0 and loads the IV, clears BITLEN and HMAC_ACTIVE; its one
rejection is BUSY. -/
def Obligations.Md5InitCompletes : Prop :=
  (∀ (f : CmdFields) (s : State), s.busy = false → s.served 1 →
    ∃ t u,
      t = { s with
        ctrl := cmdWord 0x1 f, busy := true, done := false, dl := s.data, dgl := s.digest, opL := 0x1
        nL := f.len, cph := .run, jobIdx := 0, padStage := false, eph := .idle } ∧
      exec (.md5Init f) s = .next t ∧ Host.Core.run core 1 t = .next u ∧
      u.cmdState = { s.cmdState with
        chain := ⟨0x67452301, 0xEFCDAB89, 0x98BADCFE, 0x10325476⟩, bitlen := 0, hmacActive := false
        busy := false, done := true }) ∧
  (∀ (f : CmdFields) (s : State), s.busy = true → exec (.md5Init f) s = .next (s.rejected (cmdWord 0x1 f) 2))

/-- R112: MD5_UPDATE is accepted whenever BUSY = 0, with HMAC_ACTIVE either 0 or 1, and compresses DATA as it was
at acceptance; its one rejection is BUSY. -/
def Obligations.Md5UpdateCompletes : Prop :=
  (∀ (f : CmdFields) (s : State), s.busy = false → s.served 66 →
    ∃ t u,
      t = { s with
        ctrl := cmdWord 0x2 f, busy := true, done := false, dl := s.data, dgl := s.digest, opL := 0x2
        nL := f.len, cph := .run, jobIdx := 0, padStage := false, eph := .load } ∧
      exec (.md5Update f) s = .next t ∧ Host.Core.run core 66 t = .next u ∧
      u.cmdState = { s.cmdState with
        chain := compress s.chain s.data, bitlen := s.bitlen + 512, busy := false, done := true }) ∧
  (∀ (f : CmdFields) (s : State), s.busy = true → exec (.md5Update f) s = .next (s.rejected (cmdWord 0x2 f) 2))

/-- R113: MD5_FINAL with n ≤ 63 and HMAC_ACTIVE = 0 compresses the padded tail of DATA as it was at acceptance and
leaves the digest; it is rejected with BAD_LEN for n > 63 and with SEQUENCE for HMAC_ACTIVE = 1. The value of the
padding stage at acceptance is the model's choice of log entry 7. -/
def Obligations.Md5FinalCompletes : Prop :=
  (∀ (f : CmdFields) (s : State), s.busy = false → s.served (if f.len.toNat ≤ 55 then 66 else 132) →
    f.len.toNat ≤ 63 → s.hmacActive = false →
    ∃ t u,
      t = { s with
        ctrl := cmdWord 0x3 f, busy := true, done := false, dl := s.data, dgl := s.digest, opL := 0x3
        nL := f.len, cph := .run, jobIdx := 0, padStage := decide (56 ≤ f.len.toNat), eph := .load } ∧
      exec (.md5Final f) s = .next t ∧
      Host.Core.run core (if f.len.toNat ≤ 55 then 66 else 132) t = .next u ∧
      u.cmdState = atomicMd5Final s.data f.len s.cmdState) ∧
  (∀ (f : CmdFields) (s : State), s.busy = true → exec (.md5Final f) s = .next (s.rejected (cmdWord 0x3 f) 2)) ∧
  (∀ (f : CmdFields) (s : State), s.busy = false → 63 < f.len.toNat →
    exec (.md5Final f) s = .next (s.rejected (cmdWord 0x3 f) 3)) ∧
  (∀ (f : CmdFields) (s : State), s.busy = false → f.len.toNat ≤ 63 → s.hmacActive = true →
    exec (.md5Final f) s = .next (s.rejected (cmdWord 0x3 f) 5))

/-- R130: HMAC_SETKEY with k ≤ 64 and HMAC_ACTIVE = 0: byte j of K0 is byte j of DATA for j < k and 0x00 from k
on, and KEY_VALID is set; rejections BAD_LEN for k > 64 and SEQUENCE for HMAC_ACTIVE = 1. -/
def Obligations.HmacSetkeyCompletes : Prop :=
  (∀ (f : CmdFields) (s : State), s.busy = false → s.served 1 → f.len.toNat ≤ 64 → s.hmacActive = false →
    ∃ t u,
      t = { s with
        ctrl := cmdWord 0x4 f, busy := true, done := false, dl := s.data, dgl := s.digest, opL := 0x4
        nL := f.len, cph := .run, jobIdx := 0, padStage := false, eph := .idle } ∧
      exec (.hmacSetkey f) s = .next t ∧ Host.Core.run core 1 t = .next u ∧
      (∀ j < 64, (blockBytes u.k0)[j]? = if j < f.len.toNat then (blockBytes s.data)[j]? else some 0x00) ∧
      u.cmdState = { s.cmdState with k0 := u.k0, keyValid := true, busy := false, done := true }) ∧
  (∀ (f : CmdFields) (s : State), s.busy = true →
    exec (.hmacSetkey f) s = .next (s.rejected (cmdWord 0x4 f) 2)) ∧
  (∀ (f : CmdFields) (s : State), s.busy = false → 64 < f.len.toNat →
    exec (.hmacSetkey f) s = .next (s.rejected (cmdWord 0x4 f) 3)) ∧
  (∀ (f : CmdFields) (s : State), s.busy = false → f.len.toNat ≤ 64 → s.hmacActive = true →
    exec (.hmacSetkey f) s = .next (s.rejected (cmdWord 0x4 f) 5))

/-- R131: HMAC_SETKEY_DIGEST with HMAC_ACTIVE = 0: bytes 0 to 15 of K0 are the digest's, the others 0x00;
rejection SEQUENCE for HMAC_ACTIVE = 1. -/
def Obligations.HmacSetkeyDigestCompletes : Prop :=
  (∀ (f : CmdFields) (s : State), s.busy = false → s.served 1 → s.hmacActive = false →
    ∃ t u,
      t = { s with
        ctrl := cmdWord 0x5 f, busy := true, done := false, dl := s.data, dgl := s.digest, opL := 0x5
        nL := f.len, cph := .run, jobIdx := 0, padStage := false, eph := .idle } ∧
      exec (.hmacSetkeyDigest f) s = .next t ∧ Host.Core.run core 1 t = .next u ∧
      (∀ j < 64, (blockBytes u.k0)[j]? = if j < 16 then (quadBytes s.digest)[j]? else some 0x00) ∧
      u.cmdState = { s.cmdState with k0 := u.k0, keyValid := true, busy := false, done := true }) ∧
  (∀ (f : CmdFields) (s : State), s.busy = true →
    exec (.hmacSetkeyDigest f) s = .next (s.rejected (cmdWord 0x5 f) 2)) ∧
  (∀ (f : CmdFields) (s : State), s.busy = false → s.hmacActive = true →
    exec (.hmacSetkeyDigest f) s = .next (s.rejected (cmdWord 0x5 f) 5))

/-- R132: HMAC_INIT with KEY_VALID = 1, HMAC_ACTIVE either 0 or 1, starts the inner hash with the ipad block;
rejection NO_KEY for KEY_VALID = 0. -/
def Obligations.HmacInitCompletes : Prop :=
  (∀ (f : CmdFields) (s : State), s.busy = false → s.served 66 → s.keyValid = true →
    ∃ t u,
      t = { s with
        ctrl := cmdWord 0x6 f, busy := true, done := false, dl := s.data, dgl := s.digest, opL := 0x6
        nL := f.len, cph := .run, jobIdx := 0, padStage := false, eph := .load } ∧
      exec (.hmacInit f) s = .next t ∧ Host.Core.run core 66 t = .next u ∧
      u.cmdState = { s.cmdState with
        chain := compress Config.iv (s.k0.map (· ^^^ 0x36363636)), bitlen := 512, hmacActive := true
        busy := false, done := true }) ∧
  (∀ (f : CmdFields) (s : State), s.busy = true → exec (.hmacInit f) s = .next (s.rejected (cmdWord 0x6 f) 2)) ∧
  (∀ (f : CmdFields) (s : State), s.busy = false → s.keyValid = false →
    exec (.hmacInit f) s = .next (s.rejected (cmdWord 0x6 f) 4))

/-- R134: HMAC_FINAL with n ≤ 63 and HMAC_ACTIVE = 1 ends the inner hash, runs the outer hash, leaves the MAC and
discards the key; rejections BAD_LEN for n > 63 and SEQUENCE for HMAC_ACTIVE = 0. The value of the padding stage at
acceptance is the model's choice of log entry 7. -/
def Obligations.HmacFinalCompletes : Prop :=
  (∀ (f : CmdFields) (s : State), s.busy = false → s.served (if f.len.toNat ≤ 55 then 198 else 264) →
    f.len.toNat ≤ 63 → s.hmacActive = true →
    ∃ t u,
      t = { s with
        ctrl := cmdWord 0x7 f, busy := true, done := false, dl := s.data, dgl := s.digest, opL := 0x7
        nL := f.len, cph := .run, jobIdx := 0, padStage := decide (56 ≤ f.len.toNat), eph := .load } ∧
      exec (.hmacFinal f) s = .next t ∧
      Host.Core.run core (if f.len.toNat ≤ 55 then 198 else 264) t = .next u ∧
      u.cmdState = atomicHmacFinal s.data f.len s.cmdState) ∧
  (∀ (f : CmdFields) (s : State), s.busy = true → exec (.hmacFinal f) s = .next (s.rejected (cmdWord 0x7 f) 2)) ∧
  (∀ (f : CmdFields) (s : State), s.busy = false → 63 < f.len.toNat →
    exec (.hmacFinal f) s = .next (s.rejected (cmdWord 0x7 f) 3)) ∧
  (∀ (f : CmdFields) (s : State), s.busy = false → f.len.toNat ≤ 63 → s.hmacActive = false →
    exec (.hmacFinal f) s = .next (s.rejected (cmdWord 0x7 f) 5))

/-- R64, R151: with BUSY = 0, an opcode of the illegal range records ILLEGAL_OP and has no other effect; CTRL
holds the word. -/
def Obligations.IllegalOpcodesAreRecorded : Prop :=
  ∀ (op : BitVec 4) (f : CmdFields) (s : State), 8 ≤ op.toNat → s.busy = false →
    exec (.illegalOp op f) s = .next { s with ctrl := cmdWord op f, err := true, errcode := 1 }

/-- R17, R23, R26, R154: a command that runs while the host makes no access leaves DATA, CTRL, ERR, ERRCODE, the
enables as acceptance left them. R29 says that acceptance copies the latches; that they keep the copy after completion
is the model's choice of log entry 9, and the count of free values is the model's own (log entry 1). -/
def Obligations.CommandsLeaveTheHostsRegisters : Prop :=
  ∀ (w : Word) (s : State),
    (∀ c ∈ s.host.take (latency (opOf w) (fieldsOf w).len), c.rstN = true ∧ c.req = false) →
    rejection (opOf w) (fieldsOf w).len s = none →
    ∃ t u, exec (decodeCmd w) s = .next t ∧
      Host.Core.run core (latency (opOf w) (fieldsOf w).len) t = .next u ∧
      u.data = s.data ∧ u.ctrl = w ∧ u.err = s.err ∧ u.errcode = s.errcode ∧ u.doneIe = s.doneIe ∧
      u.errIe = s.errIe ∧ u.freeCtr = s.freeCtr ∧ u.dl = s.data ∧ u.dgl = s.digest ∧
      u.opL = opOf w ∧ u.nL = (fieldsOf w).len ∧ u.host = s.host.drop (latency (opOf w) (fieldsOf w).len)

/-- R150, R151, R153: issuing any command word in any state: the checks in the order BUSY, ILLEGAL_OP, BAD_LEN,
SEQUENCE, NO_KEY, a rejection changing ERR, ERRCODE and CTRL alone (R152), or the acceptance with its latches and
the start of the job sequence (R176, R177). OP is `word[3:0]` and LEN is `word[14:8]`. The value of the padding stage
at acceptance is the model's choice of log entry 7. -/
def Obligations.IssueFollowsTheOrderOfChecks : Prop :=
  ∀ (w : Word) (s : State),
    let op := w.toNat % 16
    let len := w.toNat / 256 % 128
    let rejected (code : BitVec 4) : State := { s with ctrl := w, err := true, errcode := code }
    exec (decodeCmd w) s = .next (
      if s.busy = true then rejected 2
      else if 8 ≤ op then rejected 1
      else if (op = 3 ∨ op = 7) ∧ 63 < len then rejected 3
      else if op = 4 ∧ 64 < len then rejected 3
      else if (op = 3 ∨ op = 4 ∨ op = 5) ∧ s.hmacActive = true then rejected 5
      else if op = 7 ∧ s.hmacActive = false then rejected 5
      else if op = 6 ∧ s.keyValid = false then rejected 4
      else { s with
        ctrl := w, busy := true, done := false, dl := s.data, dgl := s.digest
        opL := BitVec.ofNat 4 op, nL := BitVec.ofNat 7 len, cph := .run, jobIdx := 0
        padStage := decide ((op = 3 ∨ op = 7) ∧ 56 ≤ len)
        eph := if op = 2 ∨ op = 3 ∨ op = 6 ∨ op = 7 then .load else .idle })

/-- R179: the latency table. -/
def Obligations.LatenciesFollowTheTable : Prop :=
  ∀ n : BitVec 7,
    latency 0x0 n = 1 ∧ latency 0x1 n = 1 ∧ latency 0x4 n = 1 ∧ latency 0x5 n = 1 ∧
    latency 0x2 n = 66 ∧ latency 0x6 n = 66 ∧
    latency 0x3 n = (if n.toNat ≤ 55 then 66 else 132) ∧
    latency 0x7 n = (if n.toNat ≤ 55 then 198 else 264)

/-- R49, R53, R181: from its acceptance an accepted command keeps BUSY = 1 and DONE = 0 until its latency is over,
and until then BITLEN, DIGEST, K0 and the mode flags hold what they held before it; at that edge BUSY = 0 and
DONE = 1. The host may make any accesses meanwhile. -/
def Obligations.ResultsAppearOnlyAtCompletion : Prop :=
  ∀ (w : Word) (s : State), s.served (latency (opOf w) (fieldsOf w).len) →
    rejection (opOf w) (fieldsOf w).len s = none →
    ∃ t, exec (decodeCmd w) s = .next t ∧
      (∀ k < latency (opOf w) (fieldsOf w).len, ∃ v, Host.Core.run core k t = .next v ∧
        v.busy = true ∧ v.done = false ∧ v.bitlen = s.bitlen ∧ v.digest = s.digest ∧ v.k0 = s.k0 ∧
        v.keyValid = s.keyValid ∧ v.hmacActive = s.hmacActive) ∧
      ∃ u, Host.Core.run core (latency (opOf w) (fieldsOf w).len) t = .next u ∧
        u.busy = false ∧ u.done = true

/-! ### Operand formation -/

/-- R114: the bytes of PadTail's blocks are the tail, 0x80, the stated number of 0x00 bytes and the length; one
block for n ≤ 55 and two otherwise. -/
def Obligations.PadTailLaysOutTheTail : Prop :=
  ∀ (t : List Byte) (l : BitVec 64), t.length ≤ 63 →
    (padTail t l).flatMap blockBytes =
      t ++ [0x80] ++ List.replicate (if t.length ≤ 55 then 55 - t.length else 119 - t.length) 0x00 ++ le64 l ∧
    (padTail t l).length = (if t.length ≤ 55 then 1 else 2)

/-- R133: the words of the outer tail block. -/
def Obligations.OuterTailHasTheStatedWords : Prop :=
  ∀ ih : Quad, outerTail ih =
    ⟨ih.a, ih.b, ih.c, ih.d, 0x00000080, 0, 0, 0, 0, 0, 0, 0, 0, 0, 0x00000280, 0⟩

/-- R17, R42: writing DATA[j] sets the bytes at window offsets 4j to 4j+3 to the four lanes of the word and no
other byte of the buffer. -/
def Obligations.DataWriteSetsFourByteLanes : Prop :=
  ∀ (b : Block) (j : BitVec 4) (v : Word) (p : Nat), p < 64 →
    (blockBytes (b.set j v))[p]? =
      if p / 4 = j.toNat then some (v.extractLsb' (8 * (p % 4)) 8) else (blockBytes b)[p]?

/-! ### The register window -/

/-- R46, R45, R49: a full-word read of any offset answers `reg_err` = 0 with the register's value, 0 at a reserved
offset, and a free value for CHAIN while BUSY = 1; it changes no state but the model's count of free values
(log entry 1). -/
def Obligations.ReadsReturnTheRegisterWindow : Prop :=
  ∀ (off : BitVec 12) (s : State), off.toNat % 4 = 0 →
    let a := off.toNat
    let chainRead := 0x090 ≤ a ∧ a ≤ 0x09C
    let value : Word :=
      if a = 0x000 then s.ctrl
      else if a = 0x004 then BitVec.ofNat 32 (
        (if s.hmacActive then 2 ^ 9 else 0) + (if s.keyValid then 2 ^ 8 else 0) + s.errcode.toNat * 2 ^ 4 +
        (if s.err then 2 ^ 2 else 0) + (if s.done then 2 ^ 1 else 0) + (if s.busy then 1 else 0))
      else if a = 0x008 then BitVec.ofNat 32 ((if s.errIe then 2 else 0) + (if s.doneIe then 1 else 0))
      else if a = 0x00C then BitVec.ofNat 32 s.bitlen.toNat
      else if a = 0x010 then BitVec.ofNat 32 (s.bitlen.toNat / 2 ^ 32)
      else if a = 0x014 then 0x4D443501
      else if 0x040 ≤ a ∧ a ≤ 0x07C then s.data.get (BitVec.ofNat 4 ((a - 0x040) / 4))
      else if a = 0x080 then s.digest.a
      else if a = 0x084 then s.digest.b
      else if a = 0x088 then s.digest.c
      else if a = 0x08C then s.digest.d
      else if chainRead ∧ s.busy = true then Config.freeChain s.freeCtr
      else if a = 0x090 then s.chain.a
      else if a = 0x094 then s.chain.b
      else if a = 0x098 then s.chain.c
      else if a = 0x09C then s.chain.d
      else 0
    hostEdge (BusIn.rd off) s = .next { s with
      resp := some { err := false, rdata := some value }
      freeCtr := if chainRead ∧ s.busy = true then s.freeCtr + 1 else s.freeCtr }

/-- R47, R48, R45: a full-word write answers `reg_err` = 0. Of CTRL's offset it runs the instruction the word decodes
to, which stores the word in CTRL; of any other offset it reaches the bits the rule names, and a write to a
read-only register or a reserved offset changes nothing. -/
def Obligations.WritesReachTheirRegisterAlone : Prop :=
  (∀ (v : Word) (s : State), ∃ t, exec (decodeCmd v) s = .next t ∧ t.ctrl = v ∧
    hostEdge (BusIn.wr 0x000 v) s = .next { t with resp := some { err := false, rdata := none } }) ∧
  (∀ (off : BitVec 12) (v : Word) (s : State), off.toNat % 4 = 0 → off ≠ 0 →
    let a := off.toNat
    ∃ t, hostEdge (BusIn.wr off v) s = .next t ∧ t.resp = some { err := false, rdata := none } ∧
      { t with resp := s.resp } =
        if a = 0x004 then
          { s with
            done := s.done && !v.getLsbD 1
            err := s.err && !v.getLsbD 2
            errcode := if v.getLsbD 2 then 0 else s.errcode }
        else if a = 0x008 then { s with doneIe := v.getLsbD 0, errIe := v.getLsbD 1 }
        else if 0x040 ≤ a ∧ a ≤ 0x07C then { s with data := s.data.set (BitVec.ofNat 4 ((a - 0x040) / 4)) v }
        else s)

/-- R43, R44: a misaligned access, or one with any byte enables but 0b1111, answers `reg_err` = 1, a read with
data 0, and changes no state, of CTRL's offset too. -/
def Obligations.BadAccessesChangeNothing : Prop :=
  ∀ (c : BusIn) (s : State), c.req = true → (c.addr.toNat % 4 ≠ 0 ∨ c.be ≠ 0b1111) →
    hostEdge c s = .next { s with
      resp := some { err := true, rdata := if c.we then none else some 0 } }

/-- R24, R46: the bits of the STATUS word. -/
def Obligations.StatusWordHasItsFields : Prop :=
  ∀ (s : State) (k : Nat),
    s.statusWord.getLsbD k =
      if k = 0 then s.busy
      else if k = 1 then s.done
      else if k = 2 then s.err
      else if 4 ≤ k ∧ k ≤ 7 then s.errcode.getLsbD (k - 4)
      else if k = 8 then s.keyValid
      else if k = 9 then s.hmacActive
      else false

/-- R27, R156: writing IRQ_EN clears no flag, and `irq` is at once the OR of the pending flags now enabled. -/
def Obligations.EnablingAPendingSourceRaisesIrq : Prop :=
  ∀ (v : Word) (s : State), ∃ t, hostEdge (BusIn.wr 0x008 v) s = .next t ∧
    t.done = s.done ∧ t.err = s.err ∧
    (t.irq = true ↔ (s.done = true ∧ v.getLsbD 0 = true) ∨ (s.err = true ∧ v.getLsbD 1 = true))

/-- R18, R19, R158: no read of the window depends on the key, the inner hash, the working registers, M or the
latches. -/
def Obligations.TheKeyIsNotReadable : Prop :=
  ∀ (off : BitVec 12) (s : State) (k m dl : Block) (ih w dgl : Quad),
    State.busRead off { s with k0 := k, ihash := ih, work := w, m := m, dl := dl, dgl := dgl } =
      s.busRead off

/-! ### One clock cycle -/

/-- R47, R150, R174 put the access, the engine and the controller at one edge; that the access comes first, the engine
next and the controller last is the model's choice of log entry 10, and the list of the host's cycles that of log
entry 4: the step in which the host writes CTRL runs the instruction its word decodes to, at the state
whose list of host cycles has moved on, answers the access, and then does what the engine and the controller do in
that cycle; while the block is idle that is nothing. -/
def Obligations.StepRunsTheWrittenCommand : Prop :=
  ∀ (w : Word) (rest : List BusIn) (s : State), s.host = BusIn.wr 0x000 w :: rest →
    ∃ t, exec (decodeCmd w) { s with host := rest } = .next t ∧
      step s = andThen (engineEdge s.microOp { t with resp := some { err := false, rdata := none } })
        (fun u => .next (controllerEdge s.lastCycle u)) ∧
      (s.cph = .idle → s.eph = .idle →
        step s = .next { t with resp := some { err := false, rdata := none } })

/-- R65, R174, R175, R178, with the order of log entry 10 and the list of the host's cycles of log entry 4, both the
model's choice: the step of a cycle without an access runs the micro-operation that the phase and the
round index decode to, followed, in the last cycle of a command, by its completion writes; it stops exactly where
the micro-operation stops. -/
def Obligations.StepRunsTheMicroOperation : Prop :=
  ∀ (s : State) (i : Instr), s.busIn.rstN = true → s.busIn.req = false → s.eph ≠ .idle →
    decode (if s.eph = .round then .round s.rnd else .eph s.eph) = .ok i →
    (∀ t, exec i { s with host := s.host.tail, resp := none } = .next t →
      step s = .next (if s.lastCycle then finish t else t)) ∧
    (∀ e, exec i { s with host := s.host.tail, resp := none } = .fault e → step s = .fault e)

/-- R164: when the block is idle and the host makes no access, no state changes. -/
def Obligations.IdleBlockKeepsItsState : Prop :=
  ∀ s : State, Inv s → s.busy = false → s.busIn.rstN = true → s.busIn.req = false →
    step s = .next { s with host := s.host.tail, resp := none }

/-- R57, R170, R171: an edge with `rst_n` = 0 in any state, a command running or not: every state element takes its
reset value, which are the table's; no access is served, no DONE and no error remains. The model's own fields stay:
what the host drives next, and the count of free values (log entries 1 and 4). -/
def Obligations.ResetOverwritesEverything : Prop :=
  (∀ s : State, s.busIn.rstN = false →
    step s = .next { State.reset with host := s.host.tail, freeCtr := s.freeCtr }) ∧
  (let s := State.reset;
    s.chain = ⟨0x67452301, 0xEFCDAB89, 0x98BADCFE, 0x10325476⟩ ∧ s.work = ⟨0, 0, 0, 0⟩ ∧ s.rnd = 0 ∧
    s.eph = .idle ∧ (∀ j, s.m.get j = 0) ∧ (∀ j, s.data.get j = 0) ∧ (∀ j, s.k0.get j = 0) ∧
    s.ihash = ⟨0, 0, 0, 0⟩ ∧ s.bitlen = 0 ∧ s.digest = ⟨0, 0, 0, 0⟩ ∧ s.keyValid = false ∧
    s.hmacActive = false ∧ s.ctrl = 0 ∧ s.busy = false ∧ s.done = false ∧ s.err = false ∧ s.errcode = 0 ∧
    s.statusWord = 0 ∧ s.irqEnWord = 0 ∧ s.irq = false ∧
    s.cph = .idle ∧ s.opL = 0 ∧ s.nL = 0 ∧ s.jobIdx = 0 ∧ s.padStage = false ∧ (∀ j, s.dl.get j = 0) ∧
    s.dgl = ⟨0, 0, 0, 0⟩ ∧ s.resp = none)

/-- R58, R178: in the last cycle of a command the hardware set of DONE wins over a host write that clears it. -/
def Obligations.CompletionWinsOverTheHostsClear : Prop :=
  ∀ (v : Word) (s : State), Inv s → s.lastCycle = true → s.busIn = BusIn.wr 0x004 v →
    ∃ t, step s = .next t ∧ t.busy = false ∧ t.done = true ∧ t.err = (s.err && !v.getLsbD 2)

/-- R154: ERR, once set, stays set through every cycle but a reset or a STATUS write with bit 2 = 1, which clears it
with ERRCODE; a further rejection overwrites ERRCODE, an accepted command does not touch it, and neither field takes
part in the checks of a later command. -/
def Obligations.ErrIsSticky : Prop :=
  ∀ s t : State, s.err = true → s.busIn.rstN = true → step s = .next t →
    ((∀ v, s.busIn.access = .write 0x004 v → v.getLsbD 2 = false) → t.err = true) ∧
    (∀ v, s.busIn.access = .write 0x004 v → v.getLsbD 2 = true → t.err = false ∧ t.errcode = 0) ∧
    (∀ v c, s.busIn.access = .command v → rejection (opOf v) (fieldsOf v).len s = some c →
      t.errcode = c.code) ∧
    ((∀ v, s.busIn.access = .write 0x004 v → v.getLsbD 2 = false) →
      (∀ v, s.busIn.access = .command v → rejection (opOf v) (fieldsOf v).len s = none) →
      t.errcode = s.errcode) ∧
    (∀ op n e c, rejection op n { s with err := e, errcode := c } = rejection op n s)

/-! ### Rules of the whole machine -/

/-- R11 to R15, R17 to R26, R28, R29, R94, R154: in a state of the invariant, at every edge with `rst_n` = 1, each
register of the block changes only where a rule names its writer. When the padding stage of R28 changes is the model's
choice of log entry 7, and that the latches, IHASH, the job index and the engine's registers keep their values between
commands that of log entry 9. The ports of the model (log entries 1, 4, 5) are no registers of the block. -/
def Obligations.RegistersHaveOnlyTheirWriters : Prop :=
  ∀ s t : State, Inv s → s.busIn.rstN = true → step s = .next t →
    let written (off : BitVec 12) (v : Word) := s.busIn.access = .write off v
    let accepted (v : Word) := s.busIn.access = .command v ∧ rejection (opOf v) (fieldsOf v).len s = none
    let rejected (v : Word) (c : CmdError) :=
      s.busIn.access = .command v ∧ rejection (opOf v) (fieldsOf v).len s = some c
    (t.digest ≠ s.digest → s.lastCycle = true ∧ (s.opL = 3 ∨ s.opL = 7)) ∧
    (t.bitlen ≠ s.bitlen → s.lastCycle = true ∧
      (s.opL = 1 ∨ s.opL = 2 ∨ s.opL = 3 ∨ s.opL = 6 ∨ s.opL = 7)) ∧
    (t.k0 ≠ s.k0 → s.lastCycle = true ∧ (s.opL = 4 ∨ s.opL = 5 ∨ s.opL = 7)) ∧
    (t.keyValid ≠ s.keyValid → s.lastCycle = true ∧ (s.opL = 4 ∨ s.opL = 5 ∨ s.opL = 7)) ∧
    (t.hmacActive ≠ s.hmacActive → s.lastCycle = true ∧ (s.opL = 1 ∨ s.opL = 6 ∨ s.opL = 7)) ∧
    (t.chain ≠ s.chain → s.eph = .load ∨ s.eph = .add ∨ (s.lastCycle = true ∧ s.opL = 1)) ∧
    (t.m ≠ s.m → s.eph = .load) ∧
    (t.work ≠ s.work → s.eph = .load ∨ s.eph = .round) ∧
    (t.rnd ≠ s.rnd → s.eph = .load ∨ s.eph = .round) ∧
    (t.ihash ≠ s.ihash → s.eph = .add ∧ ∃ j, s.currentJob = some j ∧ j.save = true) ∧
    (t.eph ≠ s.eph → s.eph ≠ .idle ∨ ∃ v, accepted v) ∧
    (t.jobIdx ≠ s.jobIdx → s.eph = .add ∨ ∃ v, accepted v) ∧
    (t.padStage ≠ s.padStage → s.eph = .add ∨ ∃ v, accepted v) ∧
    (t.cph ≠ s.cph → (s.lastCycle = true ∧ t.cph = .idle) ∨ ∃ v, accepted v ∧ t.cph = .run) ∧
    (t.busy ≠ s.busy → (s.lastCycle = true ∧ t.busy = false) ∨ ∃ v, accepted v ∧ t.busy = true) ∧
    (t.dl ≠ s.dl → ∃ v, accepted v ∧ t.dl = s.data) ∧
    (t.dgl ≠ s.dgl → ∃ v, accepted v ∧ t.dgl = s.digest) ∧
    (t.opL ≠ s.opL → ∃ v, accepted v ∧ t.opL = opOf v) ∧
    (t.nL ≠ s.nL → ∃ v, accepted v ∧ t.nL = (fieldsOf v).len) ∧
    (t.data ≠ s.data → ∃ off v, written off v ∧ 0x040 ≤ off.toNat ∧ off.toNat ≤ 0x07C ∧
      t.data = s.data.set (BitVec.ofNat 4 ((off.toNat - 0x040) / 4)) v) ∧
    (t.ctrl ≠ s.ctrl → ∃ v, s.busIn.access = .command v ∧ t.ctrl = v) ∧
    (t.doneIe ≠ s.doneIe → ∃ v, written 0x008 v ∧ t.doneIe = v.getLsbD 0) ∧
    (t.errIe ≠ s.errIe → ∃ v, written 0x008 v ∧ t.errIe = v.getLsbD 1) ∧
    (t.done ≠ s.done → (s.lastCycle = true ∧ t.done = true) ∨
      ((∃ v, accepted v) ∨ ∃ v, written 0x004 v ∧ v.getLsbD 1 = true) ∧ t.done = false) ∧
    (t.err ≠ s.err → ((∃ v c, rejected v c) ∧ t.err = true) ∨
      (∃ v, written 0x004 v ∧ v.getLsbD 2 = true) ∧ t.err = false) ∧
    (t.errcode ≠ s.errcode → (∃ v c, rejected v c ∧ t.errcode = c.code) ∨
      (∃ v, written 0x004 v ∧ v.getLsbD 2 = true) ∧ t.errcode = 0)

/-- The invariant of Sys2Proof/Safety.lean holds at reset, with its clause on the padding stage (Inv.pad_stage, log
entry 7, the model's choice). -/
def Obligations.ResetMeetsTheInvariant : Prop := Inv State.reset

/-- R137, R24, R151, R175 to R177: every clock edge, a reset among them, keeps the invariant: HMAC_ACTIVE implies
KEY_VALID, no key leaves K0 zero, ERRCODE is legal and 0 without ERR, BUSY is RUN, the engine works on a job of
the running command, a running command is one that was accepted. The clause on the padding stage (Inv.pad_stage: 1
exactly while a job that compresses the second padding block is still to come) is the model's choice of log entry 7;
R28 says only what the stage tells. -/
def Obligations.StepKeepsTheInvariant : Prop :=
  ∀ s t : State, Inv s → step s = .next t → Inv t

/-- R157, section 2 of 93_implementation_defined.md ("No state of the block fails to make progress"): from a
state of the invariant no step stops, whatever the host presents. -/
def Obligations.NoStepStops : Prop := ∀ s : State, Inv s → Safe s

/-- R55, R94, R186: while a command runs, what the host does reaches nothing internal: two runs whose internal
parts agree go on agreeing, whatever accesses the host makes in either, as long as the command runs. -/
def Obligations.HostCannotDisturbARunningCommand : Prop :=
  ∀ (k : Nat) (s s' u : State), s.internals = s'.internals → s.served k → s'.served k →
    (∀ j < k, ∀ v, Host.Core.run core j s = .next v → v.busy = true) →
    Host.Core.run core k s = .next u →
    ∃ u', Host.Core.run core k s' = .next u' ∧ u'.internals = u.internals

/-- R179, R180, with the nominal latencies (log entry 8, the model's choice): every running command completes: within
264 cycles without a reset BUSY = 0. -/
def Obligations.EveryCommandCompletes : Prop :=
  ∀ s : State, Inv s → s.served 264 →
    ∃ k ≤ 264, ∃ u, Host.Core.run core k s = .next u ∧ u.busy = false

/-! ### Host programs -/

/-- R115 with the expansion `MD5 msg` of R69: from any idle state with HMAC_ACTIVE = 0, for every byte sequence, a host
that carries the program out leaves, when the program is over, the document's digest in DIGEST and in what it read, and
8N mod 2^64 in BITLEN. WAIT polls STATUS until its bit 0 is 0; in which cycles the host presents an access is any
`sched` (log entry 11, the model's choice). -/
def Obligations.Md5SequenceComputesTheDigest : Prop :=
  ∀ (m : List Byte) (sched : List Bool) (s : State), Inv s → s.busy = false → s.hmacActive = false →
    ∃ h, HostRun.drive sched { prog := md5Ops m, reads := [], st := s } = .next h ∧
      (h.prog = [] →
        h.reads = [(digestOf m).a, (digestOf m).b, (digestOf m).c, (digestOf m).d] ∧
        h.st.digest = digestOf m ∧ h.st.chain = digestOf m ∧ h.st.bitlen = BitVec.ofNat 64 (8 * m.length) ∧
        h.st.busy = false ∧ h.st.done = true ∧ h.st.err = s.err ∧ h.st.errcode = s.errcode ∧
        h.st.host = s.host)

/-- R136 with the expansion `HMAC key, msg` of R69: from any idle state with HMAC_ACTIVE = 0, for every key and every
message, a host that carries the program out leaves, when the program is over, the document's MAC in DIGEST and in the
last four words it read, after those of the key's digest for a key of more than 64 bytes, and the key is discarded.
WAIT and `sched` are as in Md5SequenceComputesTheDigest (log entry 11, the model's choice). -/
def Obligations.HmacSequenceComputesTheMac : Prop :=
  ∀ (key m : List Byte) (sched : List Bool) (s : State), Inv s → s.busy = false → s.hmacActive = false →
    ∃ h, HostRun.drive sched { prog := hmacOps key m, reads := [], st := s } = .next h ∧
      (h.prog = [] →
        h.reads = (if key.length ≤ 64 then []
            else [(digestOf key).a, (digestOf key).b, (digestOf key).c, (digestOf key).d]) ++
          [(hmacOf key m).a, (hmacOf key m).b, (hmacOf key m).c, (hmacOf key m).d] ∧
        h.st.digest = hmacOf key m ∧ h.st.keyValid = false ∧ h.st.hmacActive = false ∧ h.st.k0 = Block.zero ∧
        h.st.busy = false ∧ h.st.done = true ∧ h.st.err = s.err ∧ h.st.errcode = s.errcode ∧
        h.st.host = s.host)

/-- R69 (WAIT "terminates only if the running command completes"), with the nominal latencies of R179 (log entry 8) and
the host of log entry 11, both the model's choice: from any state of the invariant, a command running or not, every
host program is over, without a stop, once the host has been ready in 265 cycles for each of its operations. -/
def Obligations.HostProgramsEnd : Prop :=
  ∀ (ops : List HostOp) (sched : List Bool) (s : State), Inv s → 265 * ops.length ≤ sched.count true →
    ∃ h, HostRun.drive sched { prog := ops, reads := [], st := s } = .next h ∧ h.prog = []

/-- R69, R55: "a `LOADBLK` that follows a `WAIT` may be moved before that `WAIT`, with the same result": from any state
of the invariant, a command running or not, and for any cycles in which the host is ready (log entry 11, the model's
choice), the two programs end in the same state but for the answer on the ports. -/
def Obligations.LoadBlkMayPrecedeWait : Prop :=
  ∀ (p : List Byte) (sched sched' : List Bool) (s : State) (h h' : HostRun), Inv s →
    HostRun.drive sched { prog := .wait :: loadBlk p, reads := [], st := s } = .next h → h.prog = [] →
    HostRun.drive sched' { prog := loadBlk p ++ [.wait], reads := [], st := s } = .next h' → h'.prog = [] →
    h.reads = h'.reads ∧ h'.st = { h.st with resp := h'.st.resp }

/-! ### The engine over all steps -/

/-- R175, with R12, R13, R15, R94 and what R90 to R92 and R177 give each phase: in a state of the invariant, at every
edge with `rst_n` = 1, whatever the host presents, what the working registers, rnd, M and eph become. With `eph` = IDLE
or ADD the working registers, rnd and M keep their values (between commands that is log entry 9). -/
def Obligations.EngineRegistersFollowThePhase : Prop :=
  ∀ s t : State, Inv s → s.busIn.rstN = true → step s = .next t →
    match s.eph with
    | .idle => t.work = s.work ∧ t.rnd = s.rnd ∧ t.m = s.m ∧ (t.eph = .idle ∨ t.eph = .load) ∧
        (t.eph = .load ↔ ∃ v, s.busIn.access = .command v ∧ rejection (opOf v) (fieldsOf v).len s = none ∧
          jobList (opOf v) (fieldsOf v).len ≠ [])
    | .load => ∃ j, s.currentJob = some j ∧ t.work = s.baseChain j.base ∧ t.rnd = 0 ∧ t.m = s.jobBlock j.src ∧
        t.eph = .round
    | .round => t.work = roundFn s.rnd s.work s.m ∧ t.rnd = (if s.rnd.toNat < 63 then s.rnd + 1 else s.rnd) ∧
        t.m = s.m ∧ t.eph = (if s.rnd.toNat < 63 then .round else .add)
    | .add => t.work = s.work ∧ t.rnd = s.rnd ∧ t.m = s.m ∧ t.eph = (if s.furtherJob then .load else .idle)
end

