-- ==== Sys2Proof/Laws/Bytes.lean ====
section
/-! SUPPORT. The byte order of words and blocks: reading back what was written, and the two directions between a
block and its 64 bytes (R17, R42, R93, R114). -/

namespace Sys2Proof.Machine

/-- A property of the sixteen indices, checked one by one. -/
theorem forall_index {p : BitVec 4 → Prop}
    (h0 : p 0) (h1 : p 1) (h2 : p 2) (h3 : p 3) (h4 : p 4) (h5 : p 5) (h6 : p 6) (h7 : p 7)
    (h8 : p 8) (h9 : p 9) (h10 : p 10) (h11 : p 11) (h12 : p 12) (h13 : p 13) (h14 : p 14) (h15 : p 15)
    (j : BitVec 4) : p j := by
  obtain ⟨⟨n, hn⟩⟩ := j
  have : n < 16 := hn
  interval_cases n <;> assumption

@[simp] theorem Block.get_ofFn (f : BitVec 4 → Word) (j : BitVec 4) : (Block.ofFn f).get j = f j := by
  revert j; apply forall_index <;> rfl

theorem Block.ext_get {b c : Block} (h : ∀ j, b.get j = c.get j) : b = c := by
  obtain ⟨⟩ := b
  obtain ⟨⟩ := c
  exact Block.mk.injEq .. ▸ ⟨h 0, h 1, h 2, h 3, h 4, h 5, h 6, h 7, h 8, h 9, h 10, h 11, h 12, h 13,
    h 14, h 15⟩

@[simp] theorem Block.get_map (f : Word → Word) (b : Block) (j : BitVec 4) : (b.map f).get j = f (b.get j) := by
  revert j; apply forall_index <;> rfl

@[simp] theorem Block.get_set_self (b : Block) (j : BitVec 4) (v : Word) : (b.set j v).get j = v := by
  revert j; apply forall_index <;> rfl

theorem Block.get_set_ne (b : Block) {i j : BitVec 4} (v : Word) (h : i ≠ j) :
    (b.set i v).get j = b.get j := by
  revert h; revert j; revert i
  apply forall_index <;> apply forall_index <;> intro h <;> first | rfl | exact absurd rfl h

/-- R42: byte lane `k` of a word built from four bytes is byte `k`. -/
@[simp] theorem wordBytes_le32 (b0 b1 b2 b3 : Byte) : wordBytes (le32 b0 b1 b2 b3) = [b0, b1, b2, b3] := by
  simp only [wordBytes, le32, List.cons.injEq, and_true]
  refine ⟨?_, ?_, ?_, ?_⟩ <;> apply BitVec.eq_of_getLsbD_eq <;> intro i hi <;>
    simp only [BitVec.getLsbD_extractLsb', BitVec.getLsbD_append, hi] <;> interval_cases i <;> rfl

/-- R6: LE32 of the four lanes of a word is the word. -/
@[simp] theorem le32_wordBytes (w : Word) :
    le32 (w.extractLsb' 0 8) (w.extractLsb' 8 8) (w.extractLsb' 16 8) (w.extractLsb' 24 8) = w := by
  apply BitVec.eq_of_getLsbD_eq
  intro i hi
  simp only [le32, BitVec.getLsbD_extractLsb', BitVec.getLsbD_append]
  interval_cases i <;> rfl

@[simp] theorem wordBytes_length (w : Word) : (wordBytes w).length = 4 := rfl

@[simp] theorem quadBytes_length (q : Quad) : (quadBytes q).length = 16 := rfl

@[simp] theorem le64_length (v : BitVec 64) : (le64 v).length = 8 := rfl

/-- R17: a block has 64 bytes. -/
@[simp] theorem blockBytes_length (b : Block) : (blockBytes b).length = 64 := by
  simp [blockBytes, wordBytes]

/-- R93: the words of a block's bytes are the block. -/
@[simp] theorem words_blockBytes (b : Block) : words (blockBytes b) = b := by
  obtain ⟨w0, w1, w2, w3, w4, w5, w6, w7, w8, w9, w10, w11, w12, w13, w14, w15⟩ := b
  simp only [blockBytes, wordBytes, List.cons_append, List.nil_append]
  simp [words, Block.ofFn]

/-- R114: the bytes of `Words(p)` are `p`, for the 64 bytes of a block. -/
theorem blockBytes_words (p : List Byte) (h : p.length = 64) : blockBytes (words p) = p := by
  have hw : blockBytes (words p) = (List.range 64).map fun i => p.getD i 0 := by
    simp only [words, Block.ofFn, blockBytes, wordBytes_le32]
    simp only [List.range, List.range.loop, List.map, List.cons_append, List.nil_append]
    rfl
  rw [hw]
  apply List.ext_getElem
  · simp [h]
  · intro i h1 h2
    simp [List.getD_eq_getElem?_getD, List.getElem?_eq_getElem h2]

end Sys2Proof.Machine
end

