-- ==== Sys2Proof/Laws/Codes.lean ====
section
/-! SUPPORT. The fields of the two encodings read back what was put in, and what the decoded instruction of a
command word or of a round index does (R60, R62, R65). -/

namespace Sys2Proof

@[simp] theorem opOf_cmdWord (op : BitVec 4) (f : CmdFields) : opOf (cmdWord op f) = op := by
  apply BitVec.eq_of_getLsbD_eq
  intro i hi
  simp only [opOf, cmdWord, BitVec.getLsbD_extractLsb', BitVec.getLsbD_append, hi]
  interval_cases i <;> rfl

@[simp] theorem fieldsOf_cmdWord (op : BitVec 4) (f : CmdFields) : fieldsOf (cmdWord op f) = f := by
  obtain ⟨len, lo, hi⟩ := f
  simp only [fieldsOf, cmdWord, CmdFields.mk.injEq]
  refine ⟨?_, ?_, ?_⟩ <;> apply BitVec.eq_of_getLsbD_eq <;> intro i h <;>
    simp only [BitVec.getLsbD_extractLsb', BitVec.getLsbD_append, h] <;> interval_cases i <;> rfl

@[simp] theorem cmdWord_fieldsOf (w : Word) : cmdWord (opOf w) (fieldsOf w) = w := by
  apply BitVec.eq_of_getLsbD_eq
  intro i hi
  simp only [opOf, fieldsOf, cmdWord, BitVec.getLsbD_extractLsb', BitVec.getLsbD_append]
  interval_cases i <;> rfl

@[simp] theorem quarterOf_roundIndex (q : BitVec 2) (r : BitVec 4) : quarterOf (roundIndex q r) = q := by
  revert q r; decide

@[simp] theorem low_roundIndex (q : BitVec 2) (r : BitVec 4) : (roundIndex q r).extractLsb' 0 4 = r := by
  revert q r; decide

@[simp] theorem roundIndex_parts (i : BitVec 6) : roundIndex (quarterOf i) (i.extractLsb' 0 4) = i := by
  revert i; decide

namespace Machine

/-- A property of the sixteen opcodes that holds of each of the eight commands and of the illegal range. -/
theorem decodeCmd_cases (w : Word) :
    (opOf w = 0x0 ∧ decodeCmd w = .nop (fieldsOf w)) ∨
    (opOf w = 0x1 ∧ decodeCmd w = .md5Init (fieldsOf w)) ∨
    (opOf w = 0x2 ∧ decodeCmd w = .md5Update (fieldsOf w)) ∨
    (opOf w = 0x3 ∧ decodeCmd w = .md5Final (fieldsOf w)) ∨
    (opOf w = 0x4 ∧ decodeCmd w = .hmacSetkey (fieldsOf w)) ∨
    (opOf w = 0x5 ∧ decodeCmd w = .hmacSetkeyDigest (fieldsOf w)) ∨
    (opOf w = 0x6 ∧ decodeCmd w = .hmacInit (fieldsOf w)) ∨
    (opOf w = 0x7 ∧ decodeCmd w = .hmacFinal (fieldsOf w)) ∨
    (8 ≤ (opOf w).toNat ∧ decodeCmd w = .illegalOp (opOf w) (fieldsOf w)) := by
  unfold decodeCmd
  generalize opOf w = op
  generalize fieldsOf w = f
  revert op
  apply forall_op <;> simp
where
  forall_op {p : BitVec 4 → Prop}
      (h0 : p 0) (h1 : p 1) (h2 : p 2) (h3 : p 3) (h4 : p 4) (h5 : p 5) (h6 : p 6) (h7 : p 7)
      (h8 : p 8) (h9 : p 9) (h10 : p 10) (h11 : p 11) (h12 : p 12) (h13 : p 13) (h14 : p 14) (h15 : p 15)
      (j : BitVec 4) : p j := by
    obtain ⟨⟨n, hn⟩⟩ := j
    have : n < 16 := hn
    interval_cases n <;> assumption

/-- R47, R150: running the instruction a command word decodes to is issuing that word. -/
theorem exec_decodeCmd (w : Word) (s : State) :
    exec (decodeCmd w) s = .next (s.issue w (opOf w) (fieldsOf w).len) := by
  have h := cmdWord_fieldsOf w
  rcases decodeCmd_cases w with ⟨ho, hd⟩ | ⟨ho, hd⟩ | ⟨ho, hd⟩ | ⟨ho, hd⟩ | ⟨ho, hd⟩ | ⟨ho, hd⟩ |
    ⟨ho, hd⟩ | ⟨ho, hd⟩ | ⟨ho, hd⟩ <;> rw [hd] <;> (try rw [ho] at h ⊢) <;>
    simp only [exec, execNop, execMd5Init, execMd5Update, execMd5Final, execHmacSetkey,
      execHmacSetkeyDigest, execHmacInit, execHmacFinal, execIllegalOp, h]

/-- R83, R90: running the round of index `i`. -/
theorem exec_decodeRound (i : BitVec 6) (s : State) :
    exec (decodeRound i) s = .next (s.doRound (phi (quarterOf i)) i) := by
  have h := roundIndex_parts i
  unfold decodeRound phi
  generalize quarterOf i = q at h ⊢
  obtain ⟨⟨n, hn⟩⟩ := q
  have : n < 4 := hn
  interval_cases n <;> simp only [exec, execRoundF, execRoundG, execRoundH, execRoundI] <;>
    exact congrArg (fun k => Host.Outcome.next (State.doRound _ k s)) h

end Machine

end Sys2Proof
end

