-- ==== Sys2Proof/Laws/State.lean ====
section
/-! SUPPORT. One lemma per field per update of the state, each true by rfl, so that no later proof unfolds a
record update. -/

namespace Sys2Proof.Machine

/-! ### raiseCmdError -/

@[simp] theorem State.raiseCmdError_chain (c : CmdError) (s : State) :
    (s.raiseCmdError c).chain = s.chain := rfl
@[simp] theorem State.raiseCmdError_work (c : CmdError) (s : State) :
    (s.raiseCmdError c).work = s.work := rfl
@[simp] theorem State.raiseCmdError_rnd (c : CmdError) (s : State) :
    (s.raiseCmdError c).rnd = s.rnd := rfl
@[simp] theorem State.raiseCmdError_eph (c : CmdError) (s : State) :
    (s.raiseCmdError c).eph = s.eph := rfl
@[simp] theorem State.raiseCmdError_m (c : CmdError) (s : State) :
    (s.raiseCmdError c).m = s.m := rfl
@[simp] theorem State.raiseCmdError_data (c : CmdError) (s : State) :
    (s.raiseCmdError c).data = s.data := rfl
@[simp] theorem State.raiseCmdError_k0 (c : CmdError) (s : State) :
    (s.raiseCmdError c).k0 = s.k0 := rfl
@[simp] theorem State.raiseCmdError_ihash (c : CmdError) (s : State) :
    (s.raiseCmdError c).ihash = s.ihash := rfl
@[simp] theorem State.raiseCmdError_bitlen (c : CmdError) (s : State) :
    (s.raiseCmdError c).bitlen = s.bitlen := rfl
@[simp] theorem State.raiseCmdError_digest (c : CmdError) (s : State) :
    (s.raiseCmdError c).digest = s.digest := rfl
@[simp] theorem State.raiseCmdError_keyValid (c : CmdError) (s : State) :
    (s.raiseCmdError c).keyValid = s.keyValid := rfl
@[simp] theorem State.raiseCmdError_hmacActive (c : CmdError) (s : State) :
    (s.raiseCmdError c).hmacActive = s.hmacActive := rfl
@[simp] theorem State.raiseCmdError_ctrl (c : CmdError) (s : State) :
    (s.raiseCmdError c).ctrl = s.ctrl := rfl
@[simp] theorem State.raiseCmdError_busy (c : CmdError) (s : State) :
    (s.raiseCmdError c).busy = s.busy := rfl
@[simp] theorem State.raiseCmdError_done (c : CmdError) (s : State) :
    (s.raiseCmdError c).done = s.done := rfl
@[simp] theorem State.raiseCmdError_err (c : CmdError) (s : State) :
    (s.raiseCmdError c).err = true := rfl
@[simp] theorem State.raiseCmdError_errcode (c : CmdError) (s : State) :
    (s.raiseCmdError c).errcode = c.code := rfl
@[simp] theorem State.raiseCmdError_doneIe (c : CmdError) (s : State) :
    (s.raiseCmdError c).doneIe = s.doneIe := rfl
@[simp] theorem State.raiseCmdError_errIe (c : CmdError) (s : State) :
    (s.raiseCmdError c).errIe = s.errIe := rfl
@[simp] theorem State.raiseCmdError_cph (c : CmdError) (s : State) :
    (s.raiseCmdError c).cph = s.cph := rfl
@[simp] theorem State.raiseCmdError_opL (c : CmdError) (s : State) :
    (s.raiseCmdError c).opL = s.opL := rfl
@[simp] theorem State.raiseCmdError_nL (c : CmdError) (s : State) :
    (s.raiseCmdError c).nL = s.nL := rfl
@[simp] theorem State.raiseCmdError_jobIdx (c : CmdError) (s : State) :
    (s.raiseCmdError c).jobIdx = s.jobIdx := rfl
@[simp] theorem State.raiseCmdError_padStage (c : CmdError) (s : State) :
    (s.raiseCmdError c).padStage = s.padStage := rfl
@[simp] theorem State.raiseCmdError_dl (c : CmdError) (s : State) :
    (s.raiseCmdError c).dl = s.dl := rfl
@[simp] theorem State.raiseCmdError_dgl (c : CmdError) (s : State) :
    (s.raiseCmdError c).dgl = s.dgl := rfl
@[simp] theorem State.raiseCmdError_host (c : CmdError) (s : State) :
    (s.raiseCmdError c).host = s.host := rfl
@[simp] theorem State.raiseCmdError_resp (c : CmdError) (s : State) :
    (s.raiseCmdError c).resp = s.resp := rfl
@[simp] theorem State.raiseCmdError_freeCtr (c : CmdError) (s : State) :
    (s.raiseCmdError c).freeCtr = s.freeCtr := rfl

/-! ### accept -/

@[simp] theorem State.accept_chain (op : BitVec 4) (len : BitVec 7) (s : State) :
    (s.accept op len).chain = s.chain := rfl
@[simp] theorem State.accept_work (op : BitVec 4) (len : BitVec 7) (s : State) :
    (s.accept op len).work = s.work := rfl
@[simp] theorem State.accept_rnd (op : BitVec 4) (len : BitVec 7) (s : State) :
    (s.accept op len).rnd = s.rnd := rfl
@[simp] theorem State.accept_eph (op : BitVec 4) (len : BitVec 7) (s : State) :
    (s.accept op len).eph = (if jobList op len = [] then .idle else .load) := rfl
@[simp] theorem State.accept_m (op : BitVec 4) (len : BitVec 7) (s : State) :
    (s.accept op len).m = s.m := rfl
@[simp] theorem State.accept_data (op : BitVec 4) (len : BitVec 7) (s : State) :
    (s.accept op len).data = s.data := rfl
@[simp] theorem State.accept_k0 (op : BitVec 4) (len : BitVec 7) (s : State) :
    (s.accept op len).k0 = s.k0 := rfl
@[simp] theorem State.accept_ihash (op : BitVec 4) (len : BitVec 7) (s : State) :
    (s.accept op len).ihash = s.ihash := rfl
@[simp] theorem State.accept_bitlen (op : BitVec 4) (len : BitVec 7) (s : State) :
    (s.accept op len).bitlen = s.bitlen := rfl
@[simp] theorem State.accept_digest (op : BitVec 4) (len : BitVec 7) (s : State) :
    (s.accept op len).digest = s.digest := rfl
@[simp] theorem State.accept_keyValid (op : BitVec 4) (len : BitVec 7) (s : State) :
    (s.accept op len).keyValid = s.keyValid := rfl
@[simp] theorem State.accept_hmacActive (op : BitVec 4) (len : BitVec 7) (s : State) :
    (s.accept op len).hmacActive = s.hmacActive := rfl
@[simp] theorem State.accept_ctrl (op : BitVec 4) (len : BitVec 7) (s : State) :
    (s.accept op len).ctrl = s.ctrl := rfl
@[simp] theorem State.accept_busy (op : BitVec 4) (len : BitVec 7) (s : State) :
    (s.accept op len).busy = true := rfl
@[simp] theorem State.accept_done (op : BitVec 4) (len : BitVec 7) (s : State) :
    (s.accept op len).done = false := rfl
@[simp] theorem State.accept_err (op : BitVec 4) (len : BitVec 7) (s : State) :
    (s.accept op len).err = s.err := rfl
@[simp] theorem State.accept_errcode (op : BitVec 4) (len : BitVec 7) (s : State) :
    (s.accept op len).errcode = s.errcode := rfl
@[simp] theorem State.accept_doneIe (op : BitVec 4) (len : BitVec 7) (s : State) :
    (s.accept op len).doneIe = s.doneIe := rfl
@[simp] theorem State.accept_errIe (op : BitVec 4) (len : BitVec 7) (s : State) :
    (s.accept op len).errIe = s.errIe := rfl
@[simp] theorem State.accept_cph (op : BitVec 4) (len : BitVec 7) (s : State) :
    (s.accept op len).cph = .run := rfl
@[simp] theorem State.accept_opL (op : BitVec 4) (len : BitVec 7) (s : State) :
    (s.accept op len).opL = op := rfl
@[simp] theorem State.accept_nL (op : BitVec 4) (len : BitVec 7) (s : State) :
    (s.accept op len).nL = len := rfl
@[simp] theorem State.accept_jobIdx (op : BitVec 4) (len : BitVec 7) (s : State) :
    (s.accept op len).jobIdx = 0 := rfl
@[simp] theorem State.accept_padStage (op : BitVec 4) (len : BitVec 7) (s : State) :
    (s.accept op len).padStage = ((jobList op len).any (·.src == .p2)) := rfl
@[simp] theorem State.accept_dl (op : BitVec 4) (len : BitVec 7) (s : State) :
    (s.accept op len).dl = s.data := rfl
@[simp] theorem State.accept_dgl (op : BitVec 4) (len : BitVec 7) (s : State) :
    (s.accept op len).dgl = s.digest := rfl
@[simp] theorem State.accept_host (op : BitVec 4) (len : BitVec 7) (s : State) :
    (s.accept op len).host = s.host := rfl
@[simp] theorem State.accept_resp (op : BitVec 4) (len : BitVec 7) (s : State) :
    (s.accept op len).resp = s.resp := rfl
@[simp] theorem State.accept_freeCtr (op : BitVec 4) (len : BitVec 7) (s : State) :
    (s.accept op len).freeCtr = s.freeCtr := rfl

/-! ### complete -/

@[simp] theorem State.complete_chain (s : State) :
    (s.complete).chain = s.chain := rfl
@[simp] theorem State.complete_work (s : State) :
    (s.complete).work = s.work := rfl
@[simp] theorem State.complete_rnd (s : State) :
    (s.complete).rnd = s.rnd := rfl
@[simp] theorem State.complete_eph (s : State) :
    (s.complete).eph = s.eph := rfl
@[simp] theorem State.complete_m (s : State) :
    (s.complete).m = s.m := rfl
@[simp] theorem State.complete_data (s : State) :
    (s.complete).data = s.data := rfl
@[simp] theorem State.complete_k0 (s : State) :
    (s.complete).k0 = s.k0 := rfl
@[simp] theorem State.complete_ihash (s : State) :
    (s.complete).ihash = s.ihash := rfl
@[simp] theorem State.complete_bitlen (s : State) :
    (s.complete).bitlen = s.bitlen := rfl
@[simp] theorem State.complete_digest (s : State) :
    (s.complete).digest = s.digest := rfl
@[simp] theorem State.complete_keyValid (s : State) :
    (s.complete).keyValid = s.keyValid := rfl
@[simp] theorem State.complete_hmacActive (s : State) :
    (s.complete).hmacActive = s.hmacActive := rfl
@[simp] theorem State.complete_ctrl (s : State) :
    (s.complete).ctrl = s.ctrl := rfl
@[simp] theorem State.complete_busy (s : State) :
    (s.complete).busy = false := rfl
@[simp] theorem State.complete_done (s : State) :
    (s.complete).done = true := rfl
@[simp] theorem State.complete_err (s : State) :
    (s.complete).err = s.err := rfl
@[simp] theorem State.complete_errcode (s : State) :
    (s.complete).errcode = s.errcode := rfl
@[simp] theorem State.complete_doneIe (s : State) :
    (s.complete).doneIe = s.doneIe := rfl
@[simp] theorem State.complete_errIe (s : State) :
    (s.complete).errIe = s.errIe := rfl
@[simp] theorem State.complete_cph (s : State) :
    (s.complete).cph = .idle := rfl
@[simp] theorem State.complete_opL (s : State) :
    (s.complete).opL = s.opL := rfl
@[simp] theorem State.complete_nL (s : State) :
    (s.complete).nL = s.nL := rfl
@[simp] theorem State.complete_jobIdx (s : State) :
    (s.complete).jobIdx = s.jobIdx := rfl
@[simp] theorem State.complete_padStage (s : State) :
    (s.complete).padStage = s.padStage := rfl
@[simp] theorem State.complete_dl (s : State) :
    (s.complete).dl = s.dl := rfl
@[simp] theorem State.complete_dgl (s : State) :
    (s.complete).dgl = s.dgl := rfl
@[simp] theorem State.complete_host (s : State) :
    (s.complete).host = s.host := rfl
@[simp] theorem State.complete_resp (s : State) :
    (s.complete).resp = s.resp := rfl
@[simp] theorem State.complete_freeCtr (s : State) :
    (s.complete).freeCtr = s.freeCtr := rfl

/-! ### writeStatus -/

@[simp] theorem State.writeStatus_chain (v : Word) (s : State) :
    (s.writeStatus v).chain = s.chain := rfl
@[simp] theorem State.writeStatus_work (v : Word) (s : State) :
    (s.writeStatus v).work = s.work := rfl
@[simp] theorem State.writeStatus_rnd (v : Word) (s : State) :
    (s.writeStatus v).rnd = s.rnd := rfl
@[simp] theorem State.writeStatus_eph (v : Word) (s : State) :
    (s.writeStatus v).eph = s.eph := rfl
@[simp] theorem State.writeStatus_m (v : Word) (s : State) :
    (s.writeStatus v).m = s.m := rfl
@[simp] theorem State.writeStatus_data (v : Word) (s : State) :
    (s.writeStatus v).data = s.data := rfl
@[simp] theorem State.writeStatus_k0 (v : Word) (s : State) :
    (s.writeStatus v).k0 = s.k0 := rfl
@[simp] theorem State.writeStatus_ihash (v : Word) (s : State) :
    (s.writeStatus v).ihash = s.ihash := rfl
@[simp] theorem State.writeStatus_bitlen (v : Word) (s : State) :
    (s.writeStatus v).bitlen = s.bitlen := rfl
@[simp] theorem State.writeStatus_digest (v : Word) (s : State) :
    (s.writeStatus v).digest = s.digest := rfl
@[simp] theorem State.writeStatus_keyValid (v : Word) (s : State) :
    (s.writeStatus v).keyValid = s.keyValid := rfl
@[simp] theorem State.writeStatus_hmacActive (v : Word) (s : State) :
    (s.writeStatus v).hmacActive = s.hmacActive := rfl
@[simp] theorem State.writeStatus_ctrl (v : Word) (s : State) :
    (s.writeStatus v).ctrl = s.ctrl := rfl
@[simp] theorem State.writeStatus_busy (v : Word) (s : State) :
    (s.writeStatus v).busy = s.busy := rfl
@[simp] theorem State.writeStatus_done (v : Word) (s : State) :
    (s.writeStatus v).done = (if v.getLsbD 1 then false else s.done) := rfl
@[simp] theorem State.writeStatus_err (v : Word) (s : State) :
    (s.writeStatus v).err = (if v.getLsbD 2 then false else s.err) := rfl
@[simp] theorem State.writeStatus_errcode (v : Word) (s : State) :
    (s.writeStatus v).errcode = (if v.getLsbD 2 then 0 else s.errcode) := rfl
@[simp] theorem State.writeStatus_doneIe (v : Word) (s : State) :
    (s.writeStatus v).doneIe = s.doneIe := rfl
@[simp] theorem State.writeStatus_errIe (v : Word) (s : State) :
    (s.writeStatus v).errIe = s.errIe := rfl
@[simp] theorem State.writeStatus_cph (v : Word) (s : State) :
    (s.writeStatus v).cph = s.cph := rfl
@[simp] theorem State.writeStatus_opL (v : Word) (s : State) :
    (s.writeStatus v).opL = s.opL := rfl
@[simp] theorem State.writeStatus_nL (v : Word) (s : State) :
    (s.writeStatus v).nL = s.nL := rfl
@[simp] theorem State.writeStatus_jobIdx (v : Word) (s : State) :
    (s.writeStatus v).jobIdx = s.jobIdx := rfl
@[simp] theorem State.writeStatus_padStage (v : Word) (s : State) :
    (s.writeStatus v).padStage = s.padStage := rfl
@[simp] theorem State.writeStatus_dl (v : Word) (s : State) :
    (s.writeStatus v).dl = s.dl := rfl
@[simp] theorem State.writeStatus_dgl (v : Word) (s : State) :
    (s.writeStatus v).dgl = s.dgl := rfl
@[simp] theorem State.writeStatus_host (v : Word) (s : State) :
    (s.writeStatus v).host = s.host := rfl
@[simp] theorem State.writeStatus_resp (v : Word) (s : State) :
    (s.writeStatus v).resp = s.resp := rfl
@[simp] theorem State.writeStatus_freeCtr (v : Word) (s : State) :
    (s.writeStatus v).freeCtr = s.freeCtr := rfl

/-! ### writeIrqEn -/

@[simp] theorem State.writeIrqEn_chain (v : Word) (s : State) :
    (s.writeIrqEn v).chain = s.chain := rfl
@[simp] theorem State.writeIrqEn_work (v : Word) (s : State) :
    (s.writeIrqEn v).work = s.work := rfl
@[simp] theorem State.writeIrqEn_rnd (v : Word) (s : State) :
    (s.writeIrqEn v).rnd = s.rnd := rfl
@[simp] theorem State.writeIrqEn_eph (v : Word) (s : State) :
    (s.writeIrqEn v).eph = s.eph := rfl
@[simp] theorem State.writeIrqEn_m (v : Word) (s : State) :
    (s.writeIrqEn v).m = s.m := rfl
@[simp] theorem State.writeIrqEn_data (v : Word) (s : State) :
    (s.writeIrqEn v).data = s.data := rfl
@[simp] theorem State.writeIrqEn_k0 (v : Word) (s : State) :
    (s.writeIrqEn v).k0 = s.k0 := rfl
@[simp] theorem State.writeIrqEn_ihash (v : Word) (s : State) :
    (s.writeIrqEn v).ihash = s.ihash := rfl
@[simp] theorem State.writeIrqEn_bitlen (v : Word) (s : State) :
    (s.writeIrqEn v).bitlen = s.bitlen := rfl
@[simp] theorem State.writeIrqEn_digest (v : Word) (s : State) :
    (s.writeIrqEn v).digest = s.digest := rfl
@[simp] theorem State.writeIrqEn_keyValid (v : Word) (s : State) :
    (s.writeIrqEn v).keyValid = s.keyValid := rfl
@[simp] theorem State.writeIrqEn_hmacActive (v : Word) (s : State) :
    (s.writeIrqEn v).hmacActive = s.hmacActive := rfl
@[simp] theorem State.writeIrqEn_ctrl (v : Word) (s : State) :
    (s.writeIrqEn v).ctrl = s.ctrl := rfl
@[simp] theorem State.writeIrqEn_busy (v : Word) (s : State) :
    (s.writeIrqEn v).busy = s.busy := rfl
@[simp] theorem State.writeIrqEn_done (v : Word) (s : State) :
    (s.writeIrqEn v).done = s.done := rfl
@[simp] theorem State.writeIrqEn_err (v : Word) (s : State) :
    (s.writeIrqEn v).err = s.err := rfl
@[simp] theorem State.writeIrqEn_errcode (v : Word) (s : State) :
    (s.writeIrqEn v).errcode = s.errcode := rfl
@[simp] theorem State.writeIrqEn_doneIe (v : Word) (s : State) :
    (s.writeIrqEn v).doneIe = (v.getLsbD 0) := rfl
@[simp] theorem State.writeIrqEn_errIe (v : Word) (s : State) :
    (s.writeIrqEn v).errIe = (v.getLsbD 1) := rfl
@[simp] theorem State.writeIrqEn_cph (v : Word) (s : State) :
    (s.writeIrqEn v).cph = s.cph := rfl
@[simp] theorem State.writeIrqEn_opL (v : Word) (s : State) :
    (s.writeIrqEn v).opL = s.opL := rfl
@[simp] theorem State.writeIrqEn_nL (v : Word) (s : State) :
    (s.writeIrqEn v).nL = s.nL := rfl
@[simp] theorem State.writeIrqEn_jobIdx (v : Word) (s : State) :
    (s.writeIrqEn v).jobIdx = s.jobIdx := rfl
@[simp] theorem State.writeIrqEn_padStage (v : Word) (s : State) :
    (s.writeIrqEn v).padStage = s.padStage := rfl
@[simp] theorem State.writeIrqEn_dl (v : Word) (s : State) :
    (s.writeIrqEn v).dl = s.dl := rfl
@[simp] theorem State.writeIrqEn_dgl (v : Word) (s : State) :
    (s.writeIrqEn v).dgl = s.dgl := rfl
@[simp] theorem State.writeIrqEn_host (v : Word) (s : State) :
    (s.writeIrqEn v).host = s.host := rfl
@[simp] theorem State.writeIrqEn_resp (v : Word) (s : State) :
    (s.writeIrqEn v).resp = s.resp := rfl
@[simp] theorem State.writeIrqEn_freeCtr (v : Word) (s : State) :
    (s.writeIrqEn v).freeCtr = s.freeCtr := rfl

/-! ### doRound -/

@[simp] theorem State.doRound_chain (f : Word → Word → Word → Word) (i : BitVec 6) (s : State) :
    (s.doRound f i).chain = s.chain := rfl
@[simp] theorem State.doRound_work (f : Word → Word → Word → Word) (i : BitVec 6) (s : State) :
    (s.doRound f i).work = (roundWith f i s.work s.m) := rfl
@[simp] theorem State.doRound_rnd (f : Word → Word → Word → Word) (i : BitVec 6) (s : State) :
    (s.doRound f i).rnd = (if i.toNat < 63 then i + 1 else s.rnd) := rfl
@[simp] theorem State.doRound_eph (f : Word → Word → Word → Word) (i : BitVec 6) (s : State) :
    (s.doRound f i).eph = (if i.toNat < 63 then s.eph else .add) := rfl
@[simp] theorem State.doRound_m (f : Word → Word → Word → Word) (i : BitVec 6) (s : State) :
    (s.doRound f i).m = s.m := rfl
@[simp] theorem State.doRound_data (f : Word → Word → Word → Word) (i : BitVec 6) (s : State) :
    (s.doRound f i).data = s.data := rfl
@[simp] theorem State.doRound_k0 (f : Word → Word → Word → Word) (i : BitVec 6) (s : State) :
    (s.doRound f i).k0 = s.k0 := rfl
@[simp] theorem State.doRound_ihash (f : Word → Word → Word → Word) (i : BitVec 6) (s : State) :
    (s.doRound f i).ihash = s.ihash := rfl
@[simp] theorem State.doRound_bitlen (f : Word → Word → Word → Word) (i : BitVec 6) (s : State) :
    (s.doRound f i).bitlen = s.bitlen := rfl
@[simp] theorem State.doRound_digest (f : Word → Word → Word → Word) (i : BitVec 6) (s : State) :
    (s.doRound f i).digest = s.digest := rfl
@[simp] theorem State.doRound_keyValid (f : Word → Word → Word → Word) (i : BitVec 6) (s : State) :
    (s.doRound f i).keyValid = s.keyValid := rfl
@[simp] theorem State.doRound_hmacActive (f : Word → Word → Word → Word) (i : BitVec 6) (s : State) :
    (s.doRound f i).hmacActive = s.hmacActive := rfl
@[simp] theorem State.doRound_ctrl (f : Word → Word → Word → Word) (i : BitVec 6) (s : State) :
    (s.doRound f i).ctrl = s.ctrl := rfl
@[simp] theorem State.doRound_busy (f : Word → Word → Word → Word) (i : BitVec 6) (s : State) :
    (s.doRound f i).busy = s.busy := rfl
@[simp] theorem State.doRound_done (f : Word → Word → Word → Word) (i : BitVec 6) (s : State) :
    (s.doRound f i).done = s.done := rfl
@[simp] theorem State.doRound_err (f : Word → Word → Word → Word) (i : BitVec 6) (s : State) :
    (s.doRound f i).err = s.err := rfl
@[simp] theorem State.doRound_errcode (f : Word → Word → Word → Word) (i : BitVec 6) (s : State) :
    (s.doRound f i).errcode = s.errcode := rfl
@[simp] theorem State.doRound_doneIe (f : Word → Word → Word → Word) (i : BitVec 6) (s : State) :
    (s.doRound f i).doneIe = s.doneIe := rfl
@[simp] theorem State.doRound_errIe (f : Word → Word → Word → Word) (i : BitVec 6) (s : State) :
    (s.doRound f i).errIe = s.errIe := rfl
@[simp] theorem State.doRound_cph (f : Word → Word → Word → Word) (i : BitVec 6) (s : State) :
    (s.doRound f i).cph = s.cph := rfl
@[simp] theorem State.doRound_opL (f : Word → Word → Word → Word) (i : BitVec 6) (s : State) :
    (s.doRound f i).opL = s.opL := rfl
@[simp] theorem State.doRound_nL (f : Word → Word → Word → Word) (i : BitVec 6) (s : State) :
    (s.doRound f i).nL = s.nL := rfl
@[simp] theorem State.doRound_jobIdx (f : Word → Word → Word → Word) (i : BitVec 6) (s : State) :
    (s.doRound f i).jobIdx = s.jobIdx := rfl
@[simp] theorem State.doRound_padStage (f : Word → Word → Word → Word) (i : BitVec 6) (s : State) :
    (s.doRound f i).padStage = s.padStage := rfl
@[simp] theorem State.doRound_dl (f : Word → Word → Word → Word) (i : BitVec 6) (s : State) :
    (s.doRound f i).dl = s.dl := rfl
@[simp] theorem State.doRound_dgl (f : Word → Word → Word → Word) (i : BitVec 6) (s : State) :
    (s.doRound f i).dgl = s.dgl := rfl
@[simp] theorem State.doRound_host (f : Word → Word → Word → Word) (i : BitVec 6) (s : State) :
    (s.doRound f i).host = s.host := rfl
@[simp] theorem State.doRound_resp (f : Word → Word → Word → Word) (i : BitVec 6) (s : State) :
    (s.doRound f i).resp = s.resp := rfl
@[simp] theorem State.doRound_freeCtr (f : Word → Word → Word → Word) (i : BitVec 6) (s : State) :
    (s.doRound f i).freeCtr = s.freeCtr := rfl

/-! ### doLoad -/

@[simp] theorem State.doLoad_chain (j : Job) (s : State) :
    (s.doLoad j).chain = (s.baseChain j.base) := rfl
@[simp] theorem State.doLoad_work (j : Job) (s : State) :
    (s.doLoad j).work = (s.baseChain j.base) := rfl
@[simp] theorem State.doLoad_rnd (j : Job) (s : State) :
    (s.doLoad j).rnd = 0 := rfl
@[simp] theorem State.doLoad_eph (j : Job) (s : State) :
    (s.doLoad j).eph = .round := rfl
@[simp] theorem State.doLoad_m (j : Job) (s : State) :
    (s.doLoad j).m = (s.jobBlock j.src) := rfl
@[simp] theorem State.doLoad_data (j : Job) (s : State) :
    (s.doLoad j).data = s.data := rfl
@[simp] theorem State.doLoad_k0 (j : Job) (s : State) :
    (s.doLoad j).k0 = s.k0 := rfl
@[simp] theorem State.doLoad_ihash (j : Job) (s : State) :
    (s.doLoad j).ihash = s.ihash := rfl
@[simp] theorem State.doLoad_bitlen (j : Job) (s : State) :
    (s.doLoad j).bitlen = s.bitlen := rfl
@[simp] theorem State.doLoad_digest (j : Job) (s : State) :
    (s.doLoad j).digest = s.digest := rfl
@[simp] theorem State.doLoad_keyValid (j : Job) (s : State) :
    (s.doLoad j).keyValid = s.keyValid := rfl
@[simp] theorem State.doLoad_hmacActive (j : Job) (s : State) :
    (s.doLoad j).hmacActive = s.hmacActive := rfl
@[simp] theorem State.doLoad_ctrl (j : Job) (s : State) :
    (s.doLoad j).ctrl = s.ctrl := rfl
@[simp] theorem State.doLoad_busy (j : Job) (s : State) :
    (s.doLoad j).busy = s.busy := rfl
@[simp] theorem State.doLoad_done (j : Job) (s : State) :
    (s.doLoad j).done = s.done := rfl
@[simp] theorem State.doLoad_err (j : Job) (s : State) :
    (s.doLoad j).err = s.err := rfl
@[simp] theorem State.doLoad_errcode (j : Job) (s : State) :
    (s.doLoad j).errcode = s.errcode := rfl
@[simp] theorem State.doLoad_doneIe (j : Job) (s : State) :
    (s.doLoad j).doneIe = s.doneIe := rfl
@[simp] theorem State.doLoad_errIe (j : Job) (s : State) :
    (s.doLoad j).errIe = s.errIe := rfl
@[simp] theorem State.doLoad_cph (j : Job) (s : State) :
    (s.doLoad j).cph = s.cph := rfl
@[simp] theorem State.doLoad_opL (j : Job) (s : State) :
    (s.doLoad j).opL = s.opL := rfl
@[simp] theorem State.doLoad_nL (j : Job) (s : State) :
    (s.doLoad j).nL = s.nL := rfl
@[simp] theorem State.doLoad_jobIdx (j : Job) (s : State) :
    (s.doLoad j).jobIdx = s.jobIdx := rfl
@[simp] theorem State.doLoad_padStage (j : Job) (s : State) :
    (s.doLoad j).padStage = s.padStage := rfl
@[simp] theorem State.doLoad_dl (j : Job) (s : State) :
    (s.doLoad j).dl = s.dl := rfl
@[simp] theorem State.doLoad_dgl (j : Job) (s : State) :
    (s.doLoad j).dgl = s.dgl := rfl
@[simp] theorem State.doLoad_host (j : Job) (s : State) :
    (s.doLoad j).host = s.host := rfl
@[simp] theorem State.doLoad_resp (j : Job) (s : State) :
    (s.doLoad j).resp = s.resp := rfl
@[simp] theorem State.doLoad_freeCtr (j : Job) (s : State) :
    (s.doLoad j).freeCtr = s.freeCtr := rfl

/-! ### doAdd -/

@[simp] theorem State.doAdd_chain (s : State) :
    (s.doAdd).chain = (s.chain.add s.work) := rfl
@[simp] theorem State.doAdd_work (s : State) :
    (s.doAdd).work = s.work := rfl
@[simp] theorem State.doAdd_rnd (s : State) :
    (s.doAdd).rnd = s.rnd := rfl
@[simp] theorem State.doAdd_eph (s : State) :
    (s.doAdd).eph = (if s.furtherJob then .load else .idle) := rfl
@[simp] theorem State.doAdd_m (s : State) :
    (s.doAdd).m = s.m := rfl
@[simp] theorem State.doAdd_data (s : State) :
    (s.doAdd).data = s.data := rfl
@[simp] theorem State.doAdd_k0 (s : State) :
    (s.doAdd).k0 = s.k0 := rfl
@[simp] theorem State.doAdd_ihash (s : State) :
    (s.doAdd).ihash = (if s.currentJob.any (·.save) then s.chain.add s.work else s.ihash) := rfl
@[simp] theorem State.doAdd_bitlen (s : State) :
    (s.doAdd).bitlen = s.bitlen := rfl
@[simp] theorem State.doAdd_digest (s : State) :
    (s.doAdd).digest = s.digest := rfl
@[simp] theorem State.doAdd_keyValid (s : State) :
    (s.doAdd).keyValid = s.keyValid := rfl
@[simp] theorem State.doAdd_hmacActive (s : State) :
    (s.doAdd).hmacActive = s.hmacActive := rfl
@[simp] theorem State.doAdd_ctrl (s : State) :
    (s.doAdd).ctrl = s.ctrl := rfl
@[simp] theorem State.doAdd_busy (s : State) :
    (s.doAdd).busy = s.busy := rfl
@[simp] theorem State.doAdd_done (s : State) :
    (s.doAdd).done = s.done := rfl
@[simp] theorem State.doAdd_err (s : State) :
    (s.doAdd).err = s.err := rfl
@[simp] theorem State.doAdd_errcode (s : State) :
    (s.doAdd).errcode = s.errcode := rfl
@[simp] theorem State.doAdd_doneIe (s : State) :
    (s.doAdd).doneIe = s.doneIe := rfl
@[simp] theorem State.doAdd_errIe (s : State) :
    (s.doAdd).errIe = s.errIe := rfl
@[simp] theorem State.doAdd_cph (s : State) :
    (s.doAdd).cph = s.cph := rfl
@[simp] theorem State.doAdd_opL (s : State) :
    (s.doAdd).opL = s.opL := rfl
@[simp] theorem State.doAdd_nL (s : State) :
    (s.doAdd).nL = s.nL := rfl
@[simp] theorem State.doAdd_jobIdx (s : State) :
    (s.doAdd).jobIdx = (if s.furtherJob then s.jobIdx + 1 else s.jobIdx) := rfl
@[simp] theorem State.doAdd_padStage (s : State) :
    (s.doAdd).padStage = (s.padStage && !s.currentJob.any (·.src == .p1)) := rfl
@[simp] theorem State.doAdd_dl (s : State) :
    (s.doAdd).dl = s.dl := rfl
@[simp] theorem State.doAdd_dgl (s : State) :
    (s.doAdd).dgl = s.dgl := rfl
@[simp] theorem State.doAdd_host (s : State) :
    (s.doAdd).host = s.host := rfl
@[simp] theorem State.doAdd_resp (s : State) :
    (s.doAdd).resp = s.resp := rfl
@[simp] theorem State.doAdd_freeCtr (s : State) :
    (s.doAdd).freeCtr = s.freeCtr := rfl

/-! ### popHost -/

@[simp] theorem State.popHost_chain (s : State) :
    (s.popHost).chain = s.chain := rfl
@[simp] theorem State.popHost_work (s : State) :
    (s.popHost).work = s.work := rfl
@[simp] theorem State.popHost_rnd (s : State) :
    (s.popHost).rnd = s.rnd := rfl
@[simp] theorem State.popHost_eph (s : State) :
    (s.popHost).eph = s.eph := rfl
@[simp] theorem State.popHost_m (s : State) :
    (s.popHost).m = s.m := rfl
@[simp] theorem State.popHost_data (s : State) :
    (s.popHost).data = s.data := rfl
@[simp] theorem State.popHost_k0 (s : State) :
    (s.popHost).k0 = s.k0 := rfl
@[simp] theorem State.popHost_ihash (s : State) :
    (s.popHost).ihash = s.ihash := rfl
@[simp] theorem State.popHost_bitlen (s : State) :
    (s.popHost).bitlen = s.bitlen := rfl
@[simp] theorem State.popHost_digest (s : State) :
    (s.popHost).digest = s.digest := rfl
@[simp] theorem State.popHost_keyValid (s : State) :
    (s.popHost).keyValid = s.keyValid := rfl
@[simp] theorem State.popHost_hmacActive (s : State) :
    (s.popHost).hmacActive = s.hmacActive := rfl
@[simp] theorem State.popHost_ctrl (s : State) :
    (s.popHost).ctrl = s.ctrl := rfl
@[simp] theorem State.popHost_busy (s : State) :
    (s.popHost).busy = s.busy := rfl
@[simp] theorem State.popHost_done (s : State) :
    (s.popHost).done = s.done := rfl
@[simp] theorem State.popHost_err (s : State) :
    (s.popHost).err = s.err := rfl
@[simp] theorem State.popHost_errcode (s : State) :
    (s.popHost).errcode = s.errcode := rfl
@[simp] theorem State.popHost_doneIe (s : State) :
    (s.popHost).doneIe = s.doneIe := rfl
@[simp] theorem State.popHost_errIe (s : State) :
    (s.popHost).errIe = s.errIe := rfl
@[simp] theorem State.popHost_cph (s : State) :
    (s.popHost).cph = s.cph := rfl
@[simp] theorem State.popHost_opL (s : State) :
    (s.popHost).opL = s.opL := rfl
@[simp] theorem State.popHost_nL (s : State) :
    (s.popHost).nL = s.nL := rfl
@[simp] theorem State.popHost_jobIdx (s : State) :
    (s.popHost).jobIdx = s.jobIdx := rfl
@[simp] theorem State.popHost_padStage (s : State) :
    (s.popHost).padStage = s.padStage := rfl
@[simp] theorem State.popHost_dl (s : State) :
    (s.popHost).dl = s.dl := rfl
@[simp] theorem State.popHost_dgl (s : State) :
    (s.popHost).dgl = s.dgl := rfl
@[simp] theorem State.popHost_host (s : State) :
    (s.popHost).host = s.host.tail := rfl
@[simp] theorem State.popHost_resp (s : State) :
    (s.popHost).resp = s.resp := rfl
@[simp] theorem State.popHost_freeCtr (s : State) :
    (s.popHost).freeCtr = s.freeCtr := rfl

/-! ### respond -/

@[simp] theorem State.respond_chain (err : Bool) (rdata : Option Word) (s : State) :
    (s.respond err rdata).chain = s.chain := rfl
@[simp] theorem State.respond_work (err : Bool) (rdata : Option Word) (s : State) :
    (s.respond err rdata).work = s.work := rfl
@[simp] theorem State.respond_rnd (err : Bool) (rdata : Option Word) (s : State) :
    (s.respond err rdata).rnd = s.rnd := rfl
@[simp] theorem State.respond_eph (err : Bool) (rdata : Option Word) (s : State) :
    (s.respond err rdata).eph = s.eph := rfl
@[simp] theorem State.respond_m (err : Bool) (rdata : Option Word) (s : State) :
    (s.respond err rdata).m = s.m := rfl
@[simp] theorem State.respond_data (err : Bool) (rdata : Option Word) (s : State) :
    (s.respond err rdata).data = s.data := rfl
@[simp] theorem State.respond_k0 (err : Bool) (rdata : Option Word) (s : State) :
    (s.respond err rdata).k0 = s.k0 := rfl
@[simp] theorem State.respond_ihash (err : Bool) (rdata : Option Word) (s : State) :
    (s.respond err rdata).ihash = s.ihash := rfl
@[simp] theorem State.respond_bitlen (err : Bool) (rdata : Option Word) (s : State) :
    (s.respond err rdata).bitlen = s.bitlen := rfl
@[simp] theorem State.respond_digest (err : Bool) (rdata : Option Word) (s : State) :
    (s.respond err rdata).digest = s.digest := rfl
@[simp] theorem State.respond_keyValid (err : Bool) (rdata : Option Word) (s : State) :
    (s.respond err rdata).keyValid = s.keyValid := rfl
@[simp] theorem State.respond_hmacActive (err : Bool) (rdata : Option Word) (s : State) :
    (s.respond err rdata).hmacActive = s.hmacActive := rfl
@[simp] theorem State.respond_ctrl (err : Bool) (rdata : Option Word) (s : State) :
    (s.respond err rdata).ctrl = s.ctrl := rfl
@[simp] theorem State.respond_busy (err : Bool) (rdata : Option Word) (s : State) :
    (s.respond err rdata).busy = s.busy := rfl
@[simp] theorem State.respond_done (err : Bool) (rdata : Option Word) (s : State) :
    (s.respond err rdata).done = s.done := rfl
@[simp] theorem State.respond_err (err : Bool) (rdata : Option Word) (s : State) :
    (s.respond err rdata).err = s.err := rfl
@[simp] theorem State.respond_errcode (err : Bool) (rdata : Option Word) (s : State) :
    (s.respond err rdata).errcode = s.errcode := rfl
@[simp] theorem State.respond_doneIe (err : Bool) (rdata : Option Word) (s : State) :
    (s.respond err rdata).doneIe = s.doneIe := rfl
@[simp] theorem State.respond_errIe (err : Bool) (rdata : Option Word) (s : State) :
    (s.respond err rdata).errIe = s.errIe := rfl
@[simp] theorem State.respond_cph (err : Bool) (rdata : Option Word) (s : State) :
    (s.respond err rdata).cph = s.cph := rfl
@[simp] theorem State.respond_opL (err : Bool) (rdata : Option Word) (s : State) :
    (s.respond err rdata).opL = s.opL := rfl
@[simp] theorem State.respond_nL (err : Bool) (rdata : Option Word) (s : State) :
    (s.respond err rdata).nL = s.nL := rfl
@[simp] theorem State.respond_jobIdx (err : Bool) (rdata : Option Word) (s : State) :
    (s.respond err rdata).jobIdx = s.jobIdx := rfl
@[simp] theorem State.respond_padStage (err : Bool) (rdata : Option Word) (s : State) :
    (s.respond err rdata).padStage = s.padStage := rfl
@[simp] theorem State.respond_dl (err : Bool) (rdata : Option Word) (s : State) :
    (s.respond err rdata).dl = s.dl := rfl
@[simp] theorem State.respond_dgl (err : Bool) (rdata : Option Word) (s : State) :
    (s.respond err rdata).dgl = s.dgl := rfl
@[simp] theorem State.respond_host (err : Bool) (rdata : Option Word) (s : State) :
    (s.respond err rdata).host = s.host := rfl
@[simp] theorem State.respond_resp (err : Bool) (rdata : Option Word) (s : State) :
    (s.respond err rdata).resp = (some { err := err, rdata := rdata }) := rfl
@[simp] theorem State.respond_freeCtr (err : Bool) (rdata : Option Word) (s : State) :
    (s.respond err rdata).freeCtr = s.freeCtr := rfl

end Sys2Proof.Machine
end

