-- ==== Sys2Proof/Laws/Ops.lean ====
section
/-! SUPPORT. What each shared operation can do, said once: issuing a command, the access of a cycle, the
micro-operation of a cycle and the clock edge. -/

namespace Sys2Proof.Machine

@[simp] theorem andThen_next (s : State) (k : State → Result) : andThen (.next s) k = k s := rfl

@[simp] theorem controllerEdge_true (s : State) : controllerEdge true s = finish s := rfl

@[simp] theorem controllerEdge_false (s : State) : controllerEdge false s = s := rfl

/-- R150, R152: issuing either records an error and CTRL, or accepts. -/
theorem issue_cases (v : Word) (op : BitVec 4) (len : BitVec 7) (s : State) :
    (∃ c, rejection op len s = some c ∧
      s.issue v op len = { s with ctrl := v, err := true, errcode := c.code }) ∨
    (rejection op len s = none ∧ s.issue v op len = { s with ctrl := v }.accept op len) := by
  unfold State.issue
  cases h : rejection op len s with
  | some c => exact .inl ⟨c, rfl, rfl⟩
  | none => exact .inr ⟨rfl, rfl⟩

/-- R150: while BUSY = 1 every command is rejected with BUSY. -/
theorem rejection_busy {s : State} (h : s.busy = true) (op : BitVec 4) (len : BitVec 7) :
    rejection op len s = some .busy := by simp [rejection, h]

/-- R150: what an accepted command had to satisfy. -/
theorem rejection_none {s : State} {op : BitVec 4} {len : BitVec 7} (h : rejection op len s = none) :
    s.busy = false ∧ op.toNat < 8 ∧ ((op = 3 ∨ op = 7) → len.toNat ≤ 63) ∧ (op = 4 → len.toNat ≤ 64) ∧
    ((op = 3 ∨ op = 4 ∨ op = 5) → s.hmacActive = false) ∧ (op = 7 → s.hmacActive = true) ∧
    (op = 6 → s.keyValid = true) := by
  unfold rejection at h
  split_ifs at h with h1 h2 h3 h4 h5 h6 h7
  refine ⟨by simpa using h1, by omega, ?_, ?_, ?_, ?_, ?_⟩
  · intro ho; by_contra hc; exact h3 ⟨ho, by omega⟩
  · intro ho; by_contra hc; exact h4 ⟨ho, by omega⟩
  · intro ho; by_contra hc; exact h5 ⟨ho, by simpa using hc⟩
  · intro ho; by_contra hc; exact h6 ⟨ho, by simpa using hc⟩
  · intro ho; by_contra hc; exact h7 ⟨ho, by simpa using hc⟩

/-- R46 to R49, R150: what the access of a cycle can change: the answer and the count of free values; the
flags a STATUS write clears; the enables; one DATA word; and, on a CTRL write, what issuing does. -/
theorem hostEdge_cases (c : BusIn) (s : State) :
    ∃ t, hostEdge c s = .next t ∧
      ((∃ r k, t = { s with resp := r, freeCtr := k }) ∨
       (∃ v, c.access = .write 0x004 v ∧ t = (s.writeStatus v).respond false none) ∨
       (∃ v, c.access = .write 0x008 v ∧ t = (s.writeIrqEn v).respond false none) ∨
       (∃ j v, t = { s with data := s.data.set j v }.respond false none) ∨
       (∃ v, c.access = .command v ∧ t = (s.issue v (opOf v) (fieldsOf v).len).respond false none)) := by
  unfold hostEdge
  cases h : c.access with
  | none => exact ⟨_, rfl, .inl ⟨none, s.freeCtr, rfl⟩⟩
  | bad we => exact ⟨_, rfl, .inl ⟨_, s.freeCtr, rfl⟩⟩
  | read off => exact ⟨_, rfl, .inl ⟨_, _, rfl⟩⟩
  | write off v =>
    refine ⟨_, rfl, ?_⟩
    unfold State.busWrite
    split_ifs with h1 h2 h3
    · exact .inr (.inl ⟨v, by rw [h1], rfl⟩)
    · exact .inr (.inr (.inl ⟨v, by rw [h2], rfl⟩))
    · exact .inr (.inr (.inr (.inl ⟨_, v, rfl⟩)))
    · exact .inl ⟨_, s.freeCtr, rfl⟩
  | command v =>
    refine ⟨_, ?_, .inr (.inr (.inr (.inr ⟨v, rfl, rfl⟩)))⟩
    simp only [busEdge, exec_decodeCmd, andThen_next]

/-- R94: a state that agrees with `s` on the internal part is `s` but for the host's fields. -/
theorem eq_of_internals {s t : State} (h : s.internals = t.internals) :
    t = { s with
      ctrl := t.ctrl, data := t.data, done := t.done, err := t.err, errcode := t.errcode
      doneIe := t.doneIe, errIe := t.errIe, host := t.host, resp := t.resp, freeCtr := t.freeCtr } := by
  obtain ⟨⟩ := s
  obtain ⟨⟩ := t
  simp only [State.internals, State.mk.injEq] at h ⊢
  simp [h]

/-- R94, R150: while a command runs, the access of a cycle reaches nothing internal. -/
theorem hostEdge_busy {c : BusIn} {s : State} (h : s.busy = true) :
    ∃ t, hostEdge c s = .next t ∧ t.internals = s.internals := by
  obtain ⟨t, ht, hc⟩ := hostEdge_cases c s
  refine ⟨t, ht, ?_⟩
  rcases hc with ⟨r, k, rfl⟩ | ⟨v, -, rfl⟩ | ⟨v, -, rfl⟩ | ⟨j, v, rfl⟩ | ⟨v, -, rfl⟩
  · rfl
  · rfl
  · rfl
  · rfl
  · rcases issue_cases v (opOf v) (fieldsOf v).len s with ⟨c, -, hi⟩ | ⟨hn, -⟩
    · rw [hi]; rfl
    · rw [rejection_busy h] at hn; cases hn

/-- R175: the micro-operation of a cycle, by engine phase. -/
theorem microOp_eq (s : State) :
    s.microOp = match s.eph with
      | .idle => none
      | .load => some .load
      | .round => some (decodeRound s.rnd)
      | .add => some .add := by
  unfold State.microOp
  cases s.eph <;> rfl

/-- R175: what the engine does to a state in the phase `p` with the round index `i`. -/
def State.engineStep (p : EnginePhase) (i : BitVec 6) (s : State) : Option State :=
  match p with
  | .idle => some s
  | .load => s.currentJob.map fun j => s.doLoad j
  | .round => some (s.doRound (phi (quarterOf i)) i)
  | .add => some s.doAdd

/-- The engine's edge answers what `engineStep` says, and faults where there is no block to load. -/
theorem engineEdge_eq (s t : State) :
    engineEdge s.microOp t = match t.engineStep s.eph s.rnd with
      | some u => .next u
      | none => .fault .loadWithoutJob := by
  rw [microOp_eq]
  cases s.eph with
  | idle => rfl
  | load =>
    simp only [engineEdge, exec, execLoad, State.engineStep]
    cases t.currentJob <;> rfl
  | round => simp only [engineEdge, exec_decodeRound, State.engineStep]
  | add => rfl

/-- R94: the engine reads and writes the internal part alone. -/
theorem engineStep_internals (p : EnginePhase) (i : BitVec 6) {s t : State}
    (h : s.internals = t.internals) :
    (s.engineStep p i).map State.internals = (t.engineStep p i).map State.internals := by
  rw [eq_of_internals h]
  cases p with
  | idle => rfl
  | load =>
    simp only [State.engineStep]
    change _ = Option.map State.internals (s.currentJob.map _)
    cases s.currentJob <;> rfl
  | round => rfl
  | add => rfl

/-- R178: the completion writes read and write the internal part and DONE alone. -/
theorem controllerEdge_internals (last : Bool) {s t : State} (h : s.internals = t.internals) :
    (controllerEdge last s).internals = (controllerEdge last t).internals := by
  rw [eq_of_internals h]
  cases last with
  | false => rfl
  | true =>
    simp only [controllerEdge, if_true, finish]
    split <;> rfl

/-- R178: the completion writes of a legal opcode end in `Complete`. -/
theorem finish_complete {s : State} (h : s.opL.toNat < 8) :
    (finish s).busy = false ∧ (finish s).done = true ∧ (finish s).cph = .idle := by
  unfold finish
  have h8 : s.opL.toNat = 0 ∨ s.opL.toNat = 1 ∨ s.opL.toNat = 2 ∨ s.opL.toNat = 3 ∨ s.opL.toNat = 4 ∨
      s.opL.toNat = 5 ∨ s.opL.toNat = 6 ∨ s.opL.toNat = 7 := by omega
  rcases h8 with h | h | h | h | h | h | h | h <;> rw [h] <;> exact ⟨rfl, rfl, rfl⟩

/-- R177: the registers completion writes reach. -/
theorem finish_frame (s : State) :
    finish s = { s with
      chain := (finish s).chain, bitlen := (finish s).bitlen, digest := (finish s).digest
      k0 := (finish s).k0, keyValid := (finish s).keyValid, hmacActive := (finish s).hmacActive
      busy := (finish s).busy, done := (finish s).done, cph := (finish s).cph } := by
  unfold finish
  split <;> rfl

/-- The engine's edge leaves everything but the engine's own registers, the chaining value, IHASH, the job
index and the padding stage. -/
theorem engineStep_frame {p : EnginePhase} {i : BitVec 6} {s t : State}
    (h : s.engineStep p i = some t) :
    t = { s with
      chain := t.chain, work := t.work, rnd := t.rnd, eph := t.eph, m := t.m, ihash := t.ihash
      jobIdx := t.jobIdx, padStage := t.padStage } := by
  cases p with
  | idle => cases h; rfl
  | load =>
    simp only [State.engineStep, Option.map_eq_some_iff] at h
    obtain ⟨j, -, rfl⟩ := h
    rfl
  | round => cases h; rfl
  | add => cases h; rfl

/-- R170: an edge with `rst_n` = 0. -/
theorem step_reset {s : State} (h : s.busIn.rstN = false) :
    step s = .next (resetEdge s.popHost) := by simp [step, clockEdge, h]

/-- R174: an edge with `rst_n` = 1: the access, then the engine, then the controller. -/
theorem step_served {s : State} (h : s.busIn.rstN = true) :
    ∃ t, hostEdge s.busIn s.popHost = .next t ∧
      step s = match t.engineStep s.eph s.rnd with
        | some u => .next (controllerEdge s.lastCycle u)
        | none => .fault .loadWithoutJob := by
  obtain ⟨t, ht, -⟩ := hostEdge_cases s.busIn s.popHost
  refine ⟨t, ht, ?_⟩
  simp only [step, clockEdge, h, servedEdge, ht, andThen_next, engineEdge_eq]
  rw [if_neg (by simp)]
  cases t.engineStep s.eph s.rnd <;> rfl

end Sys2Proof.Machine
end

