-- ==== Sys2Proof/Laws/Run.lean ====
section
/-! SUPPORT. A command on its way: while BUSY = 1 the internal part of the state moves on its own (R94), a
compression job takes LOAD, 64 rounds and ADD (R93, R95), and the jobs of a command run one after the other
(R175, R177). -/

namespace Sys2Proof.Machine

/-- `k` steps from `s` to `u`, with BUSY = 1 before each of them. -/
def BusyRun : Nat → State → State → Prop
  | 0, s, u => s = u
  | k + 1, s, u => s.busy = true ∧ ∃ t, step s = .next t ∧ BusyRun k t u

theorem core_run_next (M : Host.Core) {k : Nat} {s t : M.State} (h : M.step s = .next t) :
    M.run (k + 1) s = M.run k t := by rw [Host.Core.run, h]

theorem run_next {k : Nat} {s t : State} (h : step s = .next t) :
    Host.Core.run core (k + 1) s = Host.Core.run core k t := core_run_next core h

theorem BusyRun.run {k : Nat} {s u : State} (h : BusyRun k s u) : Host.Core.run core k s = .next u := by
  induction k generalizing s with
  | zero => cases h; rfl
  | succ k ih =>
    obtain ⟨-, t, ht, hr⟩ := h
    exact (run_next ht).trans (ih hr)

theorem BusyRun.trans {j k : Nat} {s t u : State} (h : BusyRun j s t) (h' : BusyRun k t u) :
    BusyRun (j + k) s u := by
  induction j generalizing s with
  | zero => cases h; rwa [Nat.zero_add]
  | succ j ih =>
    obtain ⟨hb, v, hv, hr⟩ := h
    rw [Nat.add_right_comm]
    exact ⟨hb, v, hv, ih hr⟩

theorem BusyRun.single {s t : State} (hb : s.busy = true) (h : step s = .next t) : BusyRun 1 s t :=
  ⟨hb, t, h, rfl⟩

/-- R94: a busy run splits at any step into two. -/
theorem BusyRun.split {j k : Nat} {s u : State} (h : BusyRun (j + k) s u) :
    ∃ t, BusyRun j s t ∧ BusyRun k t u := by
  induction j generalizing s with
  | zero => rw [Nat.zero_add] at h; exact ⟨s, rfl, h⟩
  | succ j ih =>
    rw [Nat.add_right_comm] at h
    obtain ⟨hb, v, hv, hr⟩ := h
    obtain ⟨t, h1, h2⟩ := ih hr
    exact ⟨t, ⟨hb, v, hv, h1⟩, h2⟩

/-! ### The internal part moves on its own -/

theorem served_busIn {s : State} {k : Nat} (h : s.served (k + 1)) : s.busIn.rstN = true := by
  unfold State.busIn
  cases hh : s.host with
  | nil => rfl
  | cons c cs => exact h c (by rw [hh]; exact List.mem_cons_self)

/-- The host's list moves on by one cycle at every edge with `rst_n` = 1. -/
theorem step_host {s t : State} (hr : s.busIn.rstN = true) (h : step s = .next t) :
    t.host = s.host.tail := by
  obtain ⟨v, hv, hs⟩ := step_served hr
  rw [hs] at h
  have hvh : v.host = s.host.tail := by
    obtain ⟨v', hv', hc⟩ := hostEdge_cases s.busIn s.popHost
    rw [hv] at hv'
    cases hv'
    rcases hc with ⟨r, k, rfl⟩ | ⟨w, -, rfl⟩ | ⟨w, -, rfl⟩ | ⟨j, w, rfl⟩ | ⟨w, -, rfl⟩
    · rfl
    · simp
    · simp
    · simp
    · rcases issue_cases w (opOf w) (fieldsOf w).len s.popHost with ⟨c, -, hi⟩ | ⟨-, hi⟩ <;> simp [hi]
  cases he : v.engineStep s.eph s.rnd with
  | none => rw [he] at h; cases h
  | some u =>
    rw [he] at h
    cases h
    have hu : u.host = v.host := by rw [engineStep_frame he]
    rw [← hvh, ← hu]
    unfold controllerEdge
    split
    · rw [finish_frame]
    · rfl

theorem step_keeps_served {s t : State} {k : Nat} (hs : s.served (k + 1)) (h : step s = .next t) :
    t.served k := by
  intro c hc
  rw [step_host (served_busIn hs) h] at hc
  refine hs c ?_
  cases hh : s.host with
  | nil => rw [hh] at hc; simp at hc
  | cons d ds => rw [hh] at hc; exact List.mem_cons_of_mem _ hc

/-- A busy run uses up one of the host's cycles at each step. -/
theorem BusyRun.host {k : Nat} {s u : State} (h : BusyRun k s u) (hs : s.served k) :
    u.host = s.host.drop k := by
  induction k generalizing s with
  | zero => cases h; rfl
  | succ k ih =>
    obtain ⟨-, t, ht, hr⟩ := h
    rw [ih hr (step_keeps_served hs ht), step_host (served_busIn hs) ht, List.drop_tail]

/-- R55, R94: two states that agree on the internal part step to states that agree on it, whatever the host
does in either, while a command runs. -/
theorem step_internals {s s' t' : State} (hb : s.busy = true) (h : s.internals = s'.internals)
    (hr : s.busIn.rstN = true) (hr' : s'.busIn.rstN = true) (hs' : step s' = .next t') :
    ∃ t, step s = .next t ∧ t.internals = t'.internals := by
  have he := eq_of_internals h
  have hb' : s'.busy = true := by rw [he]; exact hb
  have hph : s'.eph = s.eph := by rw [he]
  have hrnd : s'.rnd = s.rnd := by rw [he]
  have hlast : s'.lastCycle = s.lastCycle := by rw [he]; rfl
  obtain ⟨v, hv, hvs⟩ := step_served hr
  obtain ⟨v', hv', hvs'⟩ := step_served hr'
  obtain ⟨w, hw, hwi⟩ := hostEdge_busy (c := s.busIn) (s := s.popHost) hb
  obtain ⟨w', hw', hwi'⟩ := hostEdge_busy (c := s'.busIn) (s := s'.popHost) hb'
  rw [hv] at hw
  cases hw
  rw [hv'] at hw'
  cases hw'
  have hvv : v.internals = v'.internals := by
    rw [hwi, hwi']
    exact h
  have hmap := engineStep_internals s.eph s.rnd hvv
  rw [hvs'] at hs'
  rw [hph, hrnd, hlast] at hs'
  rw [hvs]
  cases hu' : v'.engineStep s.eph s.rnd with
  | none => rw [hu'] at hs'; cases hs'
  | some u' =>
    rw [hu'] at hs' hmap
    cases hs'
    cases hu : v.engineStep s.eph s.rnd with
    | none => rw [hu] at hmap; cases hmap
    | some u =>
      rw [hu] at hmap
      exact ⟨_, rfl, controllerEdge_internals _ (Option.some.inj hmap)⟩

/-- R94: a busy run carries over to every state with the same internal part, whatever accesses the host makes
meanwhile. -/
theorem BusyRun.transfer {k : Nat} {s s' u' : State} (h : BusyRun k s' u')
    (hi : s.internals = s'.internals) (hs : s.served k) (hs' : s'.served k) :
    ∃ u, BusyRun k s u ∧ u.internals = u'.internals := by
  induction k generalizing s s' with
  | zero => cases h; exact ⟨s, rfl, hi⟩
  | succ k ih =>
    obtain ⟨hb', t', ht', hr'⟩ := h
    have hb : s.busy = true := by rw [eq_of_internals hi] at hb'; exact hb'
    obtain ⟨t, ht, hti⟩ := step_internals hb hi (served_busIn hs) (served_busIn hs') ht'
    obtain ⟨u, hu, hui⟩ := ih hr' hti (step_keeps_served hs ht) (step_keeps_served hs' ht')
    exact ⟨u, ⟨hb, t, ht, hu⟩, hui⟩

/-- R178, R58: the edge that clears BUSY of a running command sets DONE, whatever the host writes in that
cycle. -/
theorem step_clears_busy_sets_done {s t : State} (hb : s.busy = true) (hop : s.opL.toNat < 8)
    (hr : s.busIn.rstN = true) (h : step s = .next t) (ht : t.busy = false) : t.done = true := by
  obtain ⟨v, hv, hs⟩ := step_served hr
  obtain ⟨w, hw, hwi⟩ := hostEdge_busy (c := s.busIn) (s := s.popHost) hb
  rw [hv] at hw
  cases hw
  rw [hs] at h
  have hvb := eq_of_internals hwi.symm
  cases he : v.engineStep s.eph s.rnd with
  | none => rw [he] at h; cases h
  | some u =>
    rw [he] at h
    cases h
    have hf := engineStep_frame he
    have hub : u.busy = true := by rw [hf, hvb]; exact hb
    have huo : u.opL = s.opL := by rw [hf, hvb]; rfl
    cases hl : s.lastCycle with
    | false =>
      rw [hl] at ht
      change u.busy = false at ht
      rw [hub] at ht
      cases ht
    | true =>
      exact (finish_complete (s := u) (by rw [huo]; exact hop)).2.1

/-! ### Without host accesses -/

/-- A state from which the host presents no access, with no answer standing on the ports. -/
def State.quiet (s : State) : State := { s with host := [], resp := none }

/-- The edge of a state from which the host presents no access. -/
theorem step_quiet {s : State} (hh : s.host = []) (hr : s.resp = none) :
    step s = match s.engineStep s.eph s.rnd with
      | some u => .next (controllerEdge s.lastCycle u)
      | none => .fault .loadWithoutJob := by
  have hb : s.busIn = BusIn.idle := by simp [State.busIn, hh]
  obtain ⟨t, ht, hs⟩ := step_served (s := s) (by rw [hb]; rfl)
  have htt : t = s := by
    rw [hb] at ht
    have : hostEdge BusIn.idle s.popHost = .next { s.popHost with resp := none } := rfl
    rw [this] at ht
    cases ht
    obtain ⟨⟩ := s
    simp only at hh hr
    simp [State.popHost, hh, hr]
  subst htt
  exact hs.trans (by cases t.engineStep t.eph t.rnd <;> rfl)

/-- R90, R93: `k` rounds from round 0. -/
theorem rounds_run {s : State} (hb : s.busy = true) (hh : s.host = []) (hr : s.resp = none)
    (hj : s.jobs ≠ []) (hp : s.eph = .round) (h0 : s.rnd = 0) (k : Nat) (hk : k ≤ 64) :
    BusyRun k s { s with
      work := roundsUpTo s.work s.m k
      rnd := if k < 64 then BitVec.ofNat 6 k else 63
      eph := if k < 64 then .round else .add } := by
  induction k with
  | zero =>
    simp only [BusyRun, roundsUpTo]
    obtain ⟨⟩ := s
    simp only at hp h0
    simp [hp, h0]
  | succ k ih =>
    refine (ih (by omega)).trans (BusyRun.single hb ?_)
    rw [if_pos (by omega), if_pos (by omega)]
    generalize hv : ({ s with
      work := roundsUpTo s.work s.m k, rnd := BitVec.ofNat 6 k, eph := .round } : State) = v
    have hlast : v.lastCycle = false := by
      subst hv
      simp only [State.lastCycle, State.jobs] at hj ⊢
      simp [hj]
    rw [step_quiet (by rw [← hv]; exact hh) (by rw [← hv]; exact hr), hlast]
    subst hv
    have hkn : (BitVec.ofNat 6 k).toNat = k := by
      rw [BitVec.toNat_ofNat]; exact Nat.mod_eq_of_lt (by omega)
    simp only [State.engineStep, controllerEdge, State.doRound, hkn]
    rcases Nat.lt_or_ge k 63 with h | h
    · rw [if_pos h, if_pos h, if_pos (by omega : k + 1 < 64), if_pos (by omega : k + 1 < 64)]
      have : BitVec.ofNat 6 k + 1 = BitVec.ofNat 6 (k + 1) := by
        apply BitVec.eq_of_toNat_eq
        simp [BitVec.toNat_add, BitVec.toNat_ofNat]
      rw [this]
      rfl
    · have hk63 : k = 63 := by omega
      subst hk63
      rfl

/-- R90, R93: the 64 rounds of a compression leave `w` in the working registers. -/
theorem all_rounds_run {s : State} (hb : s.busy = true) (hh : s.host = []) (hr : s.resp = none)
    (hj : s.jobs ≠ []) (hp : s.eph = .round) (h0 : s.rnd = 0) (w : Quad)
    (hw : roundsUpTo s.work s.m 64 = w) :
    BusyRun 64 s { s with work := w, rnd := 63, eph := .add } := by
  have h := rounds_run hb hh hr hj hp h0 64 (Nat.le_refl 64)
  rw [hw, if_neg (Nat.lt_irrefl 64), if_neg (Nat.lt_irrefl 64)] at h
  exact h

/-- The state in which a job's ADD leaves the block when the job's LOAD presented `m`, its rounds left `w` and
the chaining value became `c`. Its lemmas are stated for any `c` and `w`: compared with a compression in their
place, the kernel would run all its rounds. -/
def State.jobDone (c w : Quad) (m : Block) (j : Job) (s : State) : State :=
  { s with
    chain := c
    work := w
    m := m
    rnd := 63
    ihash := if j.save then c else s.ihash
    eph := if s.furtherJob then .load else .idle
    jobIdx := if s.furtherJob then s.jobIdx + 1 else s.jobIdx
    padStage := s.padStage && !(j.src == .p1) }

/-- R93: the state in which a job's ADD leaves the block. -/
def State.afterJob (j : Job) (s : State) : State :=
  s.jobDone (compress (s.baseChain j.base) (s.jobBlock j.src))
    (roundsUpTo (s.baseChain j.base) (s.jobBlock j.src) 64) (s.jobBlock j.src) j

theorem State.jobDone_k0 (c w : Quad) (m : Block) (j : Job) (s : State) :
    (s.jobDone c w m j).k0 = s.k0 := rfl
theorem State.jobDone_bitlen (c w : Quad) (m : Block) (j : Job) (s : State) :
    (s.jobDone c w m j).bitlen = s.bitlen := rfl
theorem State.jobDone_digest (c w : Quad) (m : Block) (j : Job) (s : State) :
    (s.jobDone c w m j).digest = s.digest := rfl
theorem State.jobDone_keyValid (c w : Quad) (m : Block) (j : Job) (s : State) :
    (s.jobDone c w m j).keyValid = s.keyValid := rfl
theorem State.jobDone_hmacActive (c w : Quad) (m : Block) (j : Job) (s : State) :
    (s.jobDone c w m j).hmacActive = s.hmacActive := rfl
theorem State.jobDone_busy (c w : Quad) (m : Block) (j : Job) (s : State) :
    (s.jobDone c w m j).busy = s.busy := rfl
theorem State.jobDone_done (c w : Quad) (m : Block) (j : Job) (s : State) :
    (s.jobDone c w m j).done = s.done := rfl
theorem State.jobDone_cph (c w : Quad) (m : Block) (j : Job) (s : State) :
    (s.jobDone c w m j).cph = s.cph := rfl
theorem State.jobDone_opL (c w : Quad) (m : Block) (j : Job) (s : State) :
    (s.jobDone c w m j).opL = s.opL := rfl
theorem State.jobDone_nL (c w : Quad) (m : Block) (j : Job) (s : State) :
    (s.jobDone c w m j).nL = s.nL := rfl
theorem State.jobDone_dl (c w : Quad) (m : Block) (j : Job) (s : State) :
    (s.jobDone c w m j).dl = s.dl := rfl
theorem State.jobDone_dgl (c w : Quad) (m : Block) (j : Job) (s : State) :
    (s.jobDone c w m j).dgl = s.dgl := rfl
theorem State.jobDone_host (c w : Quad) (m : Block) (j : Job) (s : State) :
    (s.jobDone c w m j).host = s.host := rfl
theorem State.jobDone_resp (c w : Quad) (m : Block) (j : Job) (s : State) :
    (s.jobDone c w m j).resp = s.resp := rfl
theorem State.jobDone_data (c w : Quad) (m : Block) (j : Job) (s : State) :
    (s.jobDone c w m j).data = s.data := rfl
theorem State.jobDone_chain (c w : Quad) (m : Block) (j : Job) (s : State) :
    (s.jobDone c w m j).chain = c := rfl
theorem State.jobDone_ihash (c w : Quad) (m : Block) (j : Job) (s : State) :
    (s.jobDone c w m j).ihash = if j.save then c else s.ihash := rfl
theorem State.jobDone_eph (c w : Quad) (m : Block) (j : Job) (s : State) :
    (s.jobDone c w m j).eph = if s.furtherJob then .load else .idle := rfl
theorem State.jobDone_jobIdx (c w : Quad) (m : Block) (j : Job) (s : State) :
    (s.jobDone c w m j).jobIdx = if s.furtherJob then s.jobIdx + 1 else s.jobIdx := rfl
theorem State.jobDone_jobs (c w : Quad) (m : Block) (j : Job) (s : State) :
    (s.jobDone c w m j).jobs = s.jobs := rfl

@[simp] theorem State.afterJob_k0 (j : Job) (s : State) : (s.afterJob j).k0 = s.k0 :=
  State.jobDone_k0 ..
@[simp] theorem State.afterJob_bitlen (j : Job) (s : State) : (s.afterJob j).bitlen = s.bitlen :=
  State.jobDone_bitlen ..
@[simp] theorem State.afterJob_digest (j : Job) (s : State) : (s.afterJob j).digest = s.digest :=
  State.jobDone_digest ..
@[simp] theorem State.afterJob_keyValid (j : Job) (s : State) : (s.afterJob j).keyValid = s.keyValid :=
  State.jobDone_keyValid ..
@[simp] theorem State.afterJob_hmacActive (j : Job) (s : State) : (s.afterJob j).hmacActive = s.hmacActive :=
  State.jobDone_hmacActive ..
@[simp] theorem State.afterJob_busy (j : Job) (s : State) : (s.afterJob j).busy = s.busy :=
  State.jobDone_busy ..
@[simp] theorem State.afterJob_done (j : Job) (s : State) : (s.afterJob j).done = s.done :=
  State.jobDone_done ..
@[simp] theorem State.afterJob_cph (j : Job) (s : State) : (s.afterJob j).cph = s.cph :=
  State.jobDone_cph ..
@[simp] theorem State.afterJob_opL (j : Job) (s : State) : (s.afterJob j).opL = s.opL :=
  State.jobDone_opL ..
@[simp] theorem State.afterJob_nL (j : Job) (s : State) : (s.afterJob j).nL = s.nL :=
  State.jobDone_nL ..
@[simp] theorem State.afterJob_dl (j : Job) (s : State) : (s.afterJob j).dl = s.dl :=
  State.jobDone_dl ..
@[simp] theorem State.afterJob_dgl (j : Job) (s : State) : (s.afterJob j).dgl = s.dgl :=
  State.jobDone_dgl ..
@[simp] theorem State.afterJob_host (j : Job) (s : State) : (s.afterJob j).host = s.host :=
  State.jobDone_host ..
@[simp] theorem State.afterJob_resp (j : Job) (s : State) : (s.afterJob j).resp = s.resp :=
  State.jobDone_resp ..
@[simp] theorem State.afterJob_data (j : Job) (s : State) : (s.afterJob j).data = s.data :=
  State.jobDone_data ..
@[simp] theorem State.afterJob_chain (j : Job) (s : State) :
    (s.afterJob j).chain = compress (s.baseChain j.base) (s.jobBlock j.src) := State.jobDone_chain ..
@[simp] theorem State.afterJob_ihash (j : Job) (s : State) :
    (s.afterJob j).ihash = if j.save then compress (s.baseChain j.base) (s.jobBlock j.src) else s.ihash :=
  State.jobDone_ihash ..
@[simp] theorem State.afterJob_eph (j : Job) (s : State) :
    (s.afterJob j).eph = if s.furtherJob then .load else .idle := State.jobDone_eph ..
@[simp] theorem State.afterJob_jobIdx (j : Job) (s : State) :
    (s.afterJob j).jobIdx = if s.furtherJob then s.jobIdx + 1 else s.jobIdx := State.jobDone_jobIdx ..
@[simp] theorem State.afterJob_jobs (j : Job) (s : State) : (s.afterJob j).jobs = s.jobs :=
  State.jobDone_jobs ..

/-- R92, R178: the edge of a job's ADD, for the working registers `w` the rounds left. -/
theorem step_last_add {s : State} {j : Job} (hc : s.cph = .run) (hh : s.host = []) (hr : s.resp = none)
    (hj : s.currentJob = some j) (l : State) (hl : l = s.doLoad j) (w : Quad) :
    step { l with work := w, rnd := 63, eph := .add } =
      .next (controllerEdge (!s.furtherJob)
        (s.jobDone ((s.baseChain j.base).add w) w (s.jobBlock j.src) j)) := by
  subst hl
  generalize hv : ({ s.doLoad j with work := w, rnd := 63, eph := .add } : State) = v
  have hfurther : v.furtherJob = s.furtherJob := by subst hv; rfl
  have hcur : v.currentJob = some j := by subst hv; exact hj
  have hlast : v.lastCycle = !s.furtherJob := by
    have hne : v.jobs ≠ [] := by
      intro h
      simp [State.currentJob, h] at hcur
    have hcv : v.cph = .run := by subst hv; exact hc
    have hpv : v.eph = .add := by subst hv; rfl
    simp [State.lastCycle, hcv, hpv, hne, hfurther]
  rw [step_quiet (by rw [← hv]; exact hh) (by rw [← hv]; exact hr), hlast]
  have hpv : v.eph = .add := by subst hv; rfl
  simp only [hpv, State.engineStep, State.doAdd, hcur, hfurther]
  subst hv
  rfl

theorem jobs_ne_nil {s : State} {j : Job} (hj : s.currentJob = some j) : s.jobs ≠ [] := by
  intro h
  simp [State.currentJob, h] at hj

/-- R91, R175: the edge of a job's LOAD. -/
theorem step_load {s : State} {j : Job} (hh : s.host = []) (hr : s.resp = none)
    (hj : s.currentJob = some j) (hp : s.eph = .load) : step s = .next (s.doLoad j) := by
  have hl : s.lastCycle = false := by simp [State.lastCycle, hp, jobs_ne_nil hj]
  rw [step_quiet hh hr, hp, hl]
  simp only [State.engineStep, hj]
  rfl

theorem afterJob_eq {s : State} {j : Job} {w : Quad}
    (hw : roundsUpTo (s.baseChain j.base) (s.jobBlock j.src) 64 = w) :
    s.afterJob j = s.jobDone ((s.baseChain j.base).add w) w (s.jobBlock j.src) j := by
  have hc : compress (s.baseChain j.base) (s.jobBlock j.src) = (s.baseChain j.base).add w := by
    unfold compress
    rw [hw]
  rw [State.afterJob, hc, hw]

/-- R93, R95, R175: a compression job takes 66 cycles and leaves `Compress` of its block in the chaining
registers; after the last job the completion writes come at the same edge (R178). -/
theorem job_run {s : State} {j : Job} (hb : s.busy = true) (hc : s.cph = .run) (hh : s.host = [])
    (hr : s.resp = none) (hj : s.currentJob = some j) (hp : s.eph = .load) :
    BusyRun 66 s (controllerEdge (!s.furtherJob) (s.afterJob j)) := by
  obtain ⟨w, hw⟩ : ∃ w, w = roundsUpTo (s.baseChain j.base) (s.jobBlock j.src) 64 := exists_eq
  have hadd := step_last_add hc hh hr hj (s.doLoad j) rfl w
  rw [← afterJob_eq hw.symm] at hadd
  have hrounds : BusyRun 64 (s.doLoad j) { s.doLoad j with work := w, rnd := 63, eph := .add } :=
    all_rounds_run (s := s.doLoad j) hb hh hr (jobs_ne_nil hj) (State.doLoad_eph j s) (State.doLoad_rnd j s) w hw.symm
  exact (BusyRun.single hb (step_load hh hr hj hp)).trans (hrounds.trans (BusyRun.single hb hadd))

end Sys2Proof.Machine
end

