-- ==== Sys2Proof/Laws/Commands.lean ====
section
/-! SUPPORT. Each accepted command, run to its completion, ends in the atomic effect of its rule (R8, R177, R178),
whatever accesses the host makes meanwhile. -/

namespace Sys2Proof.Machine

/-- The edge of a cycle in which a command runs: the access reaches nothing internal, then engine and
controller. -/
theorem step_busy {s t : State} (hb : s.busy = true) (hr : s.busIn.rstN = true) (h : step s = .next t) :
    ∃ v u : State, v.internals = s.internals ∧ v.engineStep s.eph s.rnd = some u ∧
      t = controllerEdge s.lastCycle u := by
  obtain ⟨v, hv, hs⟩ := step_served hr
  obtain ⟨w, hw, hwi⟩ := hostEdge_busy (c := s.busIn) (s := s.popHost) hb
  rw [hv] at hw
  cases hw
  rw [hs] at h
  cases he : v.engineStep s.eph s.rnd with
  | none => rw [he] at h; cases h
  | some u =>
    rw [he] at h
    cases h
    exact ⟨v, u, hwi, he, rfl⟩

/-- R29: the latched opcode stays while the command runs. -/
theorem step_busy_opL {s t : State} (hb : s.busy = true) (hr : s.busIn.rstN = true)
    (h : step s = .next t) : t.opL = s.opL := by
  obtain ⟨v, u, hi, he, rfl⟩ := step_busy hb hr h
  have hu : u.opL = s.opL := by rw [engineStep_frame he, eq_of_internals hi.symm]
  cases s.lastCycle with
  | false => exact hu
  | true =>
    change (finish u).opL = s.opL
    rw [finish_frame]
    exact hu

/-- R178: a busy run that ends with BUSY = 0 ends with DONE = 1. -/
theorem BusyRun.done {k : Nat} {s u : State} (h : BusyRun k s u) (hb : s.busy = true)
    (hop : s.opL.toNat < 8) (hs : s.served k) (hu : u.busy = false) : u.done = true := by
  induction k generalizing s with
  | zero => cases h; rw [hb] at hu; cases hu
  | succ k ih =>
    obtain ⟨-, t, ht, hr⟩ := h
    cases htb : t.busy with
    | true =>
      exact ih hr htb (by rw [step_busy_opL hb (served_busIn hs) ht]; exact hop) (step_keeps_served hs ht)
    | false =>
      cases k with
      | zero => cases hr; exact step_clears_busy_sets_done hb hop (served_busIn hs) ht hu
      | succ k => obtain ⟨hb', -⟩ := hr; rw [htb] at hb'; cases hb'

/-- The command rules' registers but for DONE belong to the internal part. -/
theorem cmdState_of_internals {u f : State} (h : u.internals = f.internals) (hd : u.done = true) :
    u.cmdState = { f.cmdState with done := true } := by
  rw [eq_of_internals h.symm]
  simp [State.cmdState, hd]

/-! ### The job sequences without host accesses -/

theorem run_no_job {s : State} (hb : s.busy = true) (hc : s.cph = .run) (hh : s.host = [])
    (hr : s.resp = none) (hj : s.jobs = []) (hp : s.eph = .idle) : BusyRun 1 s (finish s) := by
  refine BusyRun.single hb ?_
  have hl : s.lastCycle = true := by simp [State.lastCycle, hc, hj]
  rw [step_quiet hh hr, hp, hl]
  rfl

theorem run_last_job {s : State} {j : Job} (hb : s.busy = true) (hc : s.cph = .run) (hh : s.host = [])
    (hr : s.resp = none) (hj : s.currentJob = some j) (hp : s.eph = .load) (hf : s.furtherJob = false) :
    BusyRun 66 s (finish (s.afterJob j)) := by
  have h := job_run hb hc hh hr hj hp
  rwa [hf, Bool.not_false, controllerEdge_true] at h

theorem run_job {s : State} {j : Job} (hb : s.busy = true) (hc : s.cph = .run) (hh : s.host = [])
    (hr : s.resp = none) (hj : s.currentJob = some j) (hp : s.eph = .load) (hf : s.furtherJob = true) :
    BusyRun 66 s (s.afterJob j) := by
  have h := job_run hb hc hh hr hj hp
  rwa [hf, Bool.not_true, controllerEdge_false] at h

/-- A state in which the first job of the list is about to be loaded. -/
structure Ready (s : State) : Prop where
  busy : s.busy = true
  run : s.cph = .run
  host : s.host = []
  resp : s.resp = none
  load : s.eph = .load

theorem Ready.after {s : State} (h : Ready s) (j : Job) (hf : s.furtherJob = true) : Ready (s.afterJob j) :=
  ⟨(State.afterJob_busy j s).trans h.busy, (State.afterJob_cph j s).trans h.run, (State.afterJob_host j s).trans h.host,
    (State.afterJob_resp j s).trans h.resp, by simp [hf]⟩

theorem Ready.last {s : State} {j : Job} (h : Ready s) (hj : s.currentJob = some j)
    (hf : s.furtherJob = false) : BusyRun 66 s (finish (s.afterJob j)) :=
  run_last_job h.busy h.run h.host h.resp hj h.load hf

theorem Ready.next {s : State} {j : Job} (h : Ready s) (hj : s.currentJob = some j)
    (hf : s.furtherJob = true) : BusyRun 66 s (s.afterJob j) :=
  run_job h.busy h.run h.host h.resp hj h.load hf

/-- The state after all jobs of the list from the current one, before the completion writes. -/
def State.afterJobs (s : State) : List Job → State
  | [] => s
  | j :: js => (s.afterJob j).afterJobs js

theorem afterJobs_opL (js : List Job) (s : State) : (s.afterJobs js).opL = s.opL := by
  induction js generalizing s with
  | nil => rfl
  | cons j js ih => exact (ih _).trans (State.afterJob_opL j s)

/-- R175, R177: the jobs run one after the other, 66 cycles each, and the completion writes come at the last
ADD. -/
theorem jobs_run {js : List Job} (hne : js ≠ []) {s : State} (h : Ready s)
    (hj : s.jobs.drop s.jobIdx = js) : BusyRun (66 * js.length) s (finish (s.afterJobs js)) := by
  induction js generalizing s with
  | nil => exact absurd rfl hne
  | cons j js ih =>
    have hcur : s.currentJob = some j := by
      have := congrArg List.head? hj
      simpa [State.currentJob, List.head?_drop] using this
    have hlen : s.jobs.length - s.jobIdx = js.length + 1 := by
      have := congrArg List.length hj
      simpa using this
    cases js with
    | nil =>
      have hf : s.furtherJob = false := by
        simp only [State.furtherJob, decide_eq_false_iff_not]
        simp at hlen
        omega
      exact h.last hcur hf
    | cons j' js' =>
      have hf : s.furtherJob = true := by
        simp only [State.furtherJob, decide_eq_true_eq]
        simp at hlen
        omega
      have htail : (s.afterJob j).jobs.drop (s.afterJob j).jobIdx = j' :: js' := by
        rw [State.afterJob_jobs, State.afterJob_jobIdx, if_pos hf, ← List.drop_drop, hj]
        rfl
      have := (h.next hcur hf).trans (ih (by simp) (h.after j hf) htail)
      have hl : 66 * (j :: j' :: js').length = 66 + 66 * (j' :: js').length := by
        simp only [List.length_cons]; omega
      rw [hl]
      exact this

/-- What the accepted command works on when the host makes no access. -/
def State.accepted (op : BitVec 4) (n : BitVec 7) (s : State) : State := (s.accept op n).quiet

theorem accepted_ready {op : BitVec 4} {n : BitVec 7} (hj : jobList op n ≠ []) (s : State) :
    Ready (s.accepted op n) :=
  ⟨rfl, rfl, rfl, rfl, by simp [State.accepted, State.quiet, hj]⟩

/-- R176 to R179: an accepted command takes its latency and ends in its completion writes. -/
theorem accepted_run (op : BitVec 4) (n : BitVec 7) (s : State) :
    BusyRun (latency op n) (s.accepted op n) (finish ((s.accepted op n).afterJobs (jobList op n))) := by
  unfold latency
  split_ifs with hj
  · rw [hj]
    exact run_no_job rfl rfl rfl rfl hj (by simp [State.accepted, State.quiet, hj])
  · exact jobs_run hj (accepted_ready hj s) rfl

/-- R8, R94: from acceptance, whatever the host does, the command takes its latency and leaves the internal
part as its jobs and completion writes give it, with DONE = 1. -/
theorem accept_completes {op : BitVec 4} (hop : op.toNat < 8) (n : BitVec 7) {s : State}
    (hs : s.served (latency op n)) :
    ∃ u, BusyRun (latency op n) (s.accept op n) u ∧ u.host = s.host.drop (latency op n) ∧
      u.internals = (finish ((s.accepted op n).afterJobs (jobList op n))).internals ∧
      u.cmdState = { (finish ((s.accepted op n).afterJobs (jobList op n))).cmdState with done := true } := by
  obtain ⟨u, hu, hui⟩ := (accepted_run op n s).transfer (s := s.accept op n) rfl hs
    (fun c hc => by simp [State.accepted, State.quiet] at hc)
  refine ⟨u, hu, hu.host hs, hui, cmdState_of_internals hui (hu.done rfl hop hs ?_)⟩
  have hb := (finish_complete (s := (s.accepted op n).afterJobs (jobList op n))
    (by rw [afterJobs_opL]; exact hop)).1
  rw [eq_of_internals hui.symm]
  exact hb

/-! ### The atomic effects -/

/-- R113: the two spellings of `L = (BITLEN + 8*n) mod 2^64`. -/
theorem finalLen_eq (s : State) : s.finalLen = s.cmdState.finalLen s.nL := by
  apply BitVec.eq_of_toNat_eq
  have := s.nL.isLt
  simp [State.finalLen, CmdState.finalLen, State.cmdState, BitVec.toNat_add, BitVec.toNat_mul]

theorem tail_length (b : Block) {n : BitVec 7} (h : n.toNat ≤ 63) :
    ((blockBytes b).take n.toNat).length = n.toNat := by
  rw [List.length_take, blockBytes_length]
  omega

theorem padTail_short {t : List Byte} (h : t.length ≤ 55) (l : BitVec 64) :
    ∃ b, padTail t l = [b] := by simp [padTail, h]

theorem padTail_long {t : List Byte} (h : ¬ t.length ≤ 55) (l : BitVec 64) :
    ∃ b c, padTail t l = [b, c] := by simp [padTail, h]

/-! What a job reads, in terms of the registers that stay while a command runs. -/

theorem jobBlock_dl (s : State) : s.jobBlock .dl = s.dl := rfl

theorem jobBlock_p1 (s : State) : s.jobBlock .p1 =
    (padTail ((blockBytes s.dl).take s.nL.toNat) (s.cmdState.finalLen s.nL)).getD 0 Block.zero := by
  rw [← finalLen_eq]
  rfl

theorem jobBlock_p2 (s : State) : s.jobBlock .p2 =
    (padTail ((blockBytes s.dl).take s.nL.toNat) (s.cmdState.finalLen s.nL)).getD 1 Block.zero := by
  rw [← finalLen_eq]
  rfl

theorem jobBlock_ipad (s : State) : s.jobBlock .ipad = ipadBlock s.k0 := rfl

theorem jobBlock_opad (s : State) : s.jobBlock .opad = opadBlock s.k0 := rfl

theorem jobBlock_t (s : State) : s.jobBlock .t = outerTail s.ihash := rfl

theorem baseChain_iv (s : State) : s.baseChain .iv = Config.iv := rfl

theorem baseChain_chain (s : State) : s.baseChain .chain = s.chain := rfl

theorem finalLen_bitlen (n : BitVec 7) (x : CmdState) :
    x.finalLen n = BitVec.ofNat 64 ((x.bitlen.toNat + 8 * n.toNat) % 2 ^ 64) := rfl

theorem cmdState_bitlen (s : State) : s.cmdState.bitlen = s.bitlen := rfl

/-- R113, R134, R177: the padding jobs compress `PadTail` in order: one block for n ≤ 55. -/
theorem compressTail_short {dl : Block} {n : BitVec 7} (h : n.toNat ≤ 55) (l : BitVec 64) (c : Quad) :
    compressTail dl n l c = compress c ((padTail ((blockBytes dl).take n.toNat) l).getD 0 Block.zero) := by
  obtain ⟨b, hb⟩ := padTail_short (t := (blockBytes dl).take n.toNat)
    (by rw [tail_length dl (by omega)]; exact h) l
  rw [compressTail, hb]
  rfl

/-- R113, R134, R177: and two for n ≥ 56. -/
theorem compressTail_long {dl : Block} {n : BitVec 7} (h : ¬ n.toNat ≤ 55) (h' : n.toNat ≤ 63)
    (l : BitVec 64) (c : Quad) :
    compressTail dl n l c = compress
      (compress c ((padTail ((blockBytes dl).take n.toNat) l).getD 0 Block.zero))
      ((padTail ((blockBytes dl).take n.toNat) l).getD 1 Block.zero) := by
  obtain ⟨b, b', hb⟩ := padTail_long (t := (blockBytes dl).take n.toNat)
    (by rw [tail_length dl h']; exact h) l
  rw [compressTail, hb]
  rfl

/-- The registers the completion writes read and leave, before and after them. -/
theorem finish_cmdState {s : State} (op : BitVec 4) (ho : s.opL = op) :
    (finish s).cmdState = match op.toNat with
      | 0x0 => s.cmdState.complete
      | 0x1 => { s.cmdState with chain := Config.iv, bitlen := 0, hmacActive := false }.complete
      | 0x2 => { s.cmdState with bitlen := s.bitlen + 512 }.complete
      | 0x3 => { s.cmdState with bitlen := s.cmdState.finalLen s.nL, digest := s.chain }.complete
      | 0x4 => { s.cmdState with k0 := keyBlock s.dl s.nL.toNat, keyValid := true }.complete
      | 0x5 => { s.cmdState with k0 := digestKeyBlock s.dgl, keyValid := true }.complete
      | 0x6 => { s.cmdState with bitlen := 512, hmacActive := true }.complete
      | 0x7 => { s.cmdState with
          digest := s.chain, bitlen := 640, hmacActive := false, keyValid := false
          k0 := Block.zero }.complete
      | _ => s.cmdState := by
  rw [← finalLen_eq, finish, ho]
  generalize op.toNat = k
  rcases k with _ | _ | _ | _ | _ | _ | _ | _ | k <;> rfl

@[simp] theorem accepted_dl (op : BitVec 4) (n : BitVec 7) (s : State) : (s.accepted op n).dl = s.data := rfl
@[simp] theorem accepted_dgl (op : BitVec 4) (n : BitVec 7) (s : State) :
    (s.accepted op n).dgl = s.digest := rfl
@[simp] theorem accepted_nL (op : BitVec 4) (n : BitVec 7) (s : State) : (s.accepted op n).nL = n := rfl
@[simp] theorem accepted_opL (op : BitVec 4) (n : BitVec 7) (s : State) : (s.accepted op n).opL = op := rfl
@[simp] theorem accepted_k0 (op : BitVec 4) (n : BitVec 7) (s : State) : (s.accepted op n).k0 = s.k0 := rfl
@[simp] theorem accepted_chain (op : BitVec 4) (n : BitVec 7) (s : State) :
    (s.accepted op n).chain = s.chain := rfl
@[simp] theorem accepted_ihash (op : BitVec 4) (n : BitVec 7) (s : State) :
    (s.accepted op n).ihash = s.ihash := rfl
@[simp] theorem accepted_bitlen (op : BitVec 4) (n : BitVec 7) (s : State) :
    (s.accepted op n).bitlen = s.bitlen := rfl
@[simp] theorem accepted_digest (op : BitVec 4) (n : BitVec 7) (s : State) :
    (s.accepted op n).digest = s.digest := rfl
@[simp] theorem accepted_keyValid (op : BitVec 4) (n : BitVec 7) (s : State) :
    (s.accepted op n).keyValid = s.keyValid := rfl
@[simp] theorem accepted_hmacActive (op : BitVec 4) (n : BitVec 7) (s : State) :
    (s.accepted op n).hmacActive = s.hmacActive := rfl

/-- R8: the atomic effect of the command with opcode `op`, length `n` and the latched `dl` and `dgl`. -/
def atomicEffect (op : BitVec 4) (n : BitVec 7) (dl : Block) (dgl : Quad) (x : CmdState) : CmdState :=
  match op.toNat with
  | 0x0 => atomicNop x
  | 0x1 => atomicMd5Init x
  | 0x2 => atomicMd5Update dl x
  | 0x3 => atomicMd5Final dl n x
  | 0x4 => atomicHmacSetkey dl n x
  | 0x5 => atomicHmacSetkeyDigest dgl x
  | 0x6 => atomicHmacInit x
  | 0x7 => atomicHmacFinal dl n x
  | _ => x

/-- R8, R177: "The job list and completion writes of each command give exactly the atomic effect stated in its
rule". -/
theorem jobs_give_atomicEffect {op : BitVec 4} (hop : op.toNat < 8) {n : BitVec 7}
    (hn : op = 3 ∨ op = 7 → n.toNat ≤ 63) (s : State) :
    { (finish ((s.accepted op n).afterJobs (jobList op n))).cmdState with done := true } =
      atomicEffect op n s.data s.digest s.cmdState := by
  have hcases : op = 0 ∨ op = 1 ∨ op = 2 ∨ op = 3 ∨ op = 4 ∨ op = 5 ∨ op = 6 ∨ op = 7 := by
    revert hop; clear hn; revert op; decide
  rcases hcases with rfl | rfl | rfl | rfl | rfl | rfl | rfl | rfl
  · rw [finish_cmdState 0 rfl]; rfl
  · rw [finish_cmdState 1 rfl]; rfl
  · rw [finish_cmdState 2 (afterJobs_opL _ _)]
    simp [jobList, State.afterJobs, State.cmdState, CmdState.complete, atomicEffect, atomicMd5Update,
      jobBlock_dl, baseChain_chain]
  · rw [finish_cmdState 3 (afterJobs_opL _ _)]
    have h63 := hn (.inl rfl)
    by_cases h : n.toNat ≤ 55
    · simp [jobList, h, State.afterJobs, State.cmdState, CmdState.complete, atomicEffect, atomicMd5Final,
        jobBlock_p1, baseChain_chain, compressTail_short h, finalLen_bitlen]
    · simp [jobList, h, State.afterJobs, State.cmdState, CmdState.complete, atomicEffect, atomicMd5Final,
        jobBlock_p1, jobBlock_p2, baseChain_chain, compressTail_long h h63, finalLen_bitlen]
  · rw [finish_cmdState 4 rfl]; rfl
  · rw [finish_cmdState 5 rfl]; rfl
  · rw [finish_cmdState 6 (afterJobs_opL _ _)]
    simp [jobList, State.afterJobs, State.cmdState, CmdState.complete, atomicEffect, atomicHmacInit,
      jobBlock_ipad, baseChain_iv]
  · rw [finish_cmdState 7 (afterJobs_opL _ _)]
    have h63 := hn (.inr rfl)
    by_cases h : n.toNat ≤ 55
    · simp [jobList, h, State.afterJobs, State.cmdState, CmdState.complete, atomicEffect, atomicHmacFinal,
        outerHash, jobBlock_p1, jobBlock_opad, jobBlock_t, baseChain_chain, baseChain_iv,
        compressTail_short h, finalLen_bitlen]
    · simp [jobList, h, State.afterJobs, State.cmdState, CmdState.complete, atomicEffect, atomicHmacFinal,
        outerHash, jobBlock_p1, jobBlock_p2, jobBlock_opad, jobBlock_t, baseChain_chain, baseChain_iv,
        compressTail_long h h63, finalLen_bitlen]

/-- R8, R94: from acceptance, whatever accesses the host makes, the command takes its latency, with BUSY = 1
before each of its edges, and ends in its atomic effect. -/
theorem accept_atomicEffect {op : BitVec 4} (hop : op.toNat < 8) {n : BitVec 7}
    (hn : op = 3 ∨ op = 7 → n.toNat ≤ 63) {s : State} (hs : s.served (latency op n)) :
    ∃ u, BusyRun (latency op n) (s.accept op n) u ∧ u.host = s.host.drop (latency op n) ∧
      u.cmdState = atomicEffect op n s.data s.digest s.cmdState := by
  obtain ⟨u, hu, hus, -, hc⟩ := accept_completes hop n hs
  exact ⟨u, hu, hus, hc.trans (jobs_give_atomicEffect hop hn s)⟩

end Sys2Proof.Machine
end

