-- ==== Sys2Proof/Laws/Frames.lean ====
section
/-! SUPPORT. What the parts of one clock edge leave alone, and what the job lists say about the second padding
block: the pieces from which rules of the whole machine are put together. -/

namespace Sys2Proof.Machine

/-- R174: an edge with `rst_n` = 1 that answers a next state, taken apart. -/
theorem step_parts {s t : State} (hr : s.busIn.rstN = true) (h : step s = .next t) :
    ∃ v u, hostEdge s.busIn s.popHost = .next v ∧ v.engineStep s.eph s.rnd = some u ∧
      t = controllerEdge s.lastCycle u := by
  obtain ⟨v, hv, hs⟩ := step_served hr
  rw [hs] at h
  cases he : v.engineStep s.eph s.rnd with
  | none => rw [he] at h; cases h
  | some u => rw [he] at h; cases h; exact ⟨v, u, hv, he, rfl⟩

/-- R46 to R49, R150: the registers that no access of the host writes, and the ones it writes. -/
theorem hostEdge_frame {c : BusIn} {s v : State} (h : hostEdge c s = .next v) :
    v.digest = s.digest ∧ v.bitlen = s.bitlen ∧ v.k0 = s.k0 ∧ v.keyValid = s.keyValid ∧
    v.hmacActive = s.hmacActive ∧ v.chain = s.chain ∧ v.m = s.m ∧
    (v.data = s.data ∨ ∃ off w, c.access = .write off w ∧ 0x040 ≤ off.toNat ∧ off.toNat ≤ 0x07C) ∧
    (v.ctrl = s.ctrl ∨ ∃ w, c.access = .command w ∧ v.ctrl = w) ∧ (s.busy = true → v.opL = s.opL) := by
  unfold hostEdge at h
  cases ha : c.access with
  | none => rw [ha] at h; cases h; simp
  | bad w => rw [ha] at h; cases h; simp [State.respond]
  | read o => rw [ha] at h; cases h; simp [State.respond]
  | write off w =>
    rw [ha] at h
    cases h
    unfold State.busWrite
    split_ifs with h1 h2 h3 <;> simp [State.respond, State.writeStatus, State.writeIrqEn]
    exact .inr h3
  | command w =>
    rw [ha] at h
    simp only [busEdge, exec_decodeCmd, andThen_next] at h
    cases h
    rcases issue_cases w (opOf w) (fieldsOf w).len s with ⟨c, -, hi⟩ | ⟨hn, hi⟩
    · rw [hi]; simp [State.respond]
    · rw [hi]; have := (rejection_none hn).1; simp [State.respond, State.accept, this]

/-- R178: the controller writes neither ERR nor ERRCODE. -/
theorem controllerEdge_err (last : Bool) (u : State) :
    (controllerEdge last u).err = u.err ∧ (controllerEdge last u).errcode = u.errcode := by
  cases last with
  | false => exact ⟨rfl, rfl⟩
  | true => rw [controllerEdge_true, finish_frame]; exact ⟨rfl, rfl⟩

theorem lastCycle_run {s : State} (h : s.lastCycle = true) : s.cph = .run := by
  simp only [State.lastCycle, Bool.and_eq_true, beq_iff_eq] at h
  exact h.1

/-! ### The second padding block in the job lists (R177) -/

theorem p2_not_first (op : BitVec 4) (n : BitVec 7) :
    (jobList op n).any (·.src == .p2) = ((jobList op n).drop 1).any (·.src == .p2) := by
  have : op.toNat < 16 := op.isLt
  unfold jobList
  generalize op.toNat = k at *
  interval_cases k <;> simp <;> split_ifs <;> rfl

theorem no_p2_two_jobs_on (op : BitVec 4) (n : BitVec 7) (i : Nat) (j : Job)
    (h : (jobList op n)[i]? = some j) : ((jobList op n).drop (i + 2)).any (·.src == .p2) = false := by
  have : op.toNat < 16 := op.isLt
  unfold jobList at *
  generalize op.toNat = k at *
  interval_cases k <;> simp at h ⊢ <;> (try split_ifs at h ⊢) <;>
    (try (rcases i with _ | _ | _ | _ | i <;> simp at h ⊢))

theorem p2_only_after_p1 (op : BitVec 4) (n : BitVec 7) (i : Nat) (j : Job)
    (h : (jobList op n)[i]? = some j) (hj : ¬ j.src = .p1) :
    ((jobList op n).drop (i + 2)).any (·.src == .p2) = ((jobList op n).drop (i + 1)).any (·.src == .p2) := by
  have : op.toNat < 16 := op.isLt
  unfold jobList at *
  generalize op.toNat = k at *
  interval_cases k <;> simp at h ⊢ <;> (try split_ifs at h ⊢) <;>
    (try (rcases i with _ | _ | _ | _ | i <;> simp at h ⊢ <;> (try subst h) <;> simp at hj ⊢))

end Sys2Proof.Machine
end

