-- ==== Sys2Proof/Laws/Host.lean ====
section
/-! SUPPORT. Host programs (R67 to R69): the step sees only the cycle at hand, and one rule for each kind of operation
says what a program that begins with it ends in, whatever the cycles in which the host is ready. -/

namespace Sys2Proof.Machine

/-! ### The step sees only the cycle at hand -/

theorem issue_setHost (v : Word) (op : BitVec 4) (n : BitVec 7) (l : List BusIn) (s : State) :
    State.issue v op n { s with host := l } = { s.issue v op n with host := l } := by
  have hr : rejection op n { s with host := l } = rejection op n s := rfl
  unfold State.issue
  rw [hr]
  cases rejection op n s <;> rfl

theorem hostEdge_setHost {c : BusIn} {s v : State} (l : List BusIn) (h : hostEdge c s = .next v) :
    hostEdge c { s with host := l } = .next { v with host := l } := by
  unfold hostEdge at h ⊢
  cases ha : c.access with
  | none => rw [ha] at h; cases h; rfl
  | bad w => rw [ha] at h; cases h; rfl
  | read o => rw [ha] at h; cases h; rfl
  | write off w =>
    rw [ha] at h
    cases h
    simp only [busEdge, State.busWrite]
    split_ifs <;> rfl
  | command w =>
    rw [ha] at h
    simp only [busEdge, exec_decodeCmd, andThen_next] at h ⊢
    cases h
    rw [issue_setHost]
    rfl

theorem engineStep_setHost {p : EnginePhase} {i : BitVec 6} {s u : State} (l : List BusIn)
    (h : s.engineStep p i = some u) :
    State.engineStep p i { s with host := l } = some { u with host := l } := by
  cases p with
  | idle => cases h; rfl
  | load =>
    simp only [State.engineStep, Option.map_eq_some_iff] at h ⊢
    obtain ⟨j, hj, rfl⟩ := h
    exact ⟨j, hj, rfl⟩
  | round => cases h; rfl
  | add => cases h; rfl

theorem controllerEdge_setHost (last : Bool) (l : List BusIn) (s : State) :
    controllerEdge last { s with host := l } = { controllerEdge last s with host := l } := by
  cases last with
  | false => rfl
  | true =>
    simp only [controllerEdge_true, finish]
    split <;> rfl

/-- R174: a step depends on the first of the host's cycles alone, and leaves the others. -/
theorem step_setHost {s t : State} {c : BusIn} {l : List BusIn} (l' : List BusIn) (hc : c.rstN = true)
    (h : step { s with host := c :: l } = .next t) :
    step { s with host := c :: l' } = .next { t with host := l' } := by
  obtain ⟨v, u, hv, hu, rfl⟩ := step_parts (s := { s with host := c :: l }) hc h
  obtain ⟨v', hv', hs⟩ := step_served (s := { s with host := c :: l' }) hc
  have hv2 := hostEdge_setHost l' hv
  have : v' = { v with host := l' } := by
    have := hv'.symm.trans hv2
    cases this
    rfl
  subst this
  rw [hs, engineStep_setHost l' hu]
  exact congrArg Host.Outcome.next (controllerEdge_setHost _ _ _)

/-! ### Cycles without a write -/

/-- R46: the access is a full-word read, or there is none. -/
def BusIn.onlyReads (c : BusIn) : Prop := c.access = .none ∨ ∃ off, c.access = .read off

/-- R46: a cycle in which the host writes nothing leaves the registers that only the host or a rejection writes. -/
theorem step_onlyReads_frame {s t : State} (hr : s.busIn.rstN = true) (hc : s.busIn.onlyReads)
    (h : step s = .next t) :
    t.data = s.data ∧ t.ctrl = s.ctrl ∧ t.err = s.err ∧ t.errcode = s.errcode ∧ t.doneIe = s.doneIe ∧
      t.errIe = s.errIe := by
  obtain ⟨v, u, hv, hu, rfl⟩ := step_parts hr h
  have hvs : ∃ r k, v = { s.popHost with resp := r, freeCtr := k } := by
    unfold hostEdge at hv
    rcases hc with ha | ⟨off, ha⟩
    · rw [ha] at hv; cases hv; exact ⟨none, s.freeCtr, rfl⟩
    · rw [ha] at hv; cases hv; exact ⟨_, _, rfl⟩
  obtain ⟨r, k, rfl⟩ := hvs
  have hf := engineStep_frame hu
  generalize s.lastCycle = last
  cases last with
  | false => rw [controllerEdge_false, hf]; exact ⟨rfl, rfl, rfl, rfl, rfl, rfl⟩
  | true => rw [controllerEdge_true, finish_frame, hf]; exact ⟨rfl, rfl, rfl, rfl, rfl, rfl⟩

theorem onlyReads_idle : BusIn.idle.onlyReads := .inl rfl

theorem access_rd {off : BitVec 12} (h : off.extractLsb' 0 2 = 0) : (BusIn.rd off).access = .read off := by
  simp [BusIn.access, BusIn.rd, BusIn.fullWord, h]

theorem access_wr {off : BitVec 12} (v : Word) (h : off.extractLsb' 0 2 = 0) (h0 : off ≠ 0) :
    (BusIn.wr off v).access = .write off v := by
  have h0' : ¬ off = 0#12 := h0
  simp [BusIn.access, BusIn.wr, BusIn.fullWord, h, h0']

theorem access_command (v : Word) : (BusIn.wr 0x000 v).access = .command v := by
  simp [BusIn.access, BusIn.wr, BusIn.fullWord]

theorem onlyReads_status : (BusIn.rd 0x004).onlyReads := .inr ⟨0x004, access_rd (by decide)⟩

/-- R46, R94: what a command that runs while the host writes nothing leaves alone. -/
theorem BusyRun.onlyReads_frame {k : Nat} {s u : State} (h : BusyRun k s u) (hs : s.served k)
    (hc : ∀ c ∈ s.host.take k, c.onlyReads) (hk : k ≤ s.host.length) :
    u.data = s.data ∧ u.ctrl = s.ctrl ∧ u.err = s.err ∧ u.errcode = s.errcode ∧ u.doneIe = s.doneIe ∧
      u.errIe = s.errIe := by
  induction k generalizing s with
  | zero => cases h; exact ⟨rfl, rfl, rfl, rfl, rfl, rfl⟩
  | succ k ih =>
    obtain ⟨-, t, ht, hr⟩ := h
    cases hh : s.host with
    | nil => rw [hh] at hk; simp at hk
    | cons c cs =>
      have hb : s.busIn = c := by simp [State.busIn, hh]
      have hth : t.host = cs := by rw [step_host (served_busIn hs) ht, hh]; rfl
      obtain ⟨h1, h2, h3, h4, h5, h6⟩ := step_onlyReads_frame (served_busIn hs)
        (by rw [hb]; exact hc c (by rw [hh]; exact List.mem_cons_self)) ht
      obtain ⟨g1, g2, g3, g4, g5, g6⟩ := ih hr (step_keeps_served hs ht)
        (fun d hd => hc d (by rw [hh]; rw [hth] at hd; exact List.mem_cons_of_mem _ hd))
        (by rw [hth]; rw [hh] at hk; simpa using hk)
      exact ⟨g1.trans h1, g2.trans h2, g3.trans h3, g4.trans h4, g5.trans h5, g6.trans h6⟩

/-! ### An idle block -/

/-- R164, R176: no command runs. -/
structure Idle (s : State) : Prop where
  busy : s.busy = false
  cph : s.cph = .idle
  eph : s.eph = .idle

/-- R164: in a cycle of an idle block only the host's access has an effect. -/
theorem Idle.step {s v : State} (hi : Idle s) (hr : s.busIn.rstN = true)
    (h : hostEdge s.busIn s.popHost = .next v) : Machine.step s = .next v := by
  obtain ⟨v', hv', hs⟩ := step_served hr
  rw [h] at hv'
  cases hv'
  have hl : s.lastCycle = false := by simp [State.lastCycle, hi.cph]
  rw [hs, hi.eph, hl]
  rfl

theorem Idle.step_present {s v : State} {c : BusIn} (hi : Idle s) (hr : c.rstN = true)
    (h : hostEdge c s = .next v) : Machine.step (s.present c) = .next v := by
  have hi' : Idle (s.present c) := ⟨hi.busy, hi.cph, hi.eph⟩
  exact hi'.step hr h

theorem Idle.step_idle {s : State} (hi : Idle s) :
    Machine.step (s.present BusIn.idle) = .next { s with resp := none } := hi.step_present rfl rfl

/-! ### Rules for host programs -/

/-- Whatever the cycles in which the host is ready, and whatever answer stands on the ports before, the program does not
stop the machine, and when it is over the values read and the state are as `Q` says. -/
def Ends (ops : List HostOp) (r : List Word) (s : State) (Q : List Word → State → Prop) : Prop :=
  ∀ (x : Option Response) (sched : List Bool), ∃ h,
    HostRun.drive sched { prog := ops, reads := r, st := { s with resp := x } } = .next h ∧
      (h.prog = [] → Q h.reads h.st)

theorem drive_cons {b : Bool} {sched : List Bool} {h h' : HostRun} (hc : h.cycle b = .next h') :
    HostRun.drive (b :: sched) h = HostRun.drive sched h' := by rw [HostRun.drive, hc]

theorem cycle_notReady {h : HostRun} (hi : Idle h.st) :
    h.cycle false = .next { h with st := { h.st with resp := none } } := by
  unfold HostRun.cycle
  simp only [hi.step_idle]

theorem cycle_over {b : Bool} {r : List Word} {s : State} (hi : Idle s) :
    HostRun.cycle b { prog := [], reads := r, st := s } =
      .next { prog := [], reads := r, st := { s with resp := none } } := by
  unfold HostRun.cycle
  cases b <;> simp only [hi.step_idle]

theorem cycle_ready {op : HostOp} {ops : List HostOp} {r : List Word} {s t : State}
    (h : step (s.present op.busIn) = .next t) :
    HostRun.cycle true { prog := op :: ops, reads := r, st := s } =
      .next { prog := if op.ended t then ops else op :: ops, reads := r ++ op.result t, st := t } := by
  unfold HostRun.cycle
  simp only [h]

theorem Idle.setResp {s : State} (hi : Idle s) (x : Option Response) : Idle { s with resp := x } :=
  ⟨hi.busy, hi.cph, hi.eph⟩

/-- The empty program. -/
theorem ends_nil {r : List Word} {s : State} {Q : List Word → State → Prop} (hi : Idle s)
    (hq : ∀ x, Q r { s with resp := x }) : Ends [] r s Q := by
  intro x sched
  induction sched generalizing x with
  | nil => exact ⟨_, rfl, fun _ => hq x⟩
  | cons b bs ih =>
    rw [drive_cons (cycle_over (hi.setResp x))]
    exact ih none

/-- A program that begins with an operation of one access, in an idle block: only the cycle in which the access is
presented counts. -/
theorem ends_access {op : HostOp} {ops : List HostOp} {r : List Word} {s : State}
    {Q : List Word → State → Prop} (hi : Idle s) (hrst : op.busIn.rstN = true)
    (h : ∀ x, ∃ t, hostEdge op.busIn { s with resp := x } = .next t ∧ op.ended t = true ∧
      ∀ sched, ∃ h', HostRun.drive sched { prog := ops, reads := r ++ op.result t, st := t } = .next h' ∧
        (h'.prog = [] → Q h'.reads h'.st)) :
    Ends (op :: ops) r s Q := by
  intro x sched
  induction sched generalizing x with
  | nil => exact ⟨_, rfl, fun h => by cases h⟩
  | cons b bs ih =>
    cases b with
    | false =>
      rw [drive_cons (cycle_notReady (hi.setResp x))]
      exact ih none
    | true =>
      obtain ⟨t, ht, he, hd⟩ := h x
      rw [drive_cons (cycle_ready ((hi.setResp x).step_present hrst ht)), he]
      exact hd bs

/-- R47, R48: `WR` of an offset other than CTRL's. -/
theorem ends_wr {off : BitVec 12} {v : Word} {ops : List HostOp} {r : List Word} {s : State}
    {Q : List Word → State → Prop} (hi : Idle s) (ha : off.extractLsb' 0 2 = 0) (h0 : off ≠ 0)
    (h : Ends ops r (s.busWrite off v) Q) : Ends (.wr off v :: ops) r s Q := by
  refine ends_access hi rfl fun x => ⟨(State.busWrite off v { s with resp := x }).respond false none, ?_, rfl, ?_⟩
  · simp only [HostOp.busIn, hostEdge, access_wr v ha h0, busEdge]
  · intro sched
    have hst : (State.busWrite off v { s with resp := x }).respond false none =
        { s.busWrite off v with resp := some { err := false, rdata := none } } := by
      simp only [State.busWrite]
      split_ifs <;> rfl
    rw [hst, HostOp.result, List.append_nil]
    exact h _ sched

/-- R46: `RD` while no command runs: a value for the program, and no change. -/
theorem ends_rd {off : BitVec 12} {ops : List HostOp} {r : List Word} {s : State}
    {Q : List Word → State → Prop} (hi : Idle s) (ha : off.extractLsb' 0 2 = 0)
    (h : Ends ops (r ++ [s.busRead off]) s Q) : Ends (.rd off :: ops) r s Q := by
  refine ends_access hi rfl fun x =>
    ⟨{ s with resp := some { err := false, rdata := some (s.busRead off) } }, ?_, rfl, ?_⟩
  · have hb : State.busRead off { s with resp := x } = s.busRead off := rfl
    unfold hostEdge HostOp.busIn
    rw [access_rd ha, busEdge, hb]
    simp [State.respond, hi.busy]
  · intro sched
    exact h _ sched

/-- R69: `LOADBLK` fills DATA with the words of the bytes. -/
theorem loadBlk_ends {s : State} (hi : Idle s) {Q : List Word → State → Prop} {ops : List HostOp} {r : List Word}
    (p : List Byte) (h : Ends ops r { s with data := words p } Q) : Ends (loadBlk p ++ ops) r s Q := by
  have hw : ∀ (j : BitVec 4) (w : Word) (t : State),
      t.busWrite (dataOff j) w = { t with data := t.data.set j w } := by
    intro j w t
    revert j
    apply forall_index <;> rfl
  have hoff : ∀ j : BitVec 4, (dataOff j).extractLsb' 0 2 = 0 ∧ dataOff j ≠ 0 := by decide
  have go : ∀ (js : List (BitVec 4)) (d : Block),
      Ends ops r { s with data := js.foldl (fun b j => b.set j ((words p).get j)) d } Q →
      Ends (js.map (fun j => HostOp.wr (dataOff j) ((words p).get j)) ++ ops) r { s with data := d } Q := by
    intro js
    induction js with
    | nil => intro d hd; exact hd
    | cons j js ih =>
      intro d hd
      refine ends_wr ⟨hi.busy, hi.cph, hi.eph⟩ (hoff j).1 (hoff j).2 ?_
      rw [hw]
      exact ih _ hd
  have := go [0, 1, 2, 3, 4, 5, 6, 7, 8, 9, 10, 11, 12, 13, 14, 15] s.data
    (by
      have hd : [0, 1, 2, 3, 4, 5, 6, 7, 8, 9, 10, 11, 12, 13, 14, 15].foldl
          (fun b j => b.set j ((words p).get j)) s.data = words p := by
        apply Block.ext_get
        apply forall_index <;> rfl
      rw [hd]
      exact h)
  exact this

/-- R69: `read DIGEST[0..3]`. -/
theorem readDigest_ends {s : State} (hi : Idle s) {Q : List Word → State → Prop} {r : List Word}
    (h : ∀ x, Q (r ++ [s.digest.a, s.digest.b, s.digest.c, s.digest.d]) { s with resp := x }) :
    Ends readDigest r s Q := by
  refine ends_rd hi (by decide) (ends_rd hi (by decide) (ends_rd hi (by decide) (ends_rd hi (by decide)
    (ends_nil hi fun x => ?_))))
  simpa [State.busRead, Quad.get] using h x

/-! ### A command and its WAIT -/

theorem status_bit0 (s : State) : s.statusWord.getLsbD 0 = s.busy := by
  simp only [State.statusWord]
  cases s.busy <;> simp [bitWord]

/-- R46, R174: what a read of STATUS answers. -/
theorem step_status {s t : State} (hb : s.busIn = BusIn.rd 0x004) (h : step s = .next t) :
    t.answered = some s.statusWord := by
  obtain ⟨v, u, hv, hu, rfl⟩ := step_parts (by rw [hb]; rfl) h
  have ha : s.busIn.access = .read 0x004 := by rw [hb]; exact access_rd (by decide)
  have hr : v.resp = some { err := false, rdata := some s.statusWord } := by
    unfold hostEdge at hv
    rw [ha] at hv
    cases hv
    rfl
  have hur : u.resp = v.resp := by rw [engineStep_frame hu]
  have : (controllerEdge s.lastCycle u).resp = v.resp := by
    cases s.lastCycle with
    | false => exact hur
    | true => rw [controllerEdge_true, finish_frame]; exact hur
  rw [State.answered, this, hr]
  rfl

/-- R69: a WAIT that reads STATUS is over exactly when the command is. -/
theorem wait_ended {s t : State} (hb : s.busIn = BusIn.rd 0x004) (h : step s = .next t) :
    HostOp.ended .wait t = !s.busy := by
  have hbit := status_bit0 s
  simp only [HostOp.ended, step_status hb h, Option.any_some, hbit]

/-- R46, R69: `WAIT` while no command runs. -/
theorem ends_wait {ops : List HostOp} {r : List Word} {s : State} {Q : List Word → State → Prop} (hi : Idle s)
    (h : Ends ops r s Q) : Ends (.wait :: ops) r s Q := by
  refine ends_access hi rfl fun x =>
    ⟨{ s with resp := some { err := false, rdata := some s.statusWord } }, ?_, ?_, ?_⟩
  · have hb : State.busRead 0x004 { s with resp := x } = s.statusWord := rfl
    unfold hostEdge HostOp.busIn
    rw [access_rd (by decide), busEdge, hb]
    simp [State.respond, hi.busy]
  · have hbit := status_bit0 s
    simp only [HostOp.ended, State.answered, Option.bind_some, Option.any_some, hbit, hi.busy, Bool.not_false]
  · intro sched
    rw [HostOp.result, List.append_nil]
    exact h _ sched

/-- The port values of a cycle of a WAIT. -/
def waitPort (b : Bool) : BusIn := bif b then BusIn.rd 0x004 else BusIn.idle

/-- The port values of `k` cycles of a WAIT. -/
def waitPorts : Nat → List Bool → List BusIn
  | 0, _ => []
  | k + 1, sched => waitPort (sched.headD false) :: waitPorts k sched.tail

theorem waitPorts_length (k : Nat) (sched : List Bool) : (waitPorts k sched).length = k := by
  induction k generalizing sched with
  | zero => rfl
  | succ k ih => simp [waitPorts, ih]

theorem waitPorts_reads {k : Nat} {sched : List Bool} {c : BusIn} (h : c ∈ waitPorts k sched) :
    c.onlyReads ∧ c.rstN = true := by
  induction k generalizing sched with
  | zero => cases h
  | succ k ih =>
    rw [waitPorts, List.mem_cons] at h
    rcases h with rfl | h
    · cases sched.headD false with
      | false => exact ⟨onlyReads_idle, rfl⟩
      | true => exact ⟨onlyReads_status, rfl⟩
    · exact ih h

/-- R69: while a command runs, a WAIT goes on; the block makes the command's run under it. -/
theorem drive_wait_busy {k : Nat} {sched : List Bool} {ops : List HostOp} {r : List Word} {t u : State}
    (h : BusyRun k { t with host := waitPorts k sched ++ t.host } u) :
    (∃ h', HostRun.drive sched { prog := .wait :: ops, reads := r, st := t } = .next h' ∧ h'.prog ≠ []) ∨
    HostRun.drive sched { prog := .wait :: ops, reads := r, st := t } =
      HostRun.drive (sched.drop k) { prog := .wait :: ops, reads := r, st := u } := by
  induction k generalizing sched t with
  | zero => cases h; exact .inr rfl
  | succ k ih =>
    cases sched with
    | nil => exact .inl ⟨_, rfl, List.cons_ne_nil _ _⟩
    | cons b bs =>
      obtain ⟨hb, v, hv, hr⟩ := h
      have hrst : (waitPort b).rstN = true := by cases b <;> rfl
      have hvh : v.host = waitPorts k bs ++ t.host :=
        step_host (s := { t with host := waitPort b :: (waitPorts k bs ++ t.host) }) hrst hv
      have hp : step (t.present (waitPort b)) = .next { v with host := t.host } :=
        step_setHost (l := waitPorts k bs ++ t.host) t.host hrst hv
      have hcyc : HostRun.cycle b { prog := .wait :: ops, reads := r, st := t } =
          .next { prog := .wait :: ops, reads := r, st := { v with host := t.host } } := by
        cases b with
        | false =>
          change step (t.present BusIn.idle) = _ at hp
          unfold HostRun.cycle
          simp only [hp]
        | true =>
          have he := wait_ended (s := t.present (BusIn.rd 0x004)) rfl hp
          rw [show (t.present (BusIn.rd 0x004)).busy = true from hb] at he
          rw [cycle_ready (op := .wait) hp, he, HostOp.result, List.append_nil]
          rfl
      have hvv : v = { ({ v with host := t.host } : State) with host := waitPorts k bs ++ t.host } := by
        rw [← hvh]
      rw [drive_cons hcyc]
      rw [hvv] at hr
      exact ih (t := { v with host := t.host }) hr

/-- R92, R175: after the last job the engine is idle. -/
theorem afterJobs_eph {js : List Job} (hne : js ≠ []) {s : State} (hj : s.jobs.drop s.jobIdx = js) :
    (s.afterJobs js).eph = .idle := by
  induction js generalizing s with
  | nil => exact absurd rfl hne
  | cons j js ih =>
    have hlen : s.jobs.length - s.jobIdx = js.length + 1 := by
      have := congrArg List.length hj
      simpa using this
    cases js with
    | nil =>
      have hf : s.furtherJob = false := by
        simp only [State.furtherJob, decide_eq_false_iff_not]
        simp at hlen
        omega
      change (s.afterJob j).eph = .idle
      simp [hf]
    | cons j' js' =>
      have hf : s.furtherJob = true := by
        simp only [State.furtherJob, decide_eq_true_eq]
        simp at hlen
        omega
      refine ih (s := s.afterJob j) (by simp) ?_
      rw [State.afterJob_jobs, State.afterJob_jobIdx, if_pos hf, ← List.drop_drop, hj]
      rfl

/-- R176, R178: a command's completion leaves the block idle. -/
theorem completed_idle {op : BitVec 4} (hop : op.toNat < 8) (n : BitVec 7) (s : State) :
    Idle (finish ((s.accepted op n).afterJobs (jobList op n))) := by
  obtain ⟨hb, -, hc⟩ := finish_complete (s := (s.accepted op n).afterJobs (jobList op n))
    (by rw [afterJobs_opL]; exact hop)
  refine ⟨hb, hc, ?_⟩
  rw [finish_frame]
  change ((s.accepted op n).afterJobs (jobList op n)).eph = .idle
  by_cases hj : jobList op n = []
  · rw [hj]
    simp [State.afterJobs, State.accepted, State.quiet, State.accept, hj]
  · exact afterJobs_eph hj rfl

/-- R8, R69, R179: `CMD` of a command that is accepted, and its WAIT: the program goes on in a state with the
command's atomic effect. -/
theorem ends_cmd_wait {op : BitVec 4} {n : BitVec 7} {ops : List HostOp} {r : List Word} {s : State}
    {Q : List Word → State → Prop} (hi : Idle s) (hn : rejection op n s = none)
    (h : ∀ u, Idle u → u.cmdState = atomicEffect op n s.data s.digest s.cmdState → u.data = s.data →
      u.err = s.err → u.errcode = s.errcode → u.doneIe = s.doneIe → u.errIe = s.errIe → u.host = s.host →
      Ends ops r u Q) : Ends (cmdOp op n :: .wait :: ops) r s Q := by
  obtain ⟨-, hop, hlen, -⟩ := rejection_none hn
  generalize hw : cmdWord op { len := n, rsvLo := 0, rsvHi := 0 } = w
  have hwo : opOf w = op := by rw [← hw]; exact opOf_cmdWord _ _
  have hwf : (fieldsOf w).len = n := by rw [← hw, fieldsOf_cmdWord]
  unfold cmdOp
  rw [hw]
  refine ends_access hi rfl fun x =>
    ⟨(State.accept op n { s with ctrl := w, resp := x }).respond false none, ?_, rfl, ?_⟩
  · have hx : rejection op n { s with resp := x } = none := hn
    unfold hostEdge HostOp.busIn
    rw [access_command]
    simp only [busEdge, exec_decodeCmd, andThen_next, hwo, hwf, State.issue, hx]
  · intro sched
    rw [HostOp.result, List.append_nil]
    generalize hs' : ({ s with
      ctrl := w, resp := some { err := false, rdata := none },
      host := waitPorts (latency op n) sched ++ s.host } : State) = s'
    have hsv : s'.served (latency op n) := by
      subst hs'
      intro c hc
      rw [List.take_left' (waitPorts_length _ _)] at hc
      exact (waitPorts_reads hc).2
    obtain ⟨u, hu, huh, hui, huc⟩ := accept_completes hop n hsv
    have huc := huc.trans (jobs_give_atomicEffect hop hlen s')
    have hf := hu.onlyReads_frame (s := s'.accept op n) hsv (by
      subst hs'
      intro c hc
      change c ∈ (waitPorts (latency op n) sched ++ s.host).take (latency op n) at hc
      rw [List.take_left' (waitPorts_length _ _)] at hc
      exact (waitPorts_reads hc).1) (by
      subst hs'
      change _ ≤ (waitPorts (latency op n) sched ++ s.host).length
      rw [List.length_append, waitPorts_length]
      omega)
    have hid : Idle u := by
      have hd := completed_idle hop n s'
      rw [eq_of_internals hui.symm]
      exact ⟨hd.busy, hd.cph, hd.eph⟩
    have huh' : u.host = s.host := by
      rw [huh]
      subst hs'
      exact List.drop_left' (waitPorts_length _ _)
    obtain ⟨f1, -, f3, f4, f5, f6⟩ := hf
    subst hs'
    have := h u hid huc f1 f3 f4 f5 f6 huh'
    obtain ⟨h', hd, hne⟩ | hd := drive_wait_busy (ops := ops) (r := r) (sched := sched)
      (t := (State.accept op n { s with ctrl := w, resp := x }).respond false none) (u := u) hu
    · exact ⟨h', hd, fun hp => absurd hp hne⟩
    · rw [hd]
      exact ends_wait hid this u.resp _

/-- R69: `LOADBLK`, `CMD` of a command that is accepted, and its WAIT. -/
theorem ends_loadBlk_cmd_wait {op : BitVec 4} {n : BitVec 7} {p : List Byte} {ops : List HostOp} {r : List Word}
    {s : State} {Q : List Word → State → Prop} (hi : Idle s) (hn : rejection op n s = none)
    (h : ∀ u, Idle u → u.cmdState = atomicEffect op n (words p) s.digest s.cmdState → u.data = words p →
      u.err = s.err → u.errcode = s.errcode → u.doneIe = s.doneIe → u.errIe = s.errIe → u.host = s.host →
      Ends ops r u Q) : Ends (loadBlk p ++ (cmdOp op n :: .wait :: ops)) r s Q :=
  loadBlk_ends hi p (ends_cmd_wait ⟨hi.busy, hi.cph, hi.eph⟩ hn h)

end Sys2Proof.Machine
end

