-- ==== Sys2Proof/Laws/Messages.lean ====
section
/-! SUPPORT. Messages as byte sequences (R114, R115, R135, R136): the document's digest and MAC in the terms the
commands compute them in, block by block. -/

namespace Sys2Proof.Machine

/-- Pieces of a list whose first part is a whole number of pieces. -/
theorem chunks_append (a b : Nat) (x y : List Byte) (h : x.length = 64 * a) :
    chunks (a + b) (x ++ y) = chunks a x ++ chunks b y := by
  induction a generalizing x with
  | zero =>
    have : x = [] := List.length_eq_zero_iff.1 (by simpa using h)
    subst this
    simp [chunks]
  | succ a ih =>
    rw [Nat.add_right_comm]
    simp only [chunks]
    rw [List.take_append_of_le_length (by omega), List.drop_append_of_le_length (by omega),
      ih _ (by simp; omega)]
    rfl

/-- Only the bytes of the pieces count. -/
theorem chunks_take (q : Nat) (m : List Byte) (h : 64 * q ≤ m.length) : chunks q (m.take (64*q)) = chunks q m := by
  induction q generalizing m with
  | zero => rfl
  | succ q ih =>
    simp only [chunks]
    rw [List.take_take, Nat.min_eq_left (by omega), List.drop_take]
    rw [show 64 * (q+1) - 64 = 64 * q by omega, ih _ (by simp; omega)]

/-- R69: the zero bytes LOADBLK pads with are what a missing byte reads as. -/
theorem words_short (p : List Byte) (k : Nat) : words (p ++ List.replicate k 0) = words p := by
  have : ∀ i, (p ++ List.replicate k (0:Byte)).getD i 0 = p.getD i 0 := by
    intro i
    rcases Nat.lt_or_ge i p.length with h | h
    · simp [List.getD_eq_getElem?_getD, List.getElem?_append_left h]
    · simp [List.getD_eq_getElem?_getD, List.getElem?_append_right h, List.getElem?_eq_none h,
        List.getElem?_replicate]
      split_ifs <;> rfl
  simp only [words, this]

/-- R113, R130: the first bytes of a block that was loaded from them. -/
theorem take_words (p : List Byte) (h : p.length ≤ 64) : (blockBytes (words p)).take p.length = p := by
  rw [← words_short p (64 - p.length), blockBytes_words _ (by simp; omega)]
  simp

/-- R115: a message, its 0x80, its zero bytes and the length field `L`. -/
def paddedWith (m : List Byte) (L : BitVec 64) : List Byte :=
  m ++ [0x80] ++ List.replicate ((119 - m.length % 64) % 64) 0x00 ++ le64 L

/-- R115: the full blocks of a message, compressed in order. -/
def foldBlocks (c : Quad) (m : List Byte) : Quad :=
  ((chunks (m.length / 64) m).map words).foldl compress c

theorem tailOf_length (m : List Byte) : (tailOf m).length = m.length % 64 := by
  simp [tailOf]; omega

/-- R114: PadTail's blocks are the pieces of the padded tail. -/
theorem padTail_chunks (t : List Byte) (L : BitVec 64) (h : t.length ≤ 63) :
    padTail t L = (chunks ((paddedWith t L).length / 64) (paddedWith t L)).map words := by
  unfold padTail paddedWith
  have hm : t.length % 64 = t.length := Nat.mod_eq_of_lt (by omega)
  by_cases h5 : t.length ≤ 55
  · rw [if_pos h5, hm]
    have e : (119 - t.length) % 64 = 55 - t.length := by omega
    rw [e]
    generalize hx : t ++ [0x80] ++ List.replicate (55 - t.length) 0 ++ le64 L = x
    have hl : x.length = 64 := by subst hx; simp; omega
    rw [hl]
    simp only [chunks, show 64 / 64 = 1 from rfl, List.map]
    rw [List.take_of_length_le (by omega)]
  · rw [if_neg h5, hm]
    have e : (119 - t.length) % 64 = (63 - t.length) + 56 := by omega
    rw [e, List.replicate_add]
    generalize hx : t ++ [0x80] ++ List.replicate (63 - t.length) 0 = x
    have hl : x.length = 64 := by subst hx; simp; omega
    have : t ++ [0x80] ++ (List.replicate (63 - t.length) 0 ++ List.replicate 56 0) ++ le64 L =
        x ++ (List.replicate 56 0 ++ le64 L) := by
      rw [← hx]
      simp
    rw [this]
    generalize hy : List.replicate 56 (0:Byte) ++ le64 L = y
    have hly : y.length = 64 := by subst hy; simp
    rw [show (x ++ y).length / 64 = 1 + 1 by simp [hl, hly], chunks_append 1 1 x y hl]
    simp only [chunks, List.map, List.cons_append, List.nil_append]
    rw [List.take_of_length_le (by omega), List.take_of_length_le (by omega)]

/-- R113, R114: the padded message is compressed block by block, then by PadTail of the tail. -/
theorem foldBlocks_padded (c : Quad) (m : List Byte) (L : BitVec 64) :
    foldBlocks c (paddedWith m L) = (padTail (tailOf m) L).foldl compress (foldBlocks c m) := by
  have ht := tailOf_length m
  have hm : m = m.take (64 * (m.length / 64)) ++ tailOf m := by simp [tailOf]
  have hfl : (m.take (64 * (m.length / 64))).length = 64 * (m.length / 64) := by simp; omega
  have hp : paddedWith m L = m.take (64 * (m.length / 64)) ++ paddedWith (tailOf m) L := by
    unfold paddedWith
    rw [ht, Nat.mod_mod, ← List.append_assoc, ← List.append_assoc, ← List.append_assoc, ← hm]
  rw [padTail_chunks _ _ (by omega)]
  unfold foldBlocks
  have hlen : (paddedWith m L).length / 64 = m.length / 64 + (paddedWith (tailOf m) L).length / 64 := by
    rw [hp, List.length_append, hfl]; omega
  rw [hlen, hp, chunks_append _ _ _ _ hfl, List.map_append, List.foldl_append, chunks_take _ _ (by omega)]

/-- R115: the digest in the terms of the commands: the full blocks, then the padded tail. -/
theorem digestOf_eq (m : List Byte) : digestOf m =
    (padTail (tailOf m) (BitVec.ofNat 64 (8 * m.length))).foldl compress (foldBlocks Config.iv m) :=
  foldBlocks_padded Config.iv m _

/-- R136: the digest of a message behind one 64-byte block. -/
theorem digestOf_prefix (k m : List Byte) (hk : k.length = 64) : digestOf (k ++ m) =
    (padTail (tailOf m) (BitVec.ofNat 64 (8 * (64 + m.length)))).foldl compress
      (foldBlocks (compress Config.iv (words k)) m) := by
  rw [digestOf_eq]
  have h1 : tailOf (k ++ m) = tailOf m := by
    unfold tailOf
    rw [List.length_append, hk, show (64 + m.length) / 64 = 1 + m.length / 64 by omega, Nat.mul_add,
      ← List.drop_drop, List.drop_left' (by omega)]
  have h2 : foldBlocks Config.iv (k ++ m) = foldBlocks (compress Config.iv (words k)) m := by
    unfold foldBlocks
    rw [List.length_append, hk, show (64 + m.length) / 64 = 1 + m.length / 64 by omega,
      chunks_append 1 _ k m (by omega)]
    simp only [chunks, List.cons_append, List.nil_append, List.map, List.foldl]
    rw [List.take_of_length_le (by omega)]
  rw [h1, h2, List.length_append, hk]

/-- R132, R133: xor by one byte throughout is xor of every word. -/
theorem words_map (k : List Byte) (hk : k.length = 64) (b : Byte) (w : Word) (hw : w = le32 b b b b) :
    words (k.map (· ^^^ b)) = (words k).map (· ^^^ w) := by
  apply Block.ext_get
  intro j
  rw [Block.get_map]
  simp only [words, Block.get_ofFn]
  have hj := j.isLt
  have g : ∀ i, i < 64 → (k.map (· ^^^ b)).getD i 0 = k.getD i 0 ^^^ b := by
    intro i hi
    simp [List.getD_eq_getElem?_getD, List.getElem?_eq_getElem (show i < k.length by omega)]
  rw [g _ (by omega), g _ (by omega), g _ (by omega), g _ (by omega), hw]
  simp only [le32]
  apply BitVec.eq_of_getLsbD_eq
  intro i hi
  simp only [BitVec.getLsbD_append, BitVec.getLsbD_xor]
  split_ifs <;> rfl

/-- R136: the MAC in the terms of the commands: ipad block, message, outer hash. -/
theorem hmacOf_eq (key m : List Byte) : hmacOf key m =
    outerHash (words (normalisedKey key))
      ((padTail (tailOf m) (BitVec.ofNat 64 (8 * (64 + m.length)))).foldl compress
        (foldBlocks (compress Config.iv (ipadBlock (words (normalisedKey key)))) m)) := by
  have hk : (normalisedKey key).length = 64 := by
    unfold normalisedKey; split_ifs <;> simp; omega
  unfold hmacOf
  have hip : ∀ k : Block, k.map (· ^^^ (0x36363636 : Word)) = ipadBlock k := fun _ => rfl
  have hop : ∀ k : Block, k.map (· ^^^ (0x5C5C5C5C : Word)) = opadBlock k := fun _ => rfl
  rw [digestOf_prefix _ m (by simpa using hk), words_map _ hk 0x36 0x36363636 (by rfl), hip]
  generalize (padTail _ _).foldl compress _ = ih
  rw [digestOf_prefix _ (quadBytes ih) (by simpa using hk), words_map _ hk 0x5C 0x5C5C5C5C (by rfl), hop]
  unfold outerHash outerTail
  have h1 : tailOf (quadBytes ih) = quadBytes ih := by simp [tailOf]
  have h2 : ∀ c, foldBlocks c (quadBytes ih) = c := by intro c; simp [foldBlocks, chunks]
  rw [h1, h2]
  simp only [quadBytes_length]
  obtain ⟨b, hb⟩ := padTail_short (t := quadBytes ih) (by simp) (BitVec.ofNat 64 (8 * (64+16)))
  have : BitVec.ofNat 64 (8 * (64+16)) = 640 := by rfl
  rw [this] at hb ⊢
  rw [hb]
  simp only [List.foldl_cons, List.foldl_nil, List.headD_cons]

end Sys2Proof.Machine
end

