-- ==== Sys2Proof/Laws/PerInstr.lean ====
section
/-! SUPPORT. For each instruction by itself: its encoding lies in its own row of spec/opcode_table.json, whose
mask and match are written out here (R62, R64, R65). -/

namespace Sys2Proof.Laws.TableMatch

/-- A row of format CMD: the code is a command word whose masked bits are the row's. -/
def CmdRow (mask value : Word) (c : Code) : Prop := ∃ w, c = .cmd w ∧ w &&& mask = value

/-- A row of format ROUND: the code is a round index whose masked bits are the row's. -/
def RoundRow (mask value : BitVec 6) (c : Code) : Prop := ∃ i, c = .round i ∧ i &&& mask = value

/-- The table's row of an instruction, as a condition on its code. -/
def Row : Instr → Code → Prop
  | .nop _ => CmdRow 0x0000000F 0x00000000
  | .md5Init _ => CmdRow 0x0000000F 0x00000001
  | .md5Update _ => CmdRow 0x0000000F 0x00000002
  | .md5Final _ => CmdRow 0x0000000F 0x00000003
  | .hmacSetkey _ => CmdRow 0x0000000F 0x00000004
  | .hmacSetkeyDigest _ => CmdRow 0x0000000F 0x00000005
  | .hmacInit _ => CmdRow 0x0000000F 0x00000006
  | .hmacFinal _ => CmdRow 0x0000000F 0x00000007
  | .illegalOp _ _ => CmdRow 0x00000008 0x00000008
  | .roundF _ => RoundRow 0b110000 0b000000
  | .roundG _ => RoundRow 0b110000 0b010000
  | .roundH _ => RoundRow 0b110000 0b100000
  | .roundI _ => RoundRow 0b110000 0b110000
  | .load => fun c => c = .eph .load
  | .add => fun c => c = .eph .add

/-- The encoding of a well-formed instruction lies in the instruction's row. -/
def Statement (i : Instr) : Prop := i.wellFormed = true → Row i (encode i)

/-- The low four bits of a command word are its opcode. -/
theorem cmdWord_low (op : BitVec 4) (f : CmdFields) : cmdWord op f &&& 0x0000000F = op.setWidth 32 := by
  apply BitVec.eq_of_getLsbD_eq
  intro i hi
  simp only [cmdWord, BitVec.getLsbD_and, BitVec.getLsbD_append, BitVec.getLsbD_setWidth]
  interval_cases i <;> simp

/-- Bit 3 of a command word is bit 3 of its opcode. -/
theorem cmdWord_bit3 (op : BitVec 4) (f : CmdFields) : cmdWord op f &&& 0x00000008 = (op &&& 8).setWidth 32 := by
  apply BitVec.eq_of_getLsbD_eq
  intro i hi
  simp only [cmdWord, BitVec.getLsbD_and, BitVec.getLsbD_append, BitVec.getLsbD_setWidth]
  interval_cases i <;> simp

theorem round_high (q : BitVec 2) (r : BitVec 4) : roundIndex q r &&& 0b110000 = roundIndex q 0 := by
  revert q r; decide

theorem nop (f : CmdFields) : Statement (.nop f) := fun _ => ⟨_, rfl, cmdWord_low 0x0 f⟩
theorem md5Init (f : CmdFields) : Statement (.md5Init f) := fun _ => ⟨_, rfl, cmdWord_low 0x1 f⟩
theorem md5Update (f : CmdFields) : Statement (.md5Update f) := fun _ => ⟨_, rfl, cmdWord_low 0x2 f⟩
theorem md5Final (f : CmdFields) : Statement (.md5Final f) := fun _ => ⟨_, rfl, cmdWord_low 0x3 f⟩
theorem hmacSetkey (f : CmdFields) : Statement (.hmacSetkey f) := fun _ => ⟨_, rfl, cmdWord_low 0x4 f⟩
theorem hmacSetkeyDigest (f : CmdFields) : Statement (.hmacSetkeyDigest f) :=
  fun _ => ⟨_, rfl, cmdWord_low 0x5 f⟩
theorem hmacInit (f : CmdFields) : Statement (.hmacInit f) := fun _ => ⟨_, rfl, cmdWord_low 0x6 f⟩
theorem hmacFinal (f : CmdFields) : Statement (.hmacFinal f) := fun _ => ⟨_, rfl, cmdWord_low 0x7 f⟩
theorem illegalOp (op : BitVec 4) (f : CmdFields) : Statement (.illegalOp op f) := by
  intro h
  refine ⟨_, rfl, (cmdWord_bit3 op f).trans ?_⟩
  simp only [Instr.wellFormed] at h
  revert op
  decide
theorem roundF (r : BitVec 4) : Statement (.roundF r) := fun _ => ⟨_, rfl, round_high 0 r⟩
theorem roundG (r : BitVec 4) : Statement (.roundG r) := fun _ => ⟨_, rfl, round_high 1 r⟩
theorem roundH (r : BitVec 4) : Statement (.roundH r) := fun _ => ⟨_, rfl, round_high 2 r⟩
theorem roundI (r : BitVec 4) : Statement (.roundI r) := fun _ => ⟨_, rfl, round_high 3 r⟩
theorem load : Statement .load := fun _ => rfl
theorem add : Statement .add := fun _ => rfl

end Sys2Proof.Laws.TableMatch
end

