-- ==== Sys2Proof/Tests/Slice0.lean ====
section
/-! SUPPORT. Tests of the model, each with values that spec/95_test_vectors.md or a rule gives, and for every
obligation with hypotheses a concrete state that meets them. -/

namespace Sys2Proof.Tests
open Sys2Proof.Machine

/-! ### Helpers -/

/-- The next state of a result, if it is one. -/
def nextOf (r : Result) : Option State :=
  match r with
  | .next s => some s
  | _ => none

/-- Fields with the reserved bits 0 and the length `n`. -/
def len (n : BitVec 7) : CmdFields := { len := n, rsvLo := 0, rsvHi := 0 }

/-- The sixteen words `w`. -/
def fill (w : Word) : Block := Block.zero.map fun _ => w

/-- The padded block of "abc" (95_test_vectors.md 2.4). -/
def abcBlock : Block := ⟨0x80636261, 0, 0, 0, 0, 0, 0, 0, 0, 0, 0, 0, 0, 0, 0x18, 0⟩

/-- A key is loaded and an HMAC is open: STATUS = 0x302. -/
def opened : State := { State.reset with keyValid := true, hmacActive := true, done := true }

/-- The command with opcode `op` and length `n` was accepted in the state `s`. -/
def running (op : BitVec 4) (n : BitVec 7) (s : State) : State := s.accept op n

/-- A running command in the ADD of the job with index `i`. -/
def inAdd (op : BitVec 4) (n : BitVec 7) (i : Nat) (s : State) : State :=
  { s.accept op n with eph := .add, jobIdx := i, padStage := false }

/-- STATUS after writing the word `w` to CTRL in the state `s`. -/
def statusAfter (w : Word) (s : State) : Option Word := (nextOf (exec (decodeCmd w) s)).map (·.statusWord)

/-- The answer of one access. -/
def answer (c : BusIn) (s : State) : Option Response := (nextOf (hostEdge c s)).bind (·.resp)

/-! ### Well-formedness: each check refuses an ill-formed term -/

theorem test_legal_opcode_in_illegal_range : (Instr.illegalOp 7 (len 0)).wellFormed = false := by decide
theorem test_illegal_range_ends :
    (Instr.illegalOp 8 (len 0)).wellFormed = true ∧ (Instr.illegalOp 15 (len 127)).wellFormed = true := by decide
theorem test_assembler_refuses_operand_of_nop : (Instr.nop (len 1)).assembles = false := by decide
theorem test_assembler_refuses_operand_of_init : (Instr.md5Init (len 127)).assembles = false := by decide
theorem test_assembler_refuses_operand_of_update : (Instr.md5Update (len 64)).assembles = false := by decide
theorem test_assembler_refuses_final_64 :
    (Instr.md5Final (len 64)).assembles = false ∧ (Instr.md5Final (len 63)).assembles = true := by decide
theorem test_assembler_refuses_key_65 :
    (Instr.hmacSetkey (len 65)).assembles = false ∧ (Instr.hmacSetkey (len 64)).assembles = true := by decide
theorem test_assembler_refuses_hmac_final_64 :
    (Instr.hmacFinal (len 64)).assembles = false ∧ (Instr.hmacFinal (len 63)).assembles = true := by decide
theorem test_assembler_refuses_reserved_bits : (Instr.nop ⟨0, 1, 0⟩).assembles = false := by decide
theorem test_assembler_has_no_illegal_or_engine_word :
    (Instr.illegalOp 8 (len 0)).assembles = false ∧ (Instr.roundF 0).assembles = false := by decide

/-! ### Decoding: words written out from R60, R62, R64, R65 -/

theorem test_decode_nop : decodeCmd 0b00000000000000000_0000000_0000_0000 = .nop (len 0) := by decide
theorem test_decode_md5Init : decodeCmd 0b00000000000000000_0000000_0000_0001 = .md5Init (len 0) := by decide
theorem test_decode_md5Update : decodeCmd 0b00000000000000000_0000000_0000_0010 = .md5Update (len 0) := by decide
theorem test_decode_md5Final : decodeCmd 0b00000000000000000_0111111_0000_0011 = .md5Final (len 63) := by decide
theorem test_decode_hmacSetkey : decodeCmd 0b00000000000000000_1000000_0000_0100 = .hmacSetkey (len 64) := by decide
theorem test_decode_hmacSetkeyDigest :
    decodeCmd 0b00000000000000000_0000000_0000_0101 = .hmacSetkeyDigest (len 0) := by decide
theorem test_decode_hmacInit : decodeCmd 0b00000000000000000_0000000_0000_0110 = .hmacInit (len 0) := by decide
theorem test_decode_hmacFinal : decodeCmd 0b00000000000000000_0001000_0000_0111 = .hmacFinal (len 8) := by decide
theorem test_decode_illegal :
    decodeCmd 0b10000000000000001_1111111_1010_1000 = .illegalOp 8 ⟨127, 0b1010, 0b10000000000000001⟩ := by decide
theorem test_decode_rounds :
    decodeRound 0b00_0011 = .roundF 3 ∧ decodeRound 0b01_0011 = .roundG 3 ∧
    decodeRound 0b10_0011 = .roundH 3 ∧ decodeRound 0b11_0011 = .roundI 3 := by decide
theorem test_decode_phases : decodePhase .load = .ok .load ∧ decodePhase .add = .ok .add ∧
    decodePhase .idle = .error .idlePhase ∧ decodePhase .round = .error .roundPhase := ⟨rfl, rfl, rfl, rfl⟩
theorem test_decode_bytes_of_hmac_final_8 : decodeCmdBytes [0x07, 0x08, 0x00, 0x00, 0xAA] =
    .ok (.hmacFinal (len 8), [0xAA]) := rfl
theorem test_decode_byte_too_wide : decodeRoundByte 0x40 = .error .indexTooWide := rfl
theorem test_table_words : decodeTableWord 32 0x00000303 = some (.md5Final (len 3)) ∧
    decodeTableWord 8 0x3F = some (.roundI 15) ∧ decodeTableWord 8 0x07 = some (.hmacFinal (len 0)) := by decide

/-! ### The placed word runs in the next step -/

theorem test_placed_command_runs :
    (nextOf (step (State.reset.withFetchWord 32 0x00000009))).map (·.statusWord) = some 0x014 := by decide
theorem test_placed_round_runs :
    (nextOf (step (State.reset.withFetchWord 8 0x31))).map (·.rnd) = some 0x32 := by decide

/-! ### Operands: 95_test_vectors.md 2.1 to 2.3, 3, 5, 6.1 -/

theorem test_round_functions :
    fnF 0xEFCDAB89 0x98BADCFE 0x10325476 = 0x98BADCFE ∧ fnG 0xEFCDAB89 0x98BADCFE 0x10325476 = 0x88888888 ∧
    fnH 0xEFCDAB89 0x98BADCFE 0x10325476 = 0x67452301 ∧ fnI 0xEFCDAB89 0x98BADCFE 0x10325476 = 0x77777777 := by
  decide
theorem test_round_functions_mixed :
    fnF 0x12345678 0x9ABCDEF0 0x0F0F0F0F = 0x1F3F5F77 ∧ fnG 0x12345678 0x9ABCDEF0 0x0F0F0F0F = 0x92B4D6F8 ∧
    fnH 0x12345678 0x9ABCDEF0 0x0F0F0F0F = 0x87878787 ∧ fnI 0x12345678 0x9ABCDEF0 0x0F0F0F0F = 0x68482808 := by
  decide
theorem test_rotations : rotl32 0x80000001 1 = 0x00000003 ∧ rotl32 0x80000001 31 = 0xC0000000 ∧
    rotl32 0x57CE06D8 7 = 0xE7036C2B ∧ rotl32 0x80000000 23 = 0x00400000 := by decide
theorem test_amounts : sAmount 15 = 22 ∧ sAmount 16 = 5 ∧ sAmount 33 = 11 ∧ sAmount 62 = 15 := by decide
theorem test_constants : kConst 0 = 0xD76AA478 ∧ kConst 31 = 0x8D2A4C8A ∧ kConst 32 = 0xFFFA3942 ∧
    kConst 63 = 0xEB86D391 := by decide
theorem test_message_index : gIndex 15 = 15 ∧ gIndex 17 = 6 ∧ gIndex 31 = 12 ∧ gIndex 33 = 8 ∧ gIndex 47 = 2 ∧
    gIndex 49 = 7 ∧ gIndex 63 = 9 := by decide
theorem test_pad_of_empty : padTail [] 0 = [⟨0x80, 0, 0, 0, 0, 0, 0, 0, 0, 0, 0, 0, 0, 0, 0, 0⟩] := by decide
theorem test_pad_of_abc : padTail [0x61, 0x62, 0x63] 24 = [abcBlock] := by decide
theorem test_pad_55 : padTail (List.replicate 55 0x61) 440 =
    [{ fill 0x61616161 with w13 := 0x80616161, w14 := 0x1B8, w15 := 0 }] := by decide
theorem test_pad_56 : padTail (List.replicate 56 0x61) 448 =
    [{ fill 0x61616161 with w14 := 0x80, w15 := 0 }, { Block.zero with w14 := 0x1C0 }] := by decide
theorem test_pad_length_wraps : padTail [0x61, 0x62, 0x63] 0xFFFFFFFFFFFFFE18 =
    [{ abcBlock with w14 := 0xFFFFFE18, w15 := 0xFFFFFFFF }] := by decide
theorem test_key_63 : keyBlock (fill 0x6B6B6B6B) 63 = { fill 0x6B6B6B6B with w15 := 0x006B6B6B } := by decide
theorem test_digest_key : digestKeyBlock ⟨0x24944804, 0xE8B4E47A, 0x46E44806, 0xCDF99AFE⟩ =
    ⟨0x24944804, 0xE8B4E47A, 0x46E44806, 0xCDF99AFE, 0, 0, 0, 0, 0, 0, 0, 0, 0, 0, 0, 0⟩ := by decide
theorem test_pads : (ipadBlock (fill 0x0B0B0B0B)).w15 = 0x3D3D3D3D ∧ (opadBlock (fill 0x0B0B0B0B)).w0 = 0x57575757 := by
  decide
theorem test_outer_tail : outerTail ⟨0x73231D90, 0xF1C0DC2E, 0x2F5306A1, 0xEBECE56B⟩ =
    ⟨0x73231D90, 0xF1C0DC2E, 0x2F5306A1, 0xEBECE56B, 0x80, 0, 0, 0, 0, 0, 0, 0, 0, 0, 0x280, 0⟩ := by decide

/-! ### The engine: the trace of 95_test_vectors.md 2.4 -/

theorem test_round_0 : (nextOf (exec (.roundF 0) { State.reset with work := Config.iv, m := abcBlock })).map
    (fun t => (t.work, t.rnd)) = some (⟨0x10325476, 0xD6D117B4, 0xEFCDAB89, 0x98BADCFE⟩, 1) := by decide
theorem test_round_16 : (nextOf (exec (.roundG 0) { State.reset with
    work := ⟨0xDDA9B9A6, 0x72AFF2E0, 0xE396856B, 0xA1051895⟩, m := abcBlock })).map (·.work) =
    some ⟨0xA1051895, 0x3E9E9126, 0x72AFF2E0, 0xE396856B⟩ := by decide
theorem test_round_32 : (nextOf (exec (.roundH 0) { State.reset with
    work := ⟨0x790A77FB, 0x726342D3, 0xA62884AA, 0x9F47E4F8⟩, m := abcBlock })).map (·.work) =
    some ⟨0x9F47E4F8, 0xB3707EBF, 0x726342D3, 0xA62884AA⟩ := by decide
theorem test_round_48 : (nextOf (exec (.roundI 0) { State.reset with
    work := ⟨0x7F2E507B, 0x7BEB9700, 0x8FAE6399, 0x99D9679D⟩, m := abcBlock })).map (·.work) =
    some ⟨0x99D9679D, 0x7B201DF8, 0x7BEB9700, 0x8FAE6399⟩ := by decide
theorem test_round_63 : (nextOf (exec (.roundI 15) { State.reset with
    work := ⟨0x7327D604, 0xE484B9D8, 0x624D8CB2, 0x310ADE8F⟩, m := abcBlock, rnd := 63, eph := .round })).map
    (fun t => (t.work, t.rnd, t.eph)) =
    some (⟨0x310ADE8F, 0xC08226B3, 0xE484B9D8, 0x624D8CB2⟩, 63, .add) := by decide
theorem test_load_of_update : (nextOf (exec .load (running 2 0 { State.reset with data := abcBlock }))).map
    (fun t => (t.m, t.work, t.eph)) = some (abcBlock, Config.iv, .round) := by decide
theorem test_load_of_opad_restarts_from_iv :
    (nextOf (exec .load { running 7 8 opened with jobIdx := 1, chain := Quad.zero })).map (fun t => (t.chain, t.m)) =
      some (Config.iv, fill 0x5C5C5C5C) := by decide
theorem test_add_gives_the_digest_of_abc : (nextOf (exec .add { inAdd 3 3 0 State.reset with
    work := ⟨0x310ADE8F, 0xC08226B3, 0xE484B9D8, 0x624D8CB2⟩ })).map (fun t => (t.chain, t.eph)) =
    some (⟨0x98500190, 0xB04FD23C, 0x7D3F96D6, 0x727FE128⟩, .idle) := by decide
theorem test_add_saves_the_inner_hash : (nextOf (exec .add (inAdd 7 8 0 opened))).map
    (fun t => (t.ihash, t.jobIdx, t.eph)) = some (Config.iv, 1, .load) := by decide
theorem test_compress_abc : compress Config.iv abcBlock = ⟨0x98500190, 0xB04FD23C, 0x7D3F96D6, 0x727FE128⟩ := by
  decide +kernel
theorem test_compress_zeros : compress Config.iv Block.zero =
    ⟨0x031F1DAC, 0x6EA58ED0, 0x1FAB67B7, 0x74317791⟩ := by decide +kernel

/-! ### Completion writes: 95_test_vectors.md 4.1, 5, 6, 7.1 -/

theorem test_nop_completes : (nextOf (step (running 0 0 { State.reset with err := true, errcode := 1 }))).map
    (·.statusWord) = some 0x016 := by decide
theorem test_init_keeps_the_key : (nextOf (step (running 1 0 { opened with bitlen := 512 }))).map
    (fun t => (t.statusWord, t.bitlen)) = some (0x102, 0) := by decide
theorem test_update_wraps_bitlen : (nextOf (step (inAdd 2 0 0 { State.reset with bitlen := 0xFFFFFFFFFFFFFE00 }))).map
    (fun t => (t.statusWord, t.bitlen)) = some (0x002, 0) := by decide
theorem test_final_writes_digest : (nextOf (step (inAdd 3 3 0 State.reset))).map
    (fun t => (t.statusWord, t.bitlen, t.digest)) = some (0x002, 24, Config.iv) := by decide
theorem test_setkey_4 : (nextOf (step (running 4 4 { State.reset with data := fill 0x04030201 }))).map
    (fun t => (t.statusWord, t.k0)) = some (0x102, { Block.zero with w0 := 0x04030201 }) := by decide
theorem test_setkey_digest : (nextOf (step (running 5 0 { State.reset with digest := ⟨1, 2, 3, 4⟩ }))).map
    (fun t => (t.statusWord, t.k0)) =
      some (0x102, ⟨1, 2, 3, 4, 0, 0, 0, 0, 0, 0, 0, 0, 0, 0, 0, 0⟩) := by decide
theorem test_hmac_init_opens : (nextOf (step (inAdd 6 0 0 { opened with hmacActive := false }))).map
    (fun t => (t.statusWord, t.bitlen)) = some (0x302, 512) := by decide
theorem test_hmac_final_discards_the_key : (nextOf (step (inAdd 7 8 2 { opened with k0 := fill 5 }))).map
    (fun t => (t.statusWord, t.bitlen, t.k0)) = some (0x002, 640, Block.zero) := by decide

/-! ### Rejections: 95_test_vectors.md 7.1, 7.2 -/

theorem test_illegal_before_bad_len : statusAfter 0x00007F0F State.reset = some 0x014 := by decide
theorem test_md5_final_64 : statusAfter 0x00004003 State.reset = some 0x034 := by decide
theorem test_setkey_65 : statusAfter 0x00004104 State.reset = some 0x034 := by decide
theorem test_setkey_64_accepted : statusAfter 0x00004004 State.reset = some 0x001 := by decide
theorem test_bad_len_before_sequence : statusAfter 0x00004007 State.reset = some 0x034 := by decide
theorem test_hmac_final_without_init : statusAfter 0x00000007 State.reset = some 0x054 := by decide
theorem test_hmac_init_without_key : statusAfter 0x00000006 State.reset = some 0x044 := by decide
theorem test_md5_final_in_hmac : statusAfter 0x00000303 opened = some 0x356 := by decide
theorem test_setkey_in_hmac : statusAfter 0x00001004 opened = some 0x356 := by decide
theorem test_setkey_digest_in_hmac : statusAfter 0x00000005 opened = some 0x356 := by decide
theorem test_hmac_init_restart : statusAfter 0x00000006 opened = some 0x301 := by decide
theorem test_update_in_hmac : statusAfter 0x00000002 opened = some 0x301 := by decide
theorem test_nop_while_busy : statusAfter 0x00000000 (running 2 0 State.reset) = some 0x025 := by decide
theorem test_busy_before_illegal : statusAfter 0x00000008 (running 2 0 State.reset) = some 0x025 := by decide

/-! ### The register window: 95_test_vectors.md 7.3, 7.4, 8 -/

theorem test_id : answer (BusIn.rd 0x014) State.reset = some ⟨false, some 0x4D443501⟩ := by decide
theorem test_chain_read : answer (BusIn.rd 0x094) State.reset = some ⟨false, some 0xEFCDAB89⟩ := by decide
theorem test_reserved_read : answer (BusIn.rd 0xFFC) State.reset = some ⟨false, some 0⟩ := by decide
theorem test_data_write : (nextOf (hostEdge (BusIn.wr 0x054 0xCAFEBABE) State.reset)).map (fun t => t.data.get 5) =
    some 0xCAFEBABE := by decide
theorem test_byte_write_refused : answer { BusIn.wr 0x040 0xFF with be := 0b0001 } State.reset =
    some ⟨true, none⟩ := by decide
theorem test_misaligned_read : answer (BusIn.rd 0x041) State.reset = some ⟨true, some 0⟩ := by decide
theorem test_misaligned_command : (nextOf (hostEdge (BusIn.wr 0x002 1) State.reset)).map (·.busy) = some false := by
  decide
theorem test_status_write_all_ones :
    (nextOf (hostEdge (BusIn.wr 0x004 0xFFFFFFFF) { opened with err := true, errcode := 5 })).map (·.statusWord) =
      some 0x300 := by decide
theorem test_status_clear_done_only :
    (nextOf (hostEdge (BusIn.wr 0x004 2) { State.reset with done := true, err := true, errcode := 5 })).map
      (·.statusWord) = some 0x054 := by decide
theorem test_irq_en_reads_back : (nextOf (hostEdge (BusIn.wr 0x008 0xFFFFFFFF) State.reset)).map (·.irqEnWord) =
    some 3 := by decide
theorem test_irq_masked : ({ State.reset with done := true, errIe := true } : State).irq = false := by decide
theorem test_rejected_word_is_stored : (nextOf (hostEdge (BusIn.wr 0x000 9) State.reset)).map (·.ctrl) = some 9 := by
  decide
theorem test_chain_read_while_busy_is_free : answer (BusIn.rd 0x090) (running 2 0 State.reset) =
    some ⟨false, some (Config.freeChain 0)⟩ := by
  rfl

/-! ### Timing: 95_test_vectors.md 9.1 to 9.3 -/

theorem test_done_set_wins : (nextOf (step { running 0 0 State.reset with host := [BusIn.wr 0x004 2] })).map
    (·.statusWord) = some 0x002 := by decide
theorem test_reset_in_command :
    (nextOf (step { running 2 0 opened with host := [{ BusIn.idle with rstN := false }] })).map
      (fun t => (t.statusWord, t.chain, t.eph)) = some (0x000, Config.iv, .idle) := by decide

/-! ### Host programs: R69, 95_test_vectors.md 4 and 6 -/

/-- The operations of `MD5 "abc"` after INIT, WAIT and LOADBLK. -/
theorem test_md5_program_ends_with_final_wait_and_reads : (md5Ops [0x61, 0x62, 0x63]).drop 18 =
    [.wr 0x000 0x00000303, .wait, .rd 0x080, .rd 0x084, .rd 0x088, .rd 0x08C] := by decide
/-- KL = 65: `MD5 key` with one full block, its four reads, then HMAC_SETKEY_DIGEST and WAIT. -/
theorem test_long_key_program : (keyOps (List.replicate 65 0xAA)).drop 38 =
    [.rd 0x080, .rd 0x084, .rd 0x088, .rd 0x08C, .wr 0x000 0x00000005, .wait] := by decide
theorem test_loadblk_pads_with_zeros : (loadBlk [1, 2, 3, 4, 5]).take 3 =
    [.wr 0x040 0x04030201, .wr 0x044 0x00000005, .wr 0x048 0] := by decide

/-- One cycle of a host that is at a WAIT in the state `s`: what is left of the program. -/
def waitLeaves (ready : Bool) (s : State) : Option (List HostOp) :=
  match HostRun.cycle ready { prog := [.wait], reads := [], st := s } with
  | .next h => some h.prog
  | _ => none
theorem test_wait_polls : waitLeaves true (running 2 0 State.reset) = some [.wait] ∧
    waitLeaves false State.reset = some [.wait] ∧ waitLeaves true State.reset = some [] := by decide

/-! ### Witnesses: for each obligation with hypotheses, states and operands that meet all of them -/

theorem witness_EncodedInstructionDecodesBack :
    (Instr.illegalOp 8 ⟨127, 15, 0x1FFFF⟩).wellFormed = true ∧ (Instr.roundI 15).wellFormed = true := by decide

theorem witness_DecodedCodeEncodesBack : decode (.cmd 0xFFFFFFFF) = .ok (.illegalOp 15 ⟨127, 15, 0x1FFFF⟩) ∧
    decode (.round 63) = .ok (.roundI 15) ∧ decode (.eph .add) = .ok .add := ⟨rfl, rfl, rfl⟩

theorem witness_CommandBytesDecodeInLaneOrder :
    ((Instr.hmacSetkey (len 64)).wellFormed = true ∧ encode (.hmacSetkey (len 64)) = .cmd 0x00004004) ∧
    ([1, 2, 3] : List Byte).length < 4 := by decide

theorem witness_ReservedBitsOnlyReachCtrl :
    opOf 0x00000303 = opOf 0xFFFF83F3 ∧ (fieldsOf 0x00000303).len = (fieldsOf 0xFFFF83F3).len := by decide

theorem witness_RoundFunctionsAreBitwise : 31 < 32 ∧ 0 < 32 := by decide

/-- Every source and every base occurs. -/
theorem witness_LoadStartsTheCurrentJob :
    (running 2 0 State.reset).currentJob = some ⟨.dl, .chain, false⟩ ∧
    (running 3 56 State.reset).currentJob = some ⟨.p1, .chain, false⟩ ∧
    ({ running 3 56 State.reset with jobIdx := 1 } : State).currentJob = some ⟨.p2, .chain, false⟩ ∧
    (running 6 0 opened).currentJob = some ⟨.ipad, .iv, false⟩ ∧
    ({ running 7 63 opened with jobIdx := 2 } : State).currentJob = some ⟨.opad, .iv, false⟩ ∧
    ({ running 7 63 opened with jobIdx := 3 } : State).currentJob = some ⟨.t, .chain, false⟩ := by decide

/-- Both sides of the equivalence occur. -/
theorem witness_LoadStopsOnlyWithoutAJob :
    State.reset.currentJob = none ∧ (running 2 0 State.reset).currentJob ≠ none := by decide

theorem served_quiet {s : State} (h : s.host = []) (k : Nat) : s.served k := by
  intro c hc
  rw [h] at hc
  simp at hc

/-- A job without SAVE and one with it. -/
theorem witness_SixtySixCyclesCompressTheBlock :
    (let s := running 2 0 State.reset;
      s.busy = true ∧ s.cph = .run ∧ s.served 66 ∧ s.eph = .load ∧ s.currentJob = some ⟨.dl, .chain, false⟩) ∧
    (let s := running 7 0 opened;
      s.busy = true ∧ s.cph = .run ∧ s.served 66 ∧ s.eph = .load ∧ s.currentJob = some ⟨.p1, .chain, true⟩) :=
  ⟨⟨rfl, rfl, served_quiet rfl 66, rfl, rfl⟩, ⟨rfl, rfl, served_quiet rfl 66, rfl, rfl⟩⟩

/-- NOP, MD5_INIT and MD5_UPDATE, the last two inside an HMAC; and a state with BUSY = 1. -/
theorem witness_NopCompletes :
    (State.reset.busy = false ∧ State.reset.served 1) ∧ (running 2 0 State.reset).busy = true :=
  ⟨⟨rfl, served_quiet rfl 1⟩, rfl⟩
theorem witness_Md5InitCompletes : (opened.busy = false ∧ opened.served 1) ∧ (running 1 0 opened).busy = true :=
  ⟨⟨rfl, served_quiet rfl 1⟩, rfl⟩
theorem witness_Md5UpdateCompletes : (opened.busy = false ∧ opened.served 66) ∧ (running 2 0 opened).busy = true :=
  ⟨⟨rfl, served_quiet rfl 66⟩, rfl⟩

/-- The ends of both ranges of `n`; one past them; an open HMAC; BUSY = 1. -/
theorem witness_Md5FinalCompletes :
    (State.reset.busy = false ∧ State.reset.served 66 ∧ State.reset.served 132 ∧ State.reset.hmacActive = false) ∧
    ((len 0).len.toNat ≤ 55 ∧ (len 55).len.toNat ≤ 55 ∧ ¬(len 56).len.toNat ≤ 55 ∧ (len 63).len.toNat ≤ 63) ∧
    (63 < (len 64).len.toNat ∧ 63 < (len 127).len.toNat) ∧ (opened.busy = false ∧ opened.hmacActive = true) ∧
    (running 3 56 State.reset).busy = true :=
  ⟨⟨rfl, served_quiet rfl 66, served_quiet rfl 132, rfl⟩, by decide, by decide, by decide, rfl⟩

/-- The ends of the range of `k`, a byte on either side of the key's end, and one past the range. -/
theorem witness_HmacSetkeyCompletes :
    (State.reset.busy = false ∧ State.reset.served 1 ∧ State.reset.hmacActive = false) ∧
    ((len 0).len.toNat ≤ 64 ∧ (len 64).len.toNat ≤ 64 ∧ 63 < (len 64).len.toNat ∧ ¬0 < (len 0).len.toNat) ∧
    64 < (len 65).len.toNat ∧ (opened.busy = false ∧ opened.hmacActive = true) ∧
    (running 4 64 State.reset).busy = true :=
  ⟨⟨rfl, served_quiet rfl 1, rfl⟩, by decide, by decide, by decide, rfl⟩

theorem witness_HmacSetkeyDigestCompletes :
    (State.reset.busy = false ∧ State.reset.served 1 ∧ State.reset.hmacActive = false) ∧
    (opened.busy = false ∧ opened.hmacActive = true) ∧ (running 5 0 State.reset).busy = true :=
  ⟨⟨rfl, served_quiet rfl 1, rfl⟩, by decide, rfl⟩

theorem witness_HmacInitCompletes : (opened.busy = false ∧ opened.served 66 ∧ opened.keyValid = true) ∧
    (State.reset.busy = false ∧ State.reset.keyValid = false) ∧ (running 6 0 opened).busy = true :=
  ⟨⟨rfl, served_quiet rfl 66, rfl⟩, by decide, rfl⟩

theorem witness_HmacFinalCompletes :
    (opened.busy = false ∧ opened.served 198 ∧ opened.served 264 ∧ opened.hmacActive = true) ∧
    ((len 0).len.toNat ≤ 55 ∧ (len 55).len.toNat ≤ 55 ∧ ¬(len 56).len.toNat ≤ 55 ∧ (len 63).len.toNat ≤ 63) ∧
    63 < (len 64).len.toNat ∧ (State.reset.busy = false ∧ State.reset.hmacActive = false) ∧
    (running 7 63 opened).busy = true :=
  ⟨⟨rfl, served_quiet rfl 198, served_quiet rfl 264, rfl⟩, by decide, by decide, by decide, rfl⟩

theorem witness_IllegalOpcodesAreRecorded :
    8 ≤ (8 : BitVec 4).toNat ∧ 8 ≤ (15 : BitVec 4).toNat ∧ State.reset.busy = false := by decide

theorem witness_CommandsLeaveTheHostsRegisters :
    (∀ c ∈ opened.host.take (latency (opOf 0x00003F07) (fieldsOf 0x00003F07).len), c.rstN = true ∧ c.req = false) ∧
    rejection (opOf 0x00003F07) (fieldsOf 0x00003F07).len opened = none := by decide

/-- A state for each branch of the chain of checks: R150 in order, then acceptance. -/
theorem witness_IssueFollowsTheOrderOfChecks :
    rejection 8 0 (running 2 0 State.reset) = some .busy ∧ rejection 8 127 State.reset = some .illegalOp ∧
    rejection 7 64 State.reset = some .badLen ∧ rejection 4 65 opened = some .badLen ∧
    rejection 3 63 opened = some .sequence ∧ rejection 7 63 State.reset = some .sequence ∧
    rejection 6 0 State.reset = some .noKey ∧ rejection 4 64 State.reset = none := by decide

theorem witness_ResultsAppearOnlyAtCompletion : opened.served (latency (opOf 0x00003F07) (fieldsOf 0x00003F07).len) ∧
    rejection (opOf 0x00003F07) (fieldsOf 0x00003F07).len opened = none := ⟨served_quiet rfl _, by decide⟩

theorem witness_PadTailLaysOutTheTail : ([] : List Byte).length ≤ 55 ∧ (List.replicate 55 (0x61 : Byte)).length ≤ 55 ∧
    ¬(List.replicate 56 (0x61 : Byte)).length ≤ 55 ∧ (List.replicate 63 (0x61 : Byte)).length ≤ 63 := by decide

theorem witness_DataWriteSetsFourByteLanes : 63 < 64 ∧ 63 / 4 = (15 : BitVec 4).toNat ∧ 3 / 4 = (0 : BitVec 4).toNat ∧
    4 / 4 ≠ (0 : BitVec 4).toNat := by decide

/-- The ends of each range of the window, and a reserved offset on either side of it. -/
theorem witness_ReadsReturnTheRegisterWindow :
    ∀ off ∈ ([0x000, 0x004, 0x014, 0x018, 0x03C, 0x040, 0x07C, 0x080, 0x08C, 0x090, 0x09C, 0x0A0, 0xFFC] :
      List (BitVec 12)), off.toNat % 4 = 0 := by simp

theorem witness_WritesReachTheirRegisterAlone :
    ∀ off ∈ ([0x004, 0x008, 0x00C, 0x03C, 0x040, 0x07C, 0x080, 0x09C, 0xFFC] : List (BitVec 12)),
      off.toNat % 4 = 0 ∧ off ≠ 0 := by simp

/-- A misaligned read, and a write of CTRL with no lane enabled. -/
theorem witness_BadAccessesChangeNothing :
    ((BusIn.rd 0x041).req = true ∧ (BusIn.rd 0x041).addr.toNat % 4 ≠ 0) ∧
    (({ BusIn.wr 0x000 1 with be := 0 } : BusIn).req = true ∧ ({ BusIn.wr 0x000 1 with be := 0 } : BusIn).be ≠ 0b1111) := by
  decide

theorem witness_StepRunsTheWrittenCommand :
    ({ State.reset with host := [BusIn.wr 0x000 1] } : State).host = BusIn.wr 0x000 1 :: [] ∧
    State.reset.cph = .idle ∧ State.reset.eph = .idle := by decide

/-- Each of the three phases that has a micro-operation. -/
theorem witness_StepRunsTheMicroOperation :
    (running 2 0 State.reset).busIn.rstN = true ∧ (running 2 0 State.reset).busIn.req = false ∧
    (running 2 0 State.reset).eph = .load ∧ decode (.eph .load) = .ok .load ∧
    ({ running 2 0 State.reset with eph := .round, rnd := 63 } : State).eph = .round ∧
    decode (.round 63) = .ok (.roundI 15) ∧ (inAdd 2 0 0 State.reset).eph = .add ∧
    decode (.eph .add) = .ok .add := ⟨rfl, rfl, rfl, rfl, rfl, rfl, rfl, rfl⟩

theorem reset_inv : Inv State.reset := by constructor <;> decide

theorem witness_IdleBlockKeepsItsState : Inv State.reset ∧ State.reset.busy = false ∧
    State.reset.busIn.rstN = true ∧ State.reset.busIn.req = false := ⟨reset_inv, rfl, rfl, rfl⟩

theorem witness_ResetOverwritesEverything :
    ({ running 2 0 opened with host := [{ BusIn.idle with rstN := false }] } : State).busIn.rstN = false := rfl

/-- The single cycle of a NOP, and the last ADD of an HMAC_FINAL. -/
theorem witness_CompletionWinsOverTheHostsClear :
    (let s : State := { running 0 0 State.reset with host := [BusIn.wr 0x004 2] };
      Inv s ∧ s.lastCycle = true ∧ s.busIn = BusIn.wr 0x004 2) ∧
    (let s : State := { inAdd 7 63 3 opened with host := [BusIn.wr 0x004 0xFFFFFFFF] };
      Inv s ∧ s.lastCycle = true ∧ s.busIn = BusIn.wr 0x004 0xFFFFFFFF) := by
  refine ⟨⟨?_, by decide, rfl⟩, ⟨?_, by decide, rfl⟩⟩ <;> constructor <;> decide

/-- A state with an error recorded, in a cycle with the access `c`. -/
def inError (c : BusIn) : State := { State.reset with err := true, errcode := 5, host := [c] }

/-- With a STATUS write that leaves ERR, one that clears it, a command that is rejected and one that is accepted. -/
theorem witness_ErrIsSticky :
    (∀ c ∈ [BusIn.wr 0x004 2, BusIn.wr 0x004 4, BusIn.wr 0x000 8, BusIn.wr 0x000 1],
      (inError c).err = true ∧ (inError c).busIn.rstN = true ∧ (nextOf (step (inError c))).isSome = true) ∧
    ((inError (BusIn.wr 0x004 2)).busIn.access = .write 0x004 2 ∧ (2 : Word).getLsbD 2 = false) ∧
    ((inError (BusIn.wr 0x004 4)).busIn.access = .write 0x004 4 ∧ (4 : Word).getLsbD 2 = true) ∧
    ((inError (BusIn.wr 0x000 8)).busIn.access = .command 8 ∧
      rejection (opOf 8) (fieldsOf 8).len (inError (BusIn.wr 0x000 8)) = some .illegalOp) ∧
    ((inError (BusIn.wr 0x000 1)).busIn.access = .command 1 ∧
      rejection (opOf 1) (fieldsOf 1).len (inError (BusIn.wr 0x000 1)) = none) := by decide

/-- The step from `s` answers a state in which each of the fields that `fs` picks out has changed. -/
def changes (s : State) (fs : State → State → List Bool) : Bool :=
  match step s with
  | .next t => (fs s t).all id
  | _ => false

/-- The last ADD of an HMAC_FINAL. -/
def atFinal : State := { inAdd 7 8 2 opened with k0 := fill 5, bitlen := 512, work := ⟨1, 2, 3, 4⟩ }

/-- The first ADD of an HMAC_FINAL of four jobs, and the second, which saves. -/
def atFirstAdd : State := { inAdd 7 63 0 opened with padStage := true }
def atSaveAdd : State := inAdd 7 63 1 opened

/-- The LOAD of an HMAC_INIT, and the last round of an MD5_UPDATE. -/
def atLoad : State := { running 6 0 opened with chain := ⟨5, 6, 7, 8⟩, rnd := 63 }
def atRound (i : BitVec 6) : State := { running 2 0 State.reset with eph := .round, rnd := i }

/-- An idle block in a cycle with the access `c`. -/
def atAccess (c : BusIn) : State :=
  { State.reset with
    done := true, err := true, errcode := 5, data := fill 7, digest := ⟨1, 2, 3, 4⟩, opL := 1, host := [c] }

/-- For each clause a state of the invariant whose step changes the register it speaks of. -/
theorem witness_RegistersHaveOnlyTheirWriters :
    changes atFinal (fun s t => [s.digest != t.digest, s.bitlen != t.bitlen, s.k0 != t.k0, s.keyValid != t.keyValid,
      s.hmacActive != t.hmacActive, s.chain != t.chain, s.cph != t.cph, s.busy != t.busy, s.done != t.done,
      s.eph != t.eph]) = true ∧
    changes atFirstAdd (fun s t => [s.jobIdx != t.jobIdx, s.padStage != t.padStage]) = true ∧
    changes atSaveAdd (fun s t => [s.ihash != t.ihash]) = true ∧
    changes atLoad (fun s t => [s.m != t.m, s.work != t.work, s.rnd != t.rnd, s.chain != t.chain]) = true ∧
    changes (atRound 0) (fun s t => [s.work != t.work, s.rnd != t.rnd]) = true ∧
    changes (atAccess (BusIn.wr 0x000 0x00003803)) (fun s t => [s.ctrl != t.ctrl, s.cph != t.cph, s.busy != t.busy,
      s.done != t.done, s.dl != t.dl, s.dgl != t.dgl, s.opL != t.opL, s.nL != t.nL, s.padStage != t.padStage,
      s.eph != t.eph]) = true ∧
    changes (atAccess (BusIn.wr 0x000 0x00000008)) (fun s t => [s.ctrl != t.ctrl, s.errcode != t.errcode]) = true ∧
    changes { atAccess (BusIn.wr 0x000 0x00000008) with err := false, errcode := 0 } (fun s t => [s.err != t.err]) =
      true ∧
    changes (atAccess (BusIn.wr 0x004 6)) (fun s t => [s.done != t.done, s.err != t.err, s.errcode != t.errcode]) =
      true ∧
    changes (atAccess (BusIn.wr 0x008 3)) (fun s t => [s.doneIe != t.doneIe, s.errIe != t.errIe]) = true ∧
    changes (atAccess (BusIn.wr 0x040 9)) (fun s t => [s.data.w0 != t.data.w0]) = true ∧
    changes (atAccess (BusIn.wr 0x07C 9)) (fun s t => [s.data.w15 != t.data.w15]) = true := by decide

theorem inv_atFinal : Inv atFinal := by constructor <;> decide
theorem inv_atFirstAdd : Inv atFirstAdd := by constructor <;> decide
theorem inv_atSaveAdd : Inv atSaveAdd := by constructor <;> decide
theorem inv_atLoad : Inv atLoad := by constructor <;> decide
theorem inv_atRound : Inv (atRound 0) ∧ Inv (atRound 63) := by constructor <;> constructor <;> decide
theorem inv_atAccess (c : BusIn) : Inv (atAccess c) := by
  constructor <;> simp [atAccess, State.reset, State.jobs, jobList]

/-- Each phase, with an accepted command and without one, at the first round and the last, with a further job and
without one. -/
theorem witness_EngineRegistersFollowThePhase :
    (∀ s ∈ [atAccess (BusIn.wr 0x000 2), atAccess (BusIn.rd 0x004), atLoad, atRound 0, atRound 63, atFirstAdd, atFinal],
      s.busIn.rstN = true ∧ changes s (fun _ _ => []) = true) ∧
    (atAccess BusIn.idle).eph = .idle ∧ atLoad.eph = .load ∧ (atRound 63).eph = .round ∧
    (atFirstAdd.eph = .add ∧ atFirstAdd.furtherJob = true) ∧ (atFinal.eph = .add ∧ atFinal.furtherJob = false) := by
  decide

/-- A running HMAC_FINAL of four jobs, and a next state of it. -/
theorem witness_StepKeepsTheInvariant : Inv (running 7 63 opened) ∧ ∃ t, step (running 7 63 opened) = .next t := by
  refine ⟨?_, ⟨_, rfl⟩⟩
  constructor <;> decide

theorem witness_NoStepStops : Inv (running 3 56 State.reset) := by constructor <;> decide

/-- One cycle in which one host rejects nothing and the other writes CTRL, DATA or nothing. -/
theorem witness_HostCannotDisturbARunningCommand :
    let s := running 2 0 State.reset
    let s' : State := { s with host := [BusIn.wr 0x000 8], data := fill 7, doneIe := true }
    s.internals = s'.internals ∧ s.served 1 ∧ s'.served 1 ∧
      (∀ j < 1, ∀ v, Host.Core.run core j s = .next v → v.busy = true) ∧
      ∃ u, Host.Core.run core 1 s = .next u := by
  refine ⟨rfl, served_quiet rfl 1, ?_, ?_, ⟨_, rfl⟩⟩
  · intro c hc
    simp only [List.take, List.mem_cons, List.not_mem_nil, or_false] at hc
    rw [hc]
    rfl
  · intro j hj v hv
    obtain rfl : j = 0 := by omega
    cases hv
    rfl

theorem witness_EveryCommandCompletes : Inv (running 7 63 opened) ∧ (running 7 63 opened).served 264 := by
  refine ⟨?_, served_quiet rfl 264⟩
  constructor <;> decide

/-- What a host program read, if it is over. -/
def readsOf (sched : List Bool) (ops : List HostOp) (s : State) : Option (List Word) :=
  match HostRun.drive sched { prog := ops, reads := [], st := s } with
  | .next h => if h.prog = [] then some h.reads else none
  | _ => none

/-- A host that is ready in every other cycle. -/
def everyOther (n : Nat) : List Bool := (List.range n).map fun i => i % 2 == 1

/-- From reset, with a schedule in which the program comes to its end: 95_test_vectors.md's digest of "abc". -/
theorem witness_Md5SequenceComputesTheDigest :
    (Inv State.reset ∧ State.reset.busy = false ∧ State.reset.hmacActive = false) ∧
    readsOf (everyOther 140) (md5Ops [0x61, 0x62, 0x63]) State.reset =
      some [0x98500190, 0xB04FD23C, 0x7D3F96D6, 0x727FE128] := ⟨⟨reset_inv, rfl, rfl⟩, by decide +kernel⟩

/-- From reset, with a schedule in which the program comes to its end: the spec's HMAC of "Hi There" under sixteen bytes
0x0B. -/
theorem witness_HmacSequenceComputesTheMac :
    (Inv State.reset ∧ State.reset.busy = false ∧ State.reset.hmacActive = false) ∧
    readsOf (List.replicate 320 true)
      (hmacOps (List.replicate 16 0x0B) [0x48, 0x69, 0x20, 0x54, 0x68, 0x65, 0x72, 0x65]) State.reset =
      some [0x7A729492, 0x1CBB3836, 0xF88EF413, 0x9DFC8B15] := ⟨⟨reset_inv, rfl, rfl⟩, by decide +kernel⟩

/-- The longest command, with one WAIT on it. -/
theorem witness_HostProgramsEnd :
    Inv (running 7 63 opened) ∧ 265 * [HostOp.wait].length ≤ (List.replicate 265 true).count true := by
  refine ⟨?_, Nat.le_of_eq List.count_replicate_self.symm⟩
  constructor <;> decide

/-- With a command running: both programs come to their ends. -/
theorem witness_LoadBlkMayPrecedeWait :
    readsOf (everyOther 40) (.wait :: loadBlk [1]) (running 0 0 State.reset) = some [] ∧
    readsOf (List.replicate 17 true) (loadBlk [1] ++ [.wait]) (running 0 0 State.reset) = some [] ∧
    Inv (running 0 0 State.reset) := by
  refine ⟨by decide +kernel, by decide +kernel, ?_⟩
  constructor <;> decide

end Sys2Proof.Tests
end

section
/-! SUPPORT. The STATUS and IRQ_EN words and the DATA buffer, bit by bit and byte by byte (R17, R24, R27, R42). -/

namespace Sys2Proof.Machine

/-! ### The flag words -/

@[simp] theorem getLsbD_bitWord (b : Bool) (k : Nat) : (bitWord b).getLsbD k = (decide (k = 0) && b) := by
  rw [bitWord, BitVec.getLsbD_setWidth, BitVec.getLsbD_ofBool]
  rcases Nat.eq_zero_or_pos k with rfl | h
  · rfl
  · simp [Nat.ne_of_gt h]

/-- R24, R46: a bit of the STATUS word, each field where its shift puts it. -/
theorem getLsbD_statusWord (s : State) {k : Nat} (hk : k < 32) :
    s.statusWord.getLsbD k =
      (decide (k = 9) && s.hmacActive || decide (k = 8) && s.keyValid ||
        decide (4 ≤ k) && s.errcode.getLsbD (k - 4) ||
        decide (k = 2) && s.err || decide (k = 1) && s.done || decide (k = 0) && s.busy) := by
  simp only [State.statusWord, BitVec.getLsbD_or, BitVec.getLsbD_shiftLeft, getLsbD_bitWord,
    BitVec.getLsbD_setWidth]
  interval_cases k <;> simp

/-- R47: a write of IRQ_EN, served. -/
theorem hostEdge_wr_irqEn (v : Word) (s : State) :
    hostEdge (BusIn.wr 0x008 v) s = .next ((s.writeIrqEn v).respond false none) := by
  rw [hostEdge, access_wr v (by decide) (by decide)]
  rfl

/-! ### The bytes of a block -/

/-- R17, R42: byte `4j + k` of a block is lane `k` of its word `j`. -/
theorem blockBytes_lane (b : Block) (j : BitVec 4) {k : Nat} (hk : k < 4) :
    (blockBytes b)[4 * j.toNat + k]? = some ((b.get j).extractLsb' (8 * k) 8) := by
  simp only [blockBytes, wordBytes, List.cons_append, List.nil_append]
  revert j
  interval_cases k <;> apply forall_index <;> rfl

/-- R17: every byte of a block as a lane of one of its words. -/
theorem blockBytes_getElem? (b : Block) {p : Nat} (hp : p < 64) :
    (blockBytes b)[p]? = some ((b.get (BitVec.ofNat 4 (p / 4))).extractLsb' (8 * (p % 4)) 8) := by
  have hj : (BitVec.ofNat 4 (p / 4)).toNat = p / 4 := by
    rw [BitVec.toNat_ofNat]
    omega
  have h := blockBytes_lane b (BitVec.ofNat 4 (p / 4)) (Nat.mod_lt p (by decide : 4 > 0))
  rwa [hj, Nat.div_add_mod] at h

end Sys2Proof.Machine

open Sys2Proof Sys2Proof.Machine

/-- Settles O28: the byte is a lane of word `p / 4`, which is either the word written or one the write leaves. -/
theorem dataWriteSetsFourByteLanes : Obligations.DataWriteSetsFourByteLanes := by
  intro b j v p hp
  rw [blockBytes_getElem? _ hp, blockBytes_getElem? _ hp]
  split_ifs with h
  · have hj : BitVec.ofNat 4 (p / 4) = j := by rw [h, BitVec.ofNat_toNat, BitVec.setWidth_eq]
    rw [hj, Block.get_set_self]
  · have hj : j ≠ BitVec.ofNat 4 (p / 4) := by
      rintro rfl
      rw [BitVec.toNat_ofNat] at h
      omega
    rw [Block.get_set_ne _ _ hj]

/-- Settles O32: the bits below 10 one by one; no field reaches bit 10. -/
theorem statusWordHasItsFields : Obligations.StatusWordHasItsFields := by
  intro s k
  rcases Nat.lt_or_ge k 32 with hk | hk
  · rw [getLsbD_statusWord s hk]
    interval_cases k <;> simp
  · rw [BitVec.getLsbD_of_ge _ _ hk]
    repeat rw [if_neg (by omega)]

/-- Settles O33: the write sets the enables alone, and `irq` is read from the flags and the new enables. -/
theorem enablingAPendingSourceRaisesIrq : Obligations.EnablingAPendingSourceRaisesIrq := by
  intro v s
  refine ⟨_, hostEdge_wr_irqEn v s, rfl, rfl, ?_⟩
  simp [State.irq, State.writeIrqEn]

/-- Settles O34: `busRead` reads none of the registers replaced, so both sides are the same term. -/
theorem theKeyIsNotReadable : Obligations.TheKeyIsNotReadable :=
  fun _ _ _ _ _ _ _ _ => rfl

end

section
/-! SUPPORT. What the engine's edge and the completion writes leave alone, and the frame of a command that runs
while the host makes no access (R17, R23, R26, R29, R94). -/

namespace Sys2Proof.Machine

/-! ### The completion writes, register by register -/

section
variable (last : Bool) (s : State)

/-- R178: what the controller leaves: the registers that `finish` does not reach. -/
theorem controllerEdge_frame :
    controllerEdge last s = { s with
      chain := (controllerEdge last s).chain, bitlen := (controllerEdge last s).bitlen
      digest := (controllerEdge last s).digest, k0 := (controllerEdge last s).k0
      keyValid := (controllerEdge last s).keyValid, hmacActive := (controllerEdge last s).hmacActive
      busy := (controllerEdge last s).busy, done := (controllerEdge last s).done
      cph := (controllerEdge last s).cph } := by
  cases last with
  | false => rfl
  | true => exact finish_frame s

@[simp] theorem controllerEdge_work : (controllerEdge last s).work = s.work := by
  rw [controllerEdge_frame]
@[simp] theorem controllerEdge_rnd : (controllerEdge last s).rnd = s.rnd := by
  rw [controllerEdge_frame]
@[simp] theorem controllerEdge_eph : (controllerEdge last s).eph = s.eph := by
  rw [controllerEdge_frame]
@[simp] theorem controllerEdge_m : (controllerEdge last s).m = s.m := by
  rw [controllerEdge_frame]
@[simp] theorem controllerEdge_ihash : (controllerEdge last s).ihash = s.ihash := by
  rw [controllerEdge_frame]
@[simp] theorem controllerEdge_jobIdx : (controllerEdge last s).jobIdx = s.jobIdx := by
  rw [controllerEdge_frame]
@[simp] theorem controllerEdge_padStage : (controllerEdge last s).padStage = s.padStage := by
  rw [controllerEdge_frame]

end

/-! ### The registers an accepted command keeps -/

/-- R17, R23, R24, R26, R29: the registers that only the host, a rejection or an acceptance writes, with the model's
count of free values. -/
structure AccessRegs where
  data : Block
  ctrl : Word
  err : Bool
  errcode : BitVec 4
  doneIe : Bool
  errIe : Bool
  dl : Block
  dgl : Quad
  opL : BitVec 4
  nL : BitVec 7
  freeCtr : Nat

/-- The access-written registers of a state. -/
def State.accessRegs (s : State) : AccessRegs :=
  { data := s.data, ctrl := s.ctrl, err := s.err, errcode := s.errcode, doneIe := s.doneIe, errIe := s.errIe
    dl := s.dl, dgl := s.dgl, opL := s.opL, nL := s.nL, freeCtr := s.freeCtr }

/-- R175: the engine writes none of the access-written registers. -/
theorem engineStep_accessRegs {p : EnginePhase} {i : BitVec 6} {s t : State} (h : s.engineStep p i = some t) :
    t.accessRegs = s.accessRegs := by
  rw [engineStep_frame h]; rfl

/-- R178: nor do the completion writes. -/
@[simp] theorem controllerEdge_accessRegs (last : Bool) (s : State) :
    (controllerEdge last s).accessRegs = s.accessRegs := by
  rw [controllerEdge_frame]; rfl

/-! ### Cycles without an access -/

/-- R10: in the next `k` cycles the host makes no access and asserts no reset. -/
def State.unaccessed (s : State) (k : Nat) : Prop := ∀ c ∈ s.host.take k, c.rstN = true ∧ c.req = false

theorem State.unaccessed.served {s : State} {k : Nat} (h : s.unaccessed k) : s.served k :=
  fun c hc => (h c hc).1

theorem State.unaccessed.busIn_req {s : State} {k : Nat} (h : s.unaccessed (k + 1)) : s.busIn.req = false := by
  unfold State.busIn
  cases hh : s.host with
  | nil => rfl
  | cons c cs => exact (h c (by rw [hh]; exact List.mem_cons_self)).2

theorem step_keeps_unaccessed {s t : State} {k : Nat} (hs : s.unaccessed (k + 1)) (h : step s = .next t) :
    t.unaccessed k := by
  intro c hc
  rw [step_host (served_busIn hs.served) h] at hc
  exact hs c (List.mem_of_mem_tail (by rw [List.tail_take_eq_take_tail]; exact hc))

theorem hostEdge_noAccess {c : BusIn} (hc : c.req = false) (s : State) :
    hostEdge c s = .next { s with resp := none } := by
  simp [hostEdge, BusIn.access, hc, busEdge]

/-- R94: a cycle without an access leaves the access-written registers. -/
theorem step_noAccess_accessRegs {s t : State} (hr : s.busIn.rstN = true) (hq : s.busIn.req = false)
    (h : step s = .next t) : t.accessRegs = s.accessRegs := by
  obtain ⟨v, u, hv, hu, rfl⟩ := step_parts hr h
  rw [hostEdge_noAccess hq] at hv
  cases hv
  rw [controllerEdge_accessRegs, engineStep_accessRegs hu]
  rfl

/-- R94: so does a command that runs while the host makes no access. -/
theorem BusyRun.accessRegs {k : Nat} {s u : State} (h : BusyRun k s u) (hs : s.unaccessed k) :
    u.accessRegs = s.accessRegs := by
  induction k generalizing s with
  | zero => cases h; rfl
  | succ k ih =>
    obtain ⟨-, t, ht, hr⟩ := h
    exact (ih hr (step_keeps_unaccessed hs ht)).trans
      (step_noAccess_accessRegs (served_busIn hs.served) hs.busIn_req ht)

theorem issue_accepted {op : BitVec 4} {n : BitVec 7} {s : State} (v : Word) (h : rejection op n s = none) :
    s.issue v op n = { s with ctrl := v }.accept op n := by
  rw [State.issue, h]

end Sys2Proof.Machine

open Sys2Proof Sys2Proof.Machine

/-- Settles O22: the accepted command runs for its latency without an access, and no cycle of such a run writes one of
the access-written registers. -/
theorem commandsLeaveTheHostsRegisters : Obligations.CommandsLeaveTheHostsRegisters := by
  intro w s hq hn
  have hs : State.unaccessed ({ s with ctrl := w }.accept (opOf w) (fieldsOf w).len)
    (latency (opOf w) (fieldsOf w).len) := hq
  obtain ⟨u, hu, hhost, -, -⟩ :=
    accept_completes (rejection_none hn).2.1 (fieldsOf w).len (s := { s with ctrl := w }) hs.served
  refine ⟨_, u, (exec_decodeCmd w s).trans (congrArg _ (issue_accepted w hn)), hu.run, ?_⟩
  obtain ⟨hdata, hctrl, herr, hcode, hdie, heie, hdl, hdgl, hop, hnL, hfree⟩ :=
    AccessRegs.mk.inj (hu.accessRegs hs)
  exact ⟨hdata, hctrl, herr, hcode, hdie, heie, hfree, hdl, hdgl, hop, hnL, hhost⟩

end

section
/-! SUPPORT. One edge in a state of the invariant, taken apart: either it accepts a command, and then nothing else
happens, or the access leaves the internal part to the engine and the controller (R94, R150, R174 to R176). -/

namespace Sys2Proof.Machine

/-- R150: the access of the cycle is the command word `w`, and it is accepted. -/
def BusIn.accepted (c : BusIn) (s : State) (w : Word) : Prop :=
  c.access = .command w ∧ rejection (opOf w) (fieldsOf w).len s = none

/-- R152: the access of the cycle is the command word `w`, and it is rejected with the error `e`. -/
def BusIn.rejected (c : BusIn) (s : State) (w : Word) (e : CmdError) : Prop :=
  c.access = .command w ∧ rejection (opOf w) (fieldsOf w).len s = some e

/-- R29, R150, R175, R176: what the edge that accepts the command word `w` leaves, the engine being idle. -/
def State.afterAccept (w : Word) (s : State) : State :=
  ({ s.popHost with ctrl := w }.accept (opOf w) (fieldsOf w).len).respond false none

theorem hostEdge_accepted {s : State} {w : Word} (h : s.busIn.accepted s w) :
    hostEdge s.busIn s.popHost = .next (s.afterAccept w) := by
  obtain ⟨hw, hn⟩ := h
  rw [hostEdge, hw]
  simp only [busEdge, exec_decodeCmd, andThen_next, issue_accepted w (s := s.popHost) hn]
  rfl

/-- R94: an access that is no accepted command reaches nothing internal. -/
theorem hostEdge_notAccepted {c : BusIn} {s v : State} (hn : ¬ ∃ w, c.accepted s w)
    (h : hostEdge c s = .next v) : v.internals = s.internals := by
  obtain ⟨v', hv', hc⟩ := hostEdge_cases c s
  cases h.symm.trans hv'
  rcases hc with ⟨r, k, rfl⟩ | ⟨w, -, rfl⟩ | ⟨w, -, rfl⟩ | ⟨j, w, rfl⟩ | ⟨w, hw, rfl⟩
  · rfl
  · rfl
  · rfl
  · rfl
  · rcases issue_cases w (opOf w) (fieldsOf w).len s with ⟨e, -, hi⟩ | ⟨ha, -⟩
    · rw [hi]; rfl
    · exact absurd ⟨w, hw, ha⟩ hn

theorem Inv.idle {s : State} (hi : Inv s) (hb : s.busy = false) : Idle s := by
  have hc : s.cph = .idle := by
    cases hc : s.cph with
    | idle => rfl
    | run => rw [hi.busy_iff_run.2 hc] at hb; cases hb
  exact ⟨hb, hc, hi.idle_engine hc⟩

/-- R94, R174: the two kinds of edge with `rst_n` = 1, from a state of the invariant. -/
inductive Edge (s t : State) : Prop where
  /-- The block is idle and accepts a command; the engine and the controller do nothing. -/
  | accept (w : Word) (ha : s.busIn.accepted s w) (hi : Idle s) (ht : t = s.afterAccept w)
  /-- No command is accepted: the engine works on the internal part `s` had, then the controller. -/
  | run (v u : State) (hn : ¬ ∃ w, s.busIn.accepted s w) (hv : v.internals = s.internals)
      (hu : v.engineStep s.eph s.rnd = some u) (ht : t = controllerEdge s.lastCycle u)

theorem step_edge {s t : State} (hi : Inv s) (hr : s.busIn.rstN = true) (h : step s = .next t) : Edge s t := by
  by_cases ha : ∃ w, s.busIn.accepted s w
  · obtain ⟨w, ha⟩ := ha
    have hidle : Idle s := hi.idle (rejection_none ha.2).1
    have hs := hidle.step hr (hostEdge_accepted ha)
    cases h.symm.trans hs
    exact .accept w ha hidle rfl
  · obtain ⟨v, u, hv, hu, ht⟩ := step_parts hr h
    exact .run v u ha (hostEdge_notAccepted (s := s.popHost) ha hv) hu ht

end Sys2Proof.Machine

open Sys2Proof Sys2Proof.Machine

/-- Settles O51: an accepting edge finds the engine idle and only chooses the phase; at any other edge the engine's
step from the registers of `s` is what the phase says, and the controller writes none of them. -/
theorem engineRegistersFollowThePhase : Obligations.EngineRegistersFollowThePhase := by
  intro s t hi hr h
  cases step_edge hi hr h with
  | accept w ha hidle ht =>
    subst ht
    rw [hidle.eph]
    have heph : (s.afterAccept w).eph = if jobList (opOf w) (fieldsOf w).len = [] then .idle else .load := rfl
    rw [heph]
    refine ⟨rfl, rfl, rfl, ?_, ?_⟩
    · split_ifs
      · exact .inl rfl
      · exact .inr rfl
    · constructor
      · intro hl
        exact ⟨w, ha.1, ha.2, fun hj => by simp [hj] at hl⟩
      · rintro ⟨w', hw', -, hj⟩
        cases ha.1.symm.trans hw'
        rw [if_neg hj]
  | run v u hn hv hu ht =>
    subst ht
    rw [eq_of_internals hv.symm] at hu
    simp only [controllerEdge_work, controllerEdge_rnd, controllerEdge_m, controllerEdge_eph]
    cases hp : s.eph with
    | idle =>
      rw [hp] at hu
      cases hu
      refine ⟨rfl, rfl, rfl, .inl rfl, ?_⟩
      constructor
      · intro hl
        cases hl
      · rintro ⟨w, hw, ha, -⟩
        exact absurd ⟨w, hw, ha⟩ hn
    | load =>
      rw [hp] at hu
      simp only [State.engineStep, Option.map_eq_some_iff] at hu
      obtain ⟨j, hj, rfl⟩ := hu
      exact ⟨j, hj, rfl, rfl, rfl, rfl⟩
    | round =>
      rw [hp] at hu
      cases hu
      exact ⟨rfl, rfl, rfl, rfl⟩
    | add =>
      rw [hp] at hu
      cases hu
      exact ⟨rfl, rfl, rfl, rfl⟩

end

section
/-! SUPPORT. Which registers each part of an edge may change, and under which condition: the host's access, the
engine's micro-operation, the completion writes (R11 to R29, R47, R150 to R154, R177). -/

namespace Sys2Proof.Machine

/-! ### The host's access -/

/-- R41: the word index that an offset of the DATA registers selects. -/
theorem dataIndex_eq {off : BitVec 12} (h : 0x040 ≤ off.toNat) :
    ((off - 0x040) >>> 2).setWidth 4 = BitVec.ofNat 4 ((off.toNat - 0x040) / 4) := by
  apply BitVec.eq_of_toNat_eq
  have hsub : (off - 0x040).toNat = off.toNat - 0x040 := BitVec.toNat_sub_of_le h
  rw [BitVec.toNat_setWidth, BitVec.toNat_ushiftRight, BitVec.toNat_ofNat, hsub, Nat.shiftRight_eq_div_pow]

/-- R47: a write at an offset of the DATA registers. -/
theorem busWrite_data {off : BitVec 12} (h : 0x040 ≤ off.toNat) (h' : off.toNat ≤ 0x07C) (w : Word) (s : State) :
    s.busWrite off w = { s with data := s.data.set (BitVec.ofNat 4 ((off.toNat - 0x040) / 4)) w } := by
  have h4 : off ≠ 0x004 := by rintro rfl; exact absurd h (by decide)
  have h8 : off ≠ 0x008 := by rintro rfl; exact absurd h (by decide)
  rw [State.busWrite, if_neg h4, if_neg h8, if_pos ⟨h, h'⟩, dataIndex_eq h]

/-- R17, R47: an access changes DATA only by writing one word of it. -/
theorem hostEdge_data {c : BusIn} {s v : State} (h : hostEdge c s = .next v) (hne : v.data ≠ s.data) :
    ∃ off w, c.access = .write off w ∧ 0x040 ≤ off.toNat ∧ off.toNat ≤ 0x07C ∧
      v.data = s.data.set (BitVec.ofNat 4 ((off.toNat - 0x040) / 4)) w := by
  obtain ⟨-, -, -, -, -, -, -, hd, -⟩ := hostEdge_frame h
  obtain ⟨off, w, hw, hlo, hhi⟩ := hd.resolve_left hne
  refine ⟨off, w, hw, hlo, hhi, ?_⟩
  rw [hostEdge, hw] at h
  cases h
  rw [busWrite_data hlo hhi]
  rfl

/-- R23 to R29, R47, R150, R152: the registers beside DATA that an access changes, each with its writer. -/
structure AccessWrites (c : BusIn) (s v : State) : Prop where
  ctrl : v.ctrl ≠ s.ctrl → ∃ w, c.access = .command w ∧ v.ctrl = w
  doneIe : v.doneIe ≠ s.doneIe → ∃ w, c.access = .write 0x008 w ∧ v.doneIe = w.getLsbD 0
  errIe : v.errIe ≠ s.errIe → ∃ w, c.access = .write 0x008 w ∧ v.errIe = w.getLsbD 1
  done : v.done ≠ s.done →
    ((∃ w, c.accepted s w) ∨ ∃ w, c.access = .write 0x004 w ∧ w.getLsbD 1 = true) ∧ v.done = false
  err : v.err ≠ s.err → ((∃ w e, c.rejected s w e) ∧ v.err = true) ∨
    (∃ w, c.access = .write 0x004 w ∧ w.getLsbD 2 = true) ∧ v.err = false
  errcode : v.errcode ≠ s.errcode → (∃ w e, c.rejected s w e ∧ v.errcode = e.code) ∨
    (∃ w, c.access = .write 0x004 w ∧ w.getLsbD 2 = true) ∧ v.errcode = 0
  dl : v.dl ≠ s.dl → ∃ w, c.accepted s w ∧ v.dl = s.data
  dgl : v.dgl ≠ s.dgl → ∃ w, c.accepted s w ∧ v.dgl = s.digest
  opL : v.opL ≠ s.opL → ∃ w, c.accepted s w ∧ v.opL = opOf w
  nL : v.nL ≠ s.nL → ∃ w, c.accepted s w ∧ v.nL = (fieldsOf w).len

theorem hostEdge_writes {c : BusIn} {s v : State} (h : hostEdge c s = .next v) : AccessWrites c s v := by
  obtain ⟨v', hv', hc⟩ := hostEdge_cases c s
  cases h.symm.trans hv'
  rcases hc with ⟨r, k, rfl⟩ | ⟨w, hw, rfl⟩ | ⟨w, hw, rfl⟩ | ⟨j, w, rfl⟩ | ⟨w, hw, rfl⟩
  · constructor <;> exact fun hne => absurd rfl hne
  · constructor
    case done =>
      intro hne
      have hb := (ite_ne_right_iff.1 hne).1
      exact ⟨.inr ⟨w, hw, hb⟩, if_pos hb⟩
    case err =>
      intro hne
      have hb := (ite_ne_right_iff.1 hne).1
      exact .inr ⟨⟨w, hw, hb⟩, if_pos hb⟩
    case errcode =>
      intro hne
      have hb := (ite_ne_right_iff.1 hne).1
      exact .inr ⟨⟨w, hw, hb⟩, if_pos hb⟩
    all_goals exact fun hne => absurd rfl hne
  · constructor
    case doneIe => exact fun _ => ⟨w, hw, rfl⟩
    case errIe => exact fun _ => ⟨w, hw, rfl⟩
    all_goals exact fun hne => absurd rfl hne
  · constructor <;> exact fun hne => absurd rfl hne
  · rcases issue_cases w (opOf w) (fieldsOf w).len s with ⟨e, he, hi⟩ | ⟨ha, hi⟩
    · rw [hi]
      constructor
      case ctrl => exact fun _ => ⟨w, hw, rfl⟩
      case err => exact fun _ => .inl ⟨⟨w, e, hw, he⟩, rfl⟩
      case errcode => exact fun _ => .inl ⟨w, e, ⟨hw, he⟩, rfl⟩
      all_goals exact fun hne => absurd rfl hne
    · rw [hi]
      constructor
      case ctrl => exact fun _ => ⟨w, hw, rfl⟩
      case done => exact fun _ => ⟨.inl ⟨w, hw, ha⟩, rfl⟩
      case dl => exact fun _ => ⟨w, ⟨hw, ha⟩, rfl⟩
      case dgl => exact fun _ => ⟨w, ⟨hw, ha⟩, rfl⟩
      case opL => exact fun _ => ⟨w, ⟨hw, ha⟩, rfl⟩
      case nL => exact fun _ => ⟨w, ⟨hw, ha⟩, rfl⟩
      all_goals exact fun hne => absurd rfl hne

/-- R24, R58, R178: DONE is set by a last cycle, and otherwise changed by the access alone. -/
theorem step_done_writes {s t : State} (hi : Inv s) (hr : s.busIn.rstN = true) (h : step s = .next t)
    (hne : t.done ≠ s.done) : (s.lastCycle = true ∧ t.done = true) ∨
      ((∃ w, s.busIn.accepted s w) ∨ ∃ w, s.busIn.access = .write 0x004 w ∧ w.getLsbD 1 = true) ∧ t.done = false := by
  obtain ⟨v, u, hv, hu, rfl⟩ := step_parts hr h
  have hud : u.done = v.done := by rw [engineStep_frame hu]
  cases hl : s.lastCycle with
  | true =>
    have hrun : s.cph = .run := lastCycle_run hl
    obtain ⟨-, -, -, -, -, -, -, -, -, hop⟩ := hostEdge_frame hv
    have huop : u.opL = s.opL := by rw [engineStep_frame hu]; exact hop (hi.busy_iff_run.2 hrun)
    exact .inl ⟨rfl, (finish_complete (huop ▸ (hi.latched_legal hrun).1)).2.1⟩
  | false =>
    rw [hl, controllerEdge_false, hud] at hne
    rw [controllerEdge_false, hud]
    exact .inr ((hostEdge_writes hv).done hne)

/-- R94: at an edge the access-written registers are as the access left them. -/
theorem step_access_writes {s t : State} (hr : s.busIn.rstN = true) (h : step s = .next t) :
    ∃ v, hostEdge s.busIn s.popHost = .next v ∧ t.accessRegs = v.accessRegs := by
  obtain ⟨v, u, hv, hu, rfl⟩ := step_parts hr h
  exact ⟨v, hv, (controllerEdge_accessRegs _ _).trans (engineStep_accessRegs hu)⟩

/-! ### The engine -/

/-- R11, R19, R28: the registers beside the working registers that the engine's step changes, each with its phase. -/
theorem engineStep_writes {p : EnginePhase} {i : BitVec 6} {s t : State} (h : s.engineStep p i = some t) :
    (t.chain ≠ s.chain → p = .load ∨ p = .add) ∧
    (t.ihash ≠ s.ihash → p = .add ∧ ∃ j, s.currentJob = some j ∧ j.save = true) ∧
    (t.jobIdx ≠ s.jobIdx → p = .add) ∧ (t.padStage ≠ s.padStage → p = .add) := by
  cases p with
  | idle => cases h; simp
  | load =>
    simp only [State.engineStep, Option.map_eq_some_iff] at h
    obtain ⟨j, -, rfl⟩ := h
    simp
  | round => cases h; simp
  | add =>
    cases h
    have hsave : s.doAdd.ihash ≠ s.ihash → ∃ j, s.currentJob = some j ∧ j.save = true := fun hne => by
      simpa [Option.any_eq_true] using (ite_ne_right_iff.1 hne).1
    simpa using hsave

/-- R94: the registers of the running command that neither an unaccepted access nor the engine writes. -/
structure KeepsCommand (s u : State) : Prop where
  digest : u.digest = s.digest
  bitlen : u.bitlen = s.bitlen
  k0 : u.k0 = s.k0
  keyValid : u.keyValid = s.keyValid
  hmacActive : u.hmacActive = s.hmacActive
  opL : u.opL = s.opL
  cph : u.cph = s.cph
  busy : u.busy = s.busy

theorem engineStep_keepsCommand {p : EnginePhase} {i : BitVec 6} {s v u : State} (hv : v.internals = s.internals)
    (hu : v.engineStep p i = some u) : KeepsCommand s u := by
  rw [engineStep_frame hu, eq_of_internals hv.symm]
  exact ⟨rfl, rfl, rfl, rfl, rfl, rfl, rfl, rfl⟩

/-! ### The completion writes -/

/-- R177: the completion writes by opcode. -/
theorem finish_cases (s : State) :
    (s.opL = 0 ∧ finish s = finishNop s) ∨ (s.opL = 1 ∧ finish s = finishMd5Init s) ∨
    (s.opL = 2 ∧ finish s = finishMd5Update s) ∨ (s.opL = 3 ∧ finish s = finishMd5Final s) ∨
    (s.opL = 4 ∧ finish s = finishHmacSetkey s) ∨ (s.opL = 5 ∧ finish s = finishHmacSetkeyDigest s) ∨
    (s.opL = 6 ∧ finish s = finishHmacInit s) ∨ (s.opL = 7 ∧ finish s = finishHmacFinal s) ∨ finish s = s := by
  unfold finish
  generalize s.opL = op
  revert op
  apply forall_index <;> simp

/-- R11, R18, R20 to R24, R28: the registers the completion writes change, each with the commands that write it. -/
structure CompletionWrites (last : Bool) (u t : State) : Prop where
  digest : t.digest ≠ u.digest → last = true ∧ (u.opL = 3 ∨ u.opL = 7)
  bitlen : t.bitlen ≠ u.bitlen → last = true ∧
    (u.opL = 1 ∨ u.opL = 2 ∨ u.opL = 3 ∨ u.opL = 6 ∨ u.opL = 7)
  k0 : t.k0 ≠ u.k0 → last = true ∧ (u.opL = 4 ∨ u.opL = 5 ∨ u.opL = 7)
  keyValid : t.keyValid ≠ u.keyValid → last = true ∧ (u.opL = 4 ∨ u.opL = 5 ∨ u.opL = 7)
  hmacActive : t.hmacActive ≠ u.hmacActive → last = true ∧ (u.opL = 1 ∨ u.opL = 6 ∨ u.opL = 7)
  chain : t.chain ≠ u.chain → last = true ∧ u.opL = 1
  cph : t.cph ≠ u.cph → last = true ∧ t.cph = .idle
  busy : t.busy ≠ u.busy → last = true ∧ t.busy = false

theorem controllerEdge_writes (last : Bool) (u : State) : CompletionWrites last u (controllerEdge last u) := by
  cases last with
  | false => constructor <;> exact fun hne => absurd rfl hne
  | true =>
    rw [controllerEdge_true]
    rcases finish_cases u with ⟨ho, hf⟩ | ⟨ho, hf⟩ | ⟨ho, hf⟩ | ⟨ho, hf⟩ | ⟨ho, hf⟩ | ⟨ho, hf⟩ | ⟨ho, hf⟩ |
      ⟨ho, hf⟩ | hf
    · rw [hf]; constructor <;> simp [ho, finishNop]
    · rw [hf]; constructor <;> simp [ho, finishMd5Init]
    · rw [hf]; constructor <;> simp [ho, finishMd5Update]
    · rw [hf]; constructor <;> simp [ho, finishMd5Final]
    · rw [hf]; constructor <;> simp [ho, finishHmacSetkey]
    · rw [hf]; constructor <;> simp [ho, finishHmacSetkeyDigest]
    · rw [hf]; constructor <;> simp [ho, finishHmacInit]
    · rw [hf]; constructor <;> simp [ho, finishHmacFinal]
    · rw [hf]; constructor <;> exact fun hne => absurd rfl hne

/-! ### The whole edge, one group of registers at a time -/

section
variable {s t : State} (hi : Inv s) (hr : s.busIn.rstN = true) (h : step s = .next t)
include hi hr h

/-- R18, R20, R21, R22: the results and mode flags change only by the completion writes of their commands. -/
theorem step_result_writes :
    (t.digest ≠ s.digest → s.lastCycle = true ∧ (s.opL = 3 ∨ s.opL = 7)) ∧
    (t.bitlen ≠ s.bitlen → s.lastCycle = true ∧
      (s.opL = 1 ∨ s.opL = 2 ∨ s.opL = 3 ∨ s.opL = 6 ∨ s.opL = 7)) ∧
    (t.k0 ≠ s.k0 → s.lastCycle = true ∧ (s.opL = 4 ∨ s.opL = 5 ∨ s.opL = 7)) ∧
    (t.keyValid ≠ s.keyValid → s.lastCycle = true ∧ (s.opL = 4 ∨ s.opL = 5 ∨ s.opL = 7)) ∧
    (t.hmacActive ≠ s.hmacActive → s.lastCycle = true ∧ (s.opL = 1 ∨ s.opL = 6 ∨ s.opL = 7)) := by
  cases step_edge hi hr h with
  | accept w ha hidle ht => subst ht; simp [State.afterAccept]
  | run v u hn hv hu ht =>
    subst ht
    have hk := engineStep_keepsCommand hv hu
    have hw := controllerEdge_writes s.lastCycle u
    rw [← hk.digest, ← hk.bitlen, ← hk.k0, ← hk.keyValid, ← hk.hmacActive, ← hk.opL]
    exact ⟨hw.digest, hw.bitlen, hw.k0, hw.keyValid, hw.hmacActive⟩

/-- R11, R19, R28: the chaining registers, IHASH, the job index and the padding stage. -/
theorem step_job_writes :
    (t.chain ≠ s.chain → s.eph = .load ∨ s.eph = .add ∨ (s.lastCycle = true ∧ s.opL = 1)) ∧
    (t.ihash ≠ s.ihash → s.eph = .add ∧ ∃ j, s.currentJob = some j ∧ j.save = true) ∧
    (t.jobIdx ≠ s.jobIdx → s.eph = .add ∨ ∃ w, s.busIn.accepted s w) ∧
    (t.padStage ≠ s.padStage → s.eph = .add ∨ ∃ w, s.busIn.accepted s w) := by
  cases step_edge hi hr h with
  | accept w ha hidle ht =>
    subst ht
    exact ⟨fun hne => absurd rfl hne, fun hne => absurd rfl hne, fun _ => .inr ⟨w, ha⟩, fun _ => .inr ⟨w, ha⟩⟩
  | run v u hn hv hu ht =>
    subst ht
    have hk := engineStep_keepsCommand hv hu
    rw [eq_of_internals hv.symm] at hu
    obtain ⟨hchain, hihash, hidx, hpad⟩ := engineStep_writes hu
    rw [controllerEdge_ihash, controllerEdge_jobIdx, controllerEdge_padStage]
    refine ⟨fun hne => ?_, hihash, fun hne => .inl (hidx hne), fun hne => .inl (hpad hne)⟩
    by_cases hu' : u.chain = s.chain
    · rw [← hu'] at hne
      rw [← hk.opL]
      exact .inr (.inr ((controllerEdge_writes s.lastCycle u).chain hne))
    · rcases hchain hu' with hp | hp
      · exact .inl hp
      · exact .inr (.inl hp)

/-- R24, R28, R176: the controller phase and BUSY change at an acceptance and in a last cycle. -/
theorem step_phase_writes :
    (t.cph ≠ s.cph → (s.lastCycle = true ∧ t.cph = .idle) ∨ ∃ w, s.busIn.accepted s w ∧ t.cph = .run) ∧
    (t.busy ≠ s.busy → (s.lastCycle = true ∧ t.busy = false) ∨ ∃ w, s.busIn.accepted s w ∧ t.busy = true) := by
  cases step_edge hi hr h with
  | accept w ha hidle ht =>
    subst ht
    exact ⟨fun _ => .inr ⟨w, ha, rfl⟩, fun _ => .inr ⟨w, ha, rfl⟩⟩
  | run v u hn hv hu ht =>
    subst ht
    have hk := engineStep_keepsCommand hv hu
    have hw := controllerEdge_writes s.lastCycle u
    rw [← hk.cph, ← hk.busy]
    exact ⟨fun hne => .inl (hw.cph hne), fun hne => .inl (hw.busy hne)⟩

/-- R12 to R15: M, the working registers, rnd and the phase, from what each phase makes of them. -/
theorem step_engine_writes :
    (t.m ≠ s.m → s.eph = .load) ∧
    (t.work ≠ s.work → s.eph = .load ∨ s.eph = .round) ∧
    (t.rnd ≠ s.rnd → s.eph = .load ∨ s.eph = .round) ∧
    (t.eph ≠ s.eph → s.eph ≠ .idle ∨ ∃ w, s.busIn.accepted s w) := by
  have hphase := engineRegistersFollowThePhase s t hi hr h
  cases hp : s.eph with
  | idle =>
    rw [hp] at hphase
    obtain ⟨hwork, hrnd, hm, heph, hload⟩ := hphase
    refine ⟨absurd hm, absurd hwork, absurd hrnd, fun hne => .inr ?_⟩
    obtain ⟨w, hw, ha, -⟩ := hload.1 (heph.resolve_left hne)
    exact ⟨w, hw, ha⟩
  | load => simp
  | round =>
    rw [hp] at hphase
    obtain ⟨-, -, hm, -⟩ := hphase
    simp [hm]
  | add =>
    rw [hp] at hphase
    obtain ⟨hwork, hrnd, hm, -⟩ := hphase
    simp [hwork, hrnd, hm]

end

end Sys2Proof.Machine

open Sys2Proof Sys2Proof.Machine

/-- Settles O41, group by group: results, chaining registers and job sequence, engine, phase and BUSY, and the registers
that only an access writes. -/
theorem registersHaveOnlyTheirWriters : Obligations.RegistersHaveOnlyTheirWriters := by
  intro s t hi hr h
  obtain ⟨hdigest, hbitlen, hk0, hkey, hactive⟩ := step_result_writes hi hr h
  obtain ⟨hchain, hihash, hidx, hpad⟩ := step_job_writes hi hr h
  obtain ⟨hm, hwork, hrnd, heph⟩ := step_engine_writes hi hr h
  obtain ⟨hcph, hbusy⟩ := step_phase_writes hi hr h
  obtain ⟨v, hv, hregs⟩ := step_access_writes hr h
  obtain ⟨htdata, htctrl, hterr, htcode, htdie, hteie, htdl, htdgl, htop, htnL, -⟩ := AccessRegs.mk.inj hregs
  have hw : AccessWrites s.busIn s.popHost v := hostEdge_writes hv
  refine ⟨hdigest, hbitlen, hk0, hkey, hactive, hchain, hm, hwork, hrnd, hihash, heph, hidx, hpad, hcph, hbusy,
    ?_, ?_, ?_, ?_, ?_, ?_, ?_, ?_, step_done_writes hi hr h, ?_, ?_⟩
  · rw [htdl]; exact hw.dl
  · rw [htdgl]; exact hw.dgl
  · rw [htop]; exact hw.opL
  · rw [htnL]; exact hw.nL
  · rw [htdata]; exact hostEdge_data (s := s.popHost) hv
  · rw [htctrl]; exact hw.ctrl
  · rw [htdie]; exact hw.doneIe
  · rw [hteie]; exact hw.errIe
  · rw [hterr]; exact hw.err
  · rw [htcode]; exact hw.errcode

end

section
/-! SUPPORT. A command word laid out in byte lanes (R42, R60). -/

namespace Sys2Proof

/-- R42: the decoder over bytes puts the lanes of a word together again. -/
theorem decodeCmdBytes_wordBytes (w : Word) (rest : List Byte) :
    decodeCmdBytes (wordBytes w ++ rest) = .ok (decodeCmd w, rest) :=
  congrArg (fun v => Except.ok (decodeCmd v, rest)) (Machine.le32_wordBytes w)

/-- R64: a word whose opcode lies in the illegal range. -/
theorem decodeCmd_illegal {w : Word} (h : 8 ≤ (opOf w).toNat) : decodeCmd w = .illegalOp (opOf w) (fieldsOf w) := by
  rcases Machine.decodeCmd_cases w with ⟨ho, -⟩ | ⟨ho, -⟩ | ⟨ho, -⟩ | ⟨ho, -⟩ | ⟨ho, -⟩ | ⟨ho, -⟩ | ⟨ho, -⟩ |
    ⟨ho, -⟩ | ⟨-, hd⟩
  case inr.inr.inr.inr.inr.inr.inr.inr => exact hd
  all_goals rw [ho] at h; exact absurd h (by decide)

/-- R60, R62, R64: the word that encodes a well-formed command decodes to it. -/
theorem decodeCmd_of_encode {i : Instr} {w : Word} (hi : i.wellFormed = true) (h : encode i = .cmd w) :
    decodeCmd w = i := by
  cases i
  case illegalOp op f =>
    cases h
    have hop : 8 ≤ op.toNat := of_decide_eq_true hi
    rw [decodeCmd_illegal (by rwa [opOf_cmdWord]), opOf_cmdWord, fieldsOf_cmdWord]
  case nop | md5Init | md5Update | md5Final | hmacSetkey | hmacSetkeyDigest | hmacInit | hmacFinal =>
    cases h
    simp [decodeCmd]
  case roundF | roundG | roundH | roundI | load | add => cases h

end Sys2Proof

open Sys2Proof Sys2Proof.Machine

/-- Settles O3: the lanes of the word are put together again, and the word decodes to what it encodes; a list of fewer
than four bytes does not match the decoder's first case. -/
theorem commandBytesDecodeInLaneOrder : Obligations.CommandBytesDecodeInLaneOrder := by
  constructor
  · intro i w rest hi h
    rw [decodeCmdBytes_wordBytes, decodeCmd_of_encode hi h]
  · intro bs hlen
    match bs with
    | [] => rfl
    | [_] => rfl
    | [_, _] => rfl
    | [_, _, _] => rfl
    | _ :: _ :: _ :: _ :: _ => exact absurd hlen (by simp)

end

section
/-! SUPPORT. The access of a cycle by its offset: full-word reads and writes, the words the flag registers read as, and
accesses that are no full word (R41 to R49). -/

namespace Sys2Proof.Machine

/-! ### Which access it is -/

/-- R41: an offset equals one that a rule names when the numbers are equal; as an equation, for `ite_congr`. -/
theorem offset_eq (off b : BitVec 12) : (off = b) = (off.toNat = b.toNat) := propext BitVec.toNat_inj.symm

/-- R43: `reg_addr[1:0]` = 0. -/
theorem lowBits_eq_zero_iff (off : BitVec 12) : off.extractLsb' 0 2 = 0 ↔ off.toNat % 4 = 0 := by
  rw [← BitVec.toNat_inj]
  simp

/-- R43, R44: a request that is not a full aligned word. -/
theorem access_bad {c : BusIn} (hq : c.req = true) (h : c.addr.toNat % 4 ≠ 0 ∨ c.be ≠ 0b1111) :
    c.access = .bad c.we := by
  have hf : c.fullWord = false := by
    rw [BusIn.fullWord, Bool.and_eq_false_iff, beq_eq_false_iff_ne, beq_eq_false_iff_ne]
    exact h.imp_left (mt (lowBits_eq_zero_iff c.addr).1)
  rw [BusIn.access, if_neg (by simp [hq]), if_pos hf]

/-! ### What the access does -/

/-- R46: a full-word read, served. -/
theorem hostEdge_rd {off : BitVec 12} (h : off.toNat % 4 = 0) (s : State) :
    hostEdge (BusIn.rd off) s = .next (State.respond false (some (s.busRead off)) { s with
      freeCtr := if s.busy && isChainOff off then s.freeCtr + 1 else s.freeCtr }) := by
  rw [hostEdge, access_rd ((lowBits_eq_zero_iff off).2 h)]
  rfl

/-- R47, R48: a full-word write of an offset other than CTRL's, served. -/
theorem hostEdge_wr {off : BitVec 12} (h : off.toNat % 4 = 0) (h0 : off ≠ 0) (v : Word) (s : State) :
    hostEdge (BusIn.wr off v) s = .next ((s.busWrite off v).respond false none) := by
  rw [hostEdge, access_wr v ((lowBits_eq_zero_iff off).2 h) h0]
  rfl

/-- R47, R150: a full-word write of CTRL, served. -/
theorem hostEdge_command (v : Word) (s : State) :
    hostEdge (BusIn.wr 0x000 v) s = .next ((s.issue v (opOf v) (fieldsOf v).len).respond false none) := by
  rw [hostEdge, access_command]
  simp only [busEdge, exec_decodeCmd, andThen_next]

/-- R47: issuing a command stores its word, whether it is accepted or not. -/
theorem issue_ctrl (v : Word) (op : BitVec 4) (n : BitVec 7) (s : State) : (s.issue v op n).ctrl = v := by
  rcases issue_cases v op n s with ⟨c, -, hi⟩ | ⟨-, hi⟩
  · rw [hi]
  · rw [hi]; rfl

/-! ### The words read -/

/-- R24, R46: the STATUS word as the sum of its fields, checked over the 512 values of its nine bits. -/
theorem statusWord_eq (s : State) : s.statusWord = BitVec.ofNat 32 (
    (if s.hmacActive then 2 ^ 9 else 0) + (if s.keyValid then 2 ^ 8 else 0) + s.errcode.toNat * 2 ^ 4 +
    (if s.err then 2 ^ 2 else 0) + (if s.done then 2 ^ 1 else 0) + (if s.busy then 1 else 0)) := by
  unfold State.statusWord
  generalize s.hmacActive = h, s.keyValid = k, s.errcode = c, s.err = e, s.done = d, s.busy = b
  revert h k c e d b
  decide

/-- R26, R46: the IRQ_EN word as the sum of its fields. -/
theorem irqEnWord_eq (s : State) :
    s.irqEnWord = BitVec.ofNat 32 ((if s.errIe then 2 else 0) + (if s.doneIe then 1 else 0)) := by
  unfold State.irqEnWord
  generalize s.errIe = e, s.doneIe = d
  revert e d
  decide

/-- R41: the offsets of the CHAIN registers. -/
theorem isChainOff_iff {off : BitVec 12} : isChainOff off = true ↔ 0x090 ≤ off.toNat ∧ off.toNat ≤ 0x09C :=
  decide_eq_true_iff

/-- R41: the word index that an offset selects in a four-word register array. -/
theorem quadIndex_eq {off base : BitVec 12} (h : base.toNat ≤ off.toNat) :
    ((off - base) >>> 2).setWidth 2 = BitVec.ofNat 2 ((off.toNat - base.toNat) / 4) := by
  apply BitVec.eq_of_toNat_eq
  have hsub : (off - base).toNat = off.toNat - base.toNat := BitVec.toNat_sub_of_le h
  rw [BitVec.toNat_setWidth, BitVec.toNat_ushiftRight, BitVec.toNat_ofNat, hsub, Nat.shiftRight_eq_div_pow]

/-- R21, R41, R46: the words of a four-word register array at their offsets from `base` on. -/
theorem quadRead_eq (q : Quad) {off base : BitVec 12} (z : Word) (hlo : base.toNat ≤ off.toNat)
    (hhi : off.toNat ≤ base.toNat + 12) (hal : (off.toNat - base.toNat) % 4 = 0) :
    q.get (((off - base) >>> 2).setWidth 2) =
      if off.toNat = base.toNat then q.a else if off.toNat = base.toNat + 4 then q.b
      else if off.toNat = base.toNat + 8 then q.c else if off.toNat = base.toNat + 12 then q.d else z := by
  obtain ⟨n, hn⟩ := Nat.exists_eq_add_of_le hlo
  obtain ⟨k, rfl⟩ : 4 ∣ n := Nat.dvd_of_mod_eq_zero (by rwa [hn, Nat.add_sub_cancel_left] at hal)
  have hk : k < 4 := by omega
  rw [quadIndex_eq hlo, hn, Nat.add_sub_cancel_left, Nat.mul_div_cancel_left k (by decide)]
  interval_cases k <;> simp [Quad.get]

/-- R46, R49: past the DATA registers a read of an aligned offset returns a word of DIGEST, a word of CHAIN or, while
BUSY = 1, the free value in its place, and 0 at the reserved offsets. -/
theorem digestChainRead_eq {off : BitVec 12} (hal : off.toNat % 4 = 0) (s : State) :
    (if 0x080 ≤ off.toNat ∧ off.toNat ≤ 0x08C then s.digest.get ((off - 0x080) >>> 2 |>.setWidth 2)
      else if isChainOff off = true then
        if s.busy = false then s.chain.get ((off - 0x090) >>> 2 |>.setWidth 2) else Config.freeChain s.freeCtr
      else 0) =
    if off.toNat = 0x080 then s.digest.a else if off.toNat = 0x084 then s.digest.b
    else if off.toNat = 0x088 then s.digest.c else if off.toNat = 0x08C then s.digest.d
    else if (0x090 ≤ off.toNat ∧ off.toNat ≤ 0x09C) ∧ s.busy = true then Config.freeChain s.freeCtr
    else if off.toNat = 0x090 then s.chain.a else if off.toNat = 0x094 then s.chain.b
    else if off.toNat = 0x098 then s.chain.c else if off.toNat = 0x09C then s.chain.d
    else 0 := by
  by_cases hd : 0x080 ≤ off.toNat ∧ off.toNat ≤ 0x08C
  · rw [if_pos hd]
    exact quadRead_eq (base := 0x080) _ _ hd.1 hd.2 (by simp; omega)
  · rw [if_neg hd, if_neg (by omega : ¬ off.toNat = 0x080), if_neg (by omega : ¬ off.toNat = 0x084),
      if_neg (by omega : ¬ off.toNat = 0x088), if_neg (by omega : ¬ off.toNat = 0x08C)]
    by_cases hc : 0x090 ≤ off.toNat ∧ off.toNat ≤ 0x09C
    · rw [if_pos (isChainOff_iff.2 hc)]
      cases hb : s.busy with
      | false =>
        rw [if_pos rfl, if_neg (by simp)]
        exact quadRead_eq (base := 0x090) _ _ hc.1 hc.2 (by simp; omega)
      | true => rw [if_neg (by simp), if_pos ⟨hc, rfl⟩]
    · rw [if_neg (mt isChainOff_iff.1 hc), if_neg (fun h => hc h.1), if_neg (by omega), if_neg (by omega),
        if_neg (by omega), if_neg (by omega)]

/-! ### The words written -/

/-- R47: a write of any offset leaves the answer on the ports. -/
@[simp] theorem busWrite_resp (off : BitVec 12) (v : Word) (s : State) : (s.busWrite off v).resp = s.resp := by
  unfold State.busWrite
  split_ifs <;> rfl

/-- R47: the STATUS write with its clears as conjunctions. -/
theorem writeStatus_eq (v : Word) (s : State) :
    s.writeStatus v = { s with
      done := s.done && !v.getLsbD 1
      err := s.err && !v.getLsbD 2
      errcode := if v.getLsbD 2 then 0 else s.errcode } := by
  unfold State.writeStatus
  cases v.getLsbD 1 <;> cases v.getLsbD 2 <;> simp

end Sys2Proof.Machine

open Sys2Proof Sys2Proof.Machine

/-- Settles O29: `busRead` and the rule choose by the same offsets up to DATA; past it an offset of DIGEST or CHAIN
selects one of four words. -/
theorem readsReturnTheRegisterWindow : Obligations.ReadsReturnTheRegisterWindow := by
  intro off s hal a chainRead value
  have hv : s.busRead off = value :=
    ite_congr (offset_eq off 0x000) (fun _ => rfl) fun _ =>
      ite_congr (offset_eq off 0x004) (fun _ => statusWord_eq s) fun _ =>
      ite_congr (offset_eq off 0x008) (fun _ => irqEnWord_eq s) fun _ =>
      ite_congr (offset_eq off 0x00C) (fun _ => rfl) fun _ =>
      ite_congr (offset_eq off 0x010) (fun _ => congrArg (BitVec.ofNat 32) (Nat.shiftRight_eq_div_pow _ _)) fun _ =>
      ite_congr (offset_eq off 0x014) (fun _ => rfl) fun _ =>
      ite_congr rfl (fun hd => congrArg s.data.get (dataIndex_eq hd.1)) fun _ =>
      digestChainRead_eq hal s
  rw [hostEdge_rd hal, hv]
  simp only [Bool.and_eq_true, isChainOff_iff, and_comm]
  rfl

/-- Settles O30: a CTRL write issues the command and stores its word; at the other offsets `busWrite` is by cases what
the rule says, and keeps the answer. -/
theorem writesReachTheirRegisterAlone : Obligations.WritesReachTheirRegisterAlone := by
  constructor
  · exact fun v s => ⟨_, exec_decodeCmd v s, issue_ctrl v _ _ s, hostEdge_command v s⟩
  · intro off v s hal h0 a
    have hkeep : { (s.busWrite off v).respond false none with resp := s.resp } = s.busWrite off v := by
      rw [← busWrite_resp off v s]
      rfl
    refine ⟨_, hostEdge_wr hal h0 v s, rfl, hkeep.trans ?_⟩
    exact ite_congr (offset_eq off 0x004) (fun _ => writeStatus_eq v s) fun _ =>
      ite_congr (offset_eq off 0x008) (fun _ => rfl) fun _ =>
      ite_congr rfl (fun hd => by rw [dataIndex_eq hd.1]) fun _ => rfl

/-- Settles O31: the access is a bad one, whatever its offset. -/
theorem badAccessesChangeNothing : Obligations.BadAccessesChangeNothing := by
  intro c s hq h
  rw [hostEdge, access_bad hq h]
  rfl

end

section
/-! SUPPORT. Single cycles: the edge of a CTRL write in any state, and the last cycle of a command (R58, R174, R178). -/

namespace Sys2Proof.Machine

/-- R176, R178: a controller at rest is in no last cycle. -/
theorem lastCycle_of_idle {s : State} (h : s.cph = .idle) : s.lastCycle = false := by simp [State.lastCycle, h]

/-- R164, R175: an engine at rest runs no micro-operation. -/
theorem engineEdge_of_idle {s : State} (h : s.eph = .idle) (t : State) : engineEdge s.microOp t = .next t := by
  rw [engineEdge_eq, h]
  rfl

/-- R174: an edge with `rst_n` = 1 whose access answers `v`: the engine's edge from `v`, then the controller's. -/
theorem step_of_hostEdge {s v : State} (hr : s.busIn.rstN = true) (hv : hostEdge s.busIn s.popHost = .next v) :
    step s = andThen (engineEdge s.microOp v) (fun u => .next (controllerEdge s.lastCycle u)) := by
  have hserved : step s = servedEdge s := if_neg (by simp [hr])
  rw [hserved, servedEdge, hv, andThen_next]

/-- R175, R178: the engine is at rest or adds in a last cycle, so it answers a next state. -/
theorem engineStep_lastCycle {s : State} (hi : Inv s) (hl : s.lastCycle = true) (v : State) :
    ∃ u, v.engineStep s.eph s.rnd = some u := by
  have hphase : s.eph = .idle ∨ s.eph = .add := by
    simp only [State.lastCycle, Bool.and_eq_true, Bool.or_eq_true, decide_eq_true_eq, beq_iff_eq] at hl
    obtain ⟨hrun, hj | ⟨hadd, -⟩⟩ := hl
    · exact .inl (hi.empty_engine hrun hj)
    · exact .inr hadd
  rcases hphase with h | h
  · rw [h]; exact ⟨v, rfl⟩
  · rw [h]; exact ⟨v.doAdd, rfl⟩

/-- R58, R176, R178: a last cycle ends with BUSY = 0 and DONE = 1 and with ERR as the access left it. -/
theorem step_lastCycle {s v : State} (hi : Inv s) (hl : s.lastCycle = true) (hr : s.busIn.rstN = true)
    (hv : hostEdge s.busIn s.popHost = .next v) :
    ∃ t, step s = .next t ∧ t.busy = false ∧ t.done = true ∧ t.err = v.err := by
  obtain ⟨v', hv', hs⟩ := step_served hr
  cases hv.symm.trans hv'
  obtain ⟨u, hu⟩ := engineStep_lastCycle hi hl v
  have hrun : s.cph = .run := lastCycle_run hl
  have hop : u.opL.toNat < 8 := by
    obtain ⟨-, -, -, -, -, -, -, -, -, hopv⟩ := hostEdge_frame hv
    have huop : u.opL = v.opL := by rw [engineStep_frame hu]
    rw [huop, hopv (hi.busy_iff_run.2 hrun)]
    exact (hi.latched_legal hrun).1
  obtain ⟨hbusy, hdone, -⟩ := finish_complete hop
  have herr : u.err = v.err := by rw [engineStep_frame hu]
  rw [hu, hl] at hs
  exact ⟨_, hs, hbusy, hdone, (controllerEdge_err true u).1.trans herr⟩

end Sys2Proof.Machine

open Sys2Proof Sys2Proof.Machine

/-- Settles O35: the access is a CTRL write, and an engine and a controller at rest leave what it does. -/
theorem stepRunsTheWrittenCommand : Obligations.StepRunsTheWrittenCommand := by
  intro w rest s hh
  have hbus : s.busIn = BusIn.wr 0x000 w := by rw [State.busIn, hh]; rfl
  have hv : hostEdge s.busIn s.popHost = .next (State.respond false none
      (State.issue w (opOf w) (fieldsOf w).len { s with host := rest })) := by
    rw [hbus, hostEdge_command, State.popHost, hh]
    rfl
  have hstep := step_of_hostEdge (by rw [hbus]; rfl) hv
  refine ⟨_, exec_decodeCmd w _, hstep, fun hc he => ?_⟩
  rw [hstep, engineEdge_of_idle he, andThen_next, lastCycle_of_idle hc, controllerEdge_false]
  rfl

/-- Settles O39: the STATUS write clears ERR by its bit 2, and the last cycle sets DONE after it. -/
theorem completionWinsOverTheHostsClear : Obligations.CompletionWinsOverTheHostsClear := by
  intro v s hi hl hb
  have hv : hostEdge s.busIn s.popHost = .next ((s.popHost.busWrite 0x004 v).respond false none) := by
    rw [hb]
    exact hostEdge_wr (by decide) (by decide) v _
  obtain ⟨t, ht, hbusy, hdone, herr⟩ := step_lastCycle hi hl (by rw [hb]; rfl) hv
  refine ⟨t, ht, hbusy, hdone, herr.trans ?_⟩
  have hw : s.popHost.busWrite 0x004 v = s.popHost.writeStatus v := rfl
  rw [hw, writeStatus_eq]
  rfl

end

section
/-! SUPPORT. A command while it runs: its internal part moves on its own, and its results and mode flags stay until
its last cycle (R49, R53, R55, R94, R181). -/

namespace Sys2Proof.Machine

/-- A run of at least one step that answers a next state begins with a step that does. -/
theorem core_run_succ (M : Host.Core) {k : Nat} {s u : M.State} (h : M.run (k + 1) s = .next u) :
    ∃ t, M.step s = .next t ∧ M.run k t = .next u := by
  rw [Host.Core.run] at h
  cases hs : M.step s with
  | next t => rw [hs] at h; exact ⟨t, rfl, h⟩
  | fault r => rw [hs] at h; cases h
  | refused r => rw [hs] at h; cases h

/-- A run whose states have BUSY = 1 before each step is a busy run. -/
theorem busyRun_of_run {k : Nat} {s u : State}
    (hb : ∀ j < k, ∀ v, Host.Core.run core j s = .next v → v.busy = true)
    (h : Host.Core.run core k s = .next u) : BusyRun k s u := by
  induction k generalizing s with
  | zero => cases h; rfl
  | succ k ih =>
    obtain ⟨t, ht, hrun⟩ := core_run_succ core h
    refine ⟨hb 0 k.succ_pos s rfl, t, ht, ih (fun j hj v hv => ?_) hrun⟩
    exact hb (j + 1) (Nat.succ_lt_succ hj) v ((run_next ht).trans hv)

/-- BUSY = 1 at the end of a busy run is BUSY = 1 at its beginning too. -/
theorem BusyRun.busy_start {k : Nat} {s u : State} (h : BusyRun k s u) (hu : u.busy = true) : s.busy = true := by
  cases k with
  | zero => cases h; exact hu
  | succ k => exact h.1

theorem KeepsCommand.refl (s : State) : KeepsCommand s s := ⟨rfl, rfl, rfl, rfl, rfl, rfl, rfl, rfl⟩

theorem KeepsCommand.trans {s t u : State} (h : KeepsCommand s t) (h' : KeepsCommand t u) : KeepsCommand s u :=
  ⟨h'.digest.trans h.digest, h'.bitlen.trans h.bitlen, h'.k0.trans h.k0, h'.keyValid.trans h.keyValid,
    h'.hmacActive.trans h.hmacActive, h'.opL.trans h.opL, h'.cph.trans h.cph, h'.busy.trans h.busy⟩

/-- R24, R150, R152: no access sets DONE. -/
theorem hostEdge_done_false {c : BusIn} {s v : State} (h : hostEdge c s = .next v) (hd : s.done = false) :
    v.done = false := by
  by_cases hne : v.done = s.done
  · exact hne.trans hd
  · exact ((hostEdge_writes h).done hne).2

section
variable {s t : State} (hop : s.opL.toNat < 8)
include hop

/-- R53, R178: an edge of a running command after which BUSY is still 1 was not its last, so it leaves the results and
the mode flags, and DONE stays 0. -/
theorem step_stillBusy (hb : s.busy = true) (hr : s.busIn.rstN = true) (h : step s = .next t) (ht : t.busy = true) :
    KeepsCommand s t ∧ (s.done = false → t.done = false) := by
  obtain ⟨v, u, hv, hu, rfl⟩ := step_parts hr h
  obtain ⟨w, hw, hwi⟩ := hostEdge_busy (c := s.busIn) (s := s.popHost) hb
  cases hv.symm.trans hw
  have hk : KeepsCommand s u := engineStep_keepsCommand hwi hu
  cases hl : s.lastCycle with
  | true =>
    have hbusy := (finish_complete (s := u) (hk.opL ▸ hop)).1
    rw [hl, controllerEdge_true, hbusy] at ht
    cases ht
  | false =>
    rw [controllerEdge_false]
    refine ⟨hk, fun hd => ?_⟩
    have hud : u.done = v.done := by rw [engineStep_frame hu]
    exact hud.trans (hostEdge_done_false hv hd)

/-- R53, R181: so does a run that ends with BUSY = 1. -/
theorem BusyRun.stillBusy {k : Nat} (h : BusyRun k s t) (hs : s.served k) (ht : t.busy = true) :
    KeepsCommand s t ∧ (s.done = false → t.done = false) := by
  induction k generalizing s with
  | zero => cases h; exact ⟨.refl _, id⟩
  | succ k ih =>
    obtain ⟨hb, v, hv, hrun⟩ := h
    obtain ⟨hk, hd⟩ := step_stillBusy hop hb (served_busIn hs) hv (hrun.busy_start ht)
    obtain ⟨hk', hd'⟩ := ih (hk.opL ▸ hop) hrun (step_keeps_served hs hv)
    exact ⟨hk.trans hk', hd' ∘ hd⟩

end

/-- A busy run has BUSY = 1 in the state it reaches after any smaller number of steps. -/
theorem BusyRun.before {k n : Nat} {s u : State} (h : BusyRun n s u) (hk : k < n) :
    ∃ v, BusyRun k s v ∧ v.busy = true := by
  obtain ⟨m, rfl⟩ := Nat.exists_eq_add_of_lt hk
  obtain ⟨v, hv, hrest⟩ := BusyRun.split (j := k) (k := m + 1) h
  exact ⟨v, hv, hrest.1⟩

theorem State.served.mono {s : State} {k n : Nat} (h : s.served n) (hk : k ≤ n) : s.served k :=
  fun c hc => h c (List.take_subset_take_left _ hk hc)

end Sys2Proof.Machine

open Sys2Proof Sys2Proof.Machine

/-- Settles O45: the first run is a busy run, and a busy run carries over to every state with the same internal
part. -/
theorem hostCannotDisturbARunningCommand : Obligations.HostCannotDisturbARunningCommand := by
  intro k s s' u hi hs hs' hb h
  obtain ⟨u', hu', hui⟩ := (busyRun_of_run hb h).transfer hi.symm hs' hs
  exact ⟨u', hu'.run, hui⟩

/-- Settles O25: the accepted command is a busy run of its latency that ends with the completion writes; before its end
BUSY = 1, and a run that ends with BUSY = 1 leaves the results, the mode flags and DONE. -/
theorem resultsAppearOnlyAtCompletion : Obligations.ResultsAppearOnlyAtCompletion := by
  intro w s hs hn
  have hop : (opOf w).toNat < 8 := (rejection_none hn).2.1
  obtain ⟨u, hu, -, hui, hcmd⟩ := accept_completes hop (fieldsOf w).len (s := { s with ctrl := w }) hs
  refine ⟨_, (exec_decodeCmd w s).trans (congrArg _ (issue_accepted w hn)), fun k hk => ?_, u, hu.run, ?_, ?_⟩
  · obtain ⟨v, hv, hvb⟩ := hu.before hk
    obtain ⟨hkeep, hdone⟩ := hv.stillBusy hop (State.served.mono hs hk.le) hvb
    exact ⟨v, hv.run, hvb, hdone rfl, hkeep.bitlen, hkeep.digest, hkeep.k0, hkeep.keyValid, hkeep.hmacActive⟩
  · have hfin := (finish_complete (s := (State.accepted (opOf w) (fieldsOf w).len { s with ctrl := w }).afterJobs
      (jobList (opOf w) (fieldsOf w).len)) (by rw [afterJobs_opL]; exact hop)).1
    exact (congrArg State.busy hui).trans hfin
  · exact congrArg CmdState.done hcmd

end

section
/-! SUPPORT. The decoder after the encoder and the encoder after the decoder, over the three formats, and what issuing a
word keeps of its reserved bits (R60 to R65). -/

namespace Sys2Proof

/-- R65, R83: the four quarters of the round index, each with the round it decodes to. -/
theorem decodeRound_cases (i : BitVec 6) :
    (quarterOf i = 0 ∧ decodeRound i = .roundF (i.extractLsb' 0 4)) ∨
    (quarterOf i = 1 ∧ decodeRound i = .roundG (i.extractLsb' 0 4)) ∨
    (quarterOf i = 2 ∧ decodeRound i = .roundH (i.extractLsb' 0 4)) ∨
    (quarterOf i = 3 ∧ decodeRound i = .roundI (i.extractLsb' 0 4)) := by
  unfold decodeRound
  generalize quarterOf i = q, i.extractLsb' 0 4 = r
  revert q r
  decide

/-- R60, R62, R64: what a command word decodes to is well-formed and encodes back to the word. -/
theorem encode_decodeCmd (w : Word) : (decodeCmd w).wellFormed = true ∧ encode (decodeCmd w) = .cmd w := by
  have hw : Code.cmd (cmdWord (opOf w) (fieldsOf w)) = .cmd w := congrArg _ (cmdWord_fieldsOf w)
  rcases Machine.decodeCmd_cases w with ⟨ho, hd⟩ | ⟨ho, hd⟩ | ⟨ho, hd⟩ | ⟨ho, hd⟩ | ⟨ho, hd⟩ | ⟨ho, hd⟩ | ⟨ho, hd⟩ |
    ⟨ho, hd⟩ | ⟨ho, hd⟩
  case inr.inr.inr.inr.inr.inr.inr.inr => rw [hd]; exact ⟨decide_eq_true ho, hw⟩
  all_goals rw [hd]; rw [ho] at hw; exact ⟨rfl, hw⟩

/-- R65: so is what a round index decodes to. -/
theorem encode_decodeRound (i : BitVec 6) :
    (decodeRound i).wellFormed = true ∧ encode (decodeRound i) = .round i := by
  have hi : Code.round (roundIndex (quarterOf i) (i.extractLsb' 0 4)) = .round i := congrArg _ (roundIndex_parts i)
  rcases decodeRound_cases i with ⟨hq, hd⟩ | ⟨hq, hd⟩ | ⟨hq, hd⟩ | ⟨hq, hd⟩ <;>
    rw [hd] <;> rw [hq] at hi <;> exact ⟨rfl, hi⟩

namespace Machine

/-- R63: issuing two words with the same opcode and length differs in CTRL alone. -/
theorem issue_word (v v' : Word) (op : BitVec 4) (n : BitVec 7) (s : State) :
    s.issue v' op n = { s.issue v op n with ctrl := v' } := by
  unfold State.issue
  cases rejection op n s <;> rfl

/-- R64, R150: with BUSY = 0 an opcode of the illegal range is rejected as such. -/
theorem rejection_illegal {s : State} {op : BitVec 4} (hb : s.busy = false) (hop : 8 ≤ op.toNat) (n : BitVec 7) :
    rejection op n s = some .illegalOp := by
  rw [rejection, if_neg (by simp [hb]), if_pos hop]

/-- R65, R175: the micro-operation of a cycle is the one that the phase and the round index decode to. -/
theorem microOp_of_decode {s : State} {i : Instr} (he : s.eph ≠ .idle)
    (h : decode (if s.eph = .round then .round s.rnd else .eph s.eph) = .ok i) : s.microOp = some i := by
  rw [microOp_eq]
  cases hp : s.eph with
  | idle => exact absurd hp he
  | load => rw [hp] at h; cases h; rfl
  | round => rw [hp, if_pos rfl] at h; cases h; rfl
  | add => rw [hp] at h; cases h; rfl

end Machine

end Sys2Proof

open Sys2Proof Sys2Proof.Machine

/-- Settles O1: a command word holds every field of the command, a round index its quarter and its round, and the phase
the micro-operation. -/
theorem encodedInstructionDecodesBack : Obligations.EncodedInstructionDecodesBack := by
  intro i hi
  cases i with
  | nop f | md5Init f | md5Update f | md5Final f | hmacSetkey f | hmacSetkeyDigest f | hmacInit f | hmacFinal f =>
    exact congrArg Except.ok (decodeCmd_of_encode hi rfl)
  | illegalOp op f => exact congrArg Except.ok (decodeCmd_of_encode hi rfl)
  | roundF r | roundG r | roundH r | roundI r => simp [encode, decode, decodeRound]
  | load | add => rfl

/-- Settles O2: format by format; of the phases only LOAD and ADD decode. -/
theorem decodedCodeEncodesBack : Obligations.DecodedCodeEncodesBack := by
  intro c i h
  cases c with
  | cmd w => cases h; exact encode_decodeCmd w
  | round r => cases h; exact encode_decodeRound r
  | eph p =>
    cases p with
    | load | add => cases h; exact ⟨rfl, rfl⟩
    | idle | round => cases h

/-- Settles O4: each word is decoded as it stands. -/
theorem writtenOutWordsDecode : Obligations.WrittenOutWordsDecode := by
  unfold Obligations.WrittenOutWordsDecode
  decide

/-- Settles O5: the decoded instruction issues the word, and issuing reads nothing of it but OP and LEN. -/
theorem reservedBitsOnlyReachCtrl : Obligations.ReservedBitsOnlyReachCtrl := by
  intro w w' s hop hlen
  refine ⟨_, exec_decodeCmd w s, issue_ctrl w _ _ s, ?_⟩
  rw [exec_decodeCmd, ← hop, ← hlen, issue_word w w']

/-- Settles O21: the word is issued and rejected with ILLEGAL_OP. -/
theorem illegalOpcodesAreRecorded : Obligations.IllegalOpcodesAreRecorded := by
  intro op f s hop hb
  have hissue : exec (.illegalOp op f) s = .next (s.issue (cmdWord op f) op f.len) := rfl
  rw [hissue, State.issue, rejection_illegal hb hop]
  rfl

/-- Settles O36: without an access only the answer on the ports goes, and the engine's edge runs the decoded
micro-operation. -/
theorem stepRunsTheMicroOperation : Obligations.StepRunsTheMicroOperation := by
  intro s i hr hq he hd
  have hstep := step_of_hostEdge hr (hostEdge_noAccess hq s.popHost)
  have hedge (v : State) : engineEdge s.microOp v = exec i v := by rw [microOp_of_decode he hd]; rfl
  rw [hedge] at hstep
  constructor
  · intro t ht
    exact hstep.trans (congrArg (andThen · _) ht)
  · intro e hf
    exact hstep.trans (congrArg (andThen · _) hf)

end

section
/-! SUPPORT. A block that the host leaves alone comes to rest within 264 cycles, from every state of the invariant
(R175 to R179). -/

namespace Sys2Proof.Machine

/-! ### The job sequence from any of its cycles -/

/-- R175 to R177: the engine works on a job of the running command, and the host is silent. -/
structure Working (s : State) : Prop where
  busy : s.busy = true
  run : s.cph = .run
  legal : s.opL.toNat < 8
  host : s.host = []
  resp : s.resp = none
  engine : s.eph ≠ .idle
  job : s.jobIdx < s.jobs.length

/-- R179: the cycles a command with jobs still takes: of the current job those of its phase and after, and 66 for each
further job. -/
def State.cyclesLeft (s : State) : Nat :=
  66 * (s.jobs.length - s.jobIdx - 1) +
    match s.eph with
    | .idle => 0
    | .load => 66
    | .round => 65 - s.rnd.toNat
    | .add => 1

/-- R176, R178: completion in a state whose engine is at rest leaves the block at rest. -/
theorem finish_idle {s : State} (hop : s.opL.toNat < 8) (he : s.eph = .idle) : Idle (finish s) := by
  obtain ⟨hbusy, -, hcph⟩ := finish_complete hop
  exact ⟨hbusy, hcph, by rw [finish_frame]; exact he⟩

namespace Working

variable {s : State} (h : Working s)
include h

theorem jobs_ne : s.jobs ≠ [] := List.ne_nil_of_length_pos (Nat.zero_lt_of_lt h.job)

/-- R91, R175: LOAD takes one of the cycles. -/
theorem step_load (hp : s.eph = .load) :
    ∃ t, step s = .next t ∧ Working t ∧ s.cyclesLeft = t.cyclesLeft + 1 := by
  have hj : s.currentJob = some (s.jobs[s.jobIdx]'h.job) := List.getElem?_eq_getElem h.job
  refine ⟨_, Machine.step_load h.host h.resp hj hp,
    ⟨h.busy, h.run, h.legal, h.host, h.resp, EnginePhase.noConfusion, h.job⟩, ?_⟩
  rw [State.cyclesLeft, hp]
  rfl

/-- R90, R175: so does a round. -/
theorem step_round (hp : s.eph = .round) :
    ∃ t, step s = .next t ∧ Working t ∧ s.cyclesLeft = t.cyclesLeft + 1 := by
  have hl : s.lastCycle = false := by simp [State.lastCycle, hp, h.jobs_ne]
  have hstep : step s = .next (s.doRound (phi (quarterOf s.rnd)) s.rnd) := by
    rw [step_quiet h.host h.resp, hp, hl]
    rfl
  have hjobs : (s.doRound (phi (quarterOf s.rnd)) s.rnd).jobs = s.jobs := rfl
  refine ⟨_, hstep, ⟨h.busy, h.run, h.legal, h.host, h.resp, ?_, h.job⟩, ?_⟩
  · rw [State.doRound_eph, hp]
    split_ifs <;> exact EnginePhase.noConfusion
  · rw [State.cyclesLeft, State.cyclesLeft, State.doRound_eph, State.doRound_rnd, State.doRound_jobIdx, hjobs, hp]
    have hlt : s.rnd.toNat < 64 := s.rnd.isLt
    by_cases h63 : s.rnd.toNat < 63
    · have hnext : (s.rnd + 1).toNat = s.rnd.toNat + 1 := by rw [BitVec.toNat_add]; simp; omega
      simp only [if_pos h63, hnext]
      omega
    · simp only [if_neg h63]
      omega

/-- R92, R175, R178: so does ADD, after which the next job is loaded or the command is complete. -/
theorem step_add (hp : s.eph = .add) :
    ∃ t, step s = .next t ∧ ((Idle t ∧ s.cyclesLeft = 1) ∨ (Working t ∧ s.cyclesLeft = t.cyclesLeft + 1)) := by
  have hl : s.lastCycle = !s.furtherJob := by simp [State.lastCycle, hp, h.run, h.jobs_ne]
  have hstep : step s = .next (controllerEdge (!s.furtherJob) s.doAdd) := by
    rw [step_quiet h.host h.resp, hp, hl]
    rfl
  refine ⟨_, hstep, ?_⟩
  have heph : s.doAdd.eph = if s.furtherJob then .load else .idle := rfl
  have hidx : s.doAdd.jobIdx = if s.furtherJob then s.jobIdx + 1 else s.jobIdx := rfl
  have hjobs : s.doAdd.jobs = s.jobs := rfl
  cases hf : s.furtherJob with
  | false =>
    rw [hf] at heph
    have hlast : ¬ s.jobIdx + 1 < s.jobs.length := of_decide_eq_false hf
    refine .inl ⟨finish_idle h.legal heph, ?_⟩
    rw [State.cyclesLeft, hp]
    simp only
    omega
  | true =>
    rw [hf, if_pos rfl] at heph hidx
    have hmore : s.jobIdx + 1 < s.jobs.length := of_decide_eq_true hf
    refine .inr ⟨⟨h.busy, h.run, h.legal, h.host, h.resp, ?_, ?_⟩, ?_⟩
    · exact heph ▸ EnginePhase.noConfusion
    · exact (congrArg (· < _) hidx).mpr hmore
    · rw [Bool.not_true, controllerEdge_false, State.cyclesLeft, State.cyclesLeft, heph, hidx, hjobs, hp]
      simp only
      omega

/-- R175: one cycle of the engine at work. -/
theorem step : ∃ t, Machine.step s = .next t ∧
    ((Idle t ∧ s.cyclesLeft = 1) ∨ (Working t ∧ s.cyclesLeft = t.cyclesLeft + 1)) := by
  cases hp : s.eph with
  | idle => exact absurd hp h.engine
  | load =>
    obtain ⟨t, ht, hw, hc⟩ := h.step_load hp
    exact ⟨t, ht, .inr ⟨hw, hc⟩⟩
  | round =>
    obtain ⟨t, ht, hw, hc⟩ := h.step_round hp
    exact ⟨t, ht, .inr ⟨hw, hc⟩⟩
  | add => exact h.step_add hp

end Working

/-- R176 to R179: the running command takes the cycles left and ends with the block at rest. -/
theorem Working.completes {s : State} (h : Working s) : ∃ f, BusyRun s.cyclesLeft s f ∧ Idle f := by
  obtain ⟨t, ht, ⟨hi, hc⟩ | ⟨hw, hc⟩⟩ := h.step
  · rw [hc]
    exact ⟨t, .single h.busy ht, hi⟩
  · obtain ⟨f, hf, hi⟩ := hw.completes
    rw [hc]
    exact ⟨f, ⟨h.busy, t, ht, hf⟩, hi⟩
termination_by s.cyclesLeft

theorem jobList_length_le (op : BitVec 4) (n : BitVec 7) : (jobList op n).length ≤ 4 := by
  unfold jobList
  split <;> (try split_ifs) <;> simp

/-- R179: no command takes more than 264 cycles. -/
theorem latency_le (op : BitVec 4) (n : BitVec 7) : latency op n ≤ 264 := by
  have h := jobList_length_le op n
  unfold latency
  split_ifs
  · decide
  · omega

theorem Working.cyclesLeft_le {s : State} (h : Working s) : s.cyclesLeft ≤ 264 := by
  have hlen : s.jobs.length ≤ 4 := jobList_length_le s.opL s.nL
  have hjob := h.job
  unfold State.cyclesLeft
  split <;> omega

/-! ### From any state of the invariant -/

/-- The state with DATA cleared, from which the host presents no access and with no answer on the ports: the part that a
running command and the silent host take on. -/
def State.still (s : State) : State := { s with data := Block.zero, host := [], resp := none }

/-- R8, R176: left alone, the block comes to rest in `f` after `k` cycles. -/
def State.Settles (s : State) (k : Nat) (f : State) : Prop := BusyRun k s.still f ∧ Idle f

theorem Idle.settles {s : State} (hi : Idle s) : s.Settles 0 s.still := ⟨rfl, hi.busy, hi.cph, hi.eph⟩

/-- R178, R179: from every state of the invariant the block comes to rest within the longest command's latency. -/
theorem Inv.settles {s : State} (hi : Inv s) : ∃ k ≤ 264, ∃ f, s.Settles k f := by
  cases hc : s.cph with
  | idle => exact ⟨0, Nat.zero_le _, _, Idle.settles ⟨by simpa [hc] using hi.busy_iff_run, hc, hi.idle_engine hc⟩⟩
  | run =>
    have hb := hi.busy_iff_run.2 hc
    have hop := (hi.latched_legal hc).1
    by_cases hj : s.jobs = []
    · have he := hi.empty_engine hc hj
      exact ⟨1, by decide, _, run_no_job (s := s.still) hb hc rfl rfl hj he, finish_idle (s := s.still) hop he⟩
    · obtain ⟨he, hidx⟩ := hi.job_engine hc hj
      have hw : Working s.still := ⟨hb, hc, hop, rfl, rfl, he, hidx⟩
      obtain ⟨f, hf⟩ := hw.completes
      exact ⟨_, hw.cyclesLeft_le, f, hf⟩

end Sys2Proof.Machine

end

section
/-! SUPPORT. Host programs from any state of the invariant (R52, R55, R69): what one cycle of the host does to a block
that comes to rest when left alone. -/

namespace Sys2Proof.Machine

/-! ### Any access -/

/-- R94: a state comes to rest after as many cycles as a silent run from any state with the same internal part takes. -/
theorem BusyRun.settles {k : Nat} {s q f : State} (h : BusyRun k q f) (hf : Idle f) (hq : q.host = [])
    (hi : s.internals = q.internals) : ∃ g, s.Settles k g := by
  obtain ⟨g, hg, hgi⟩ := h.transfer (s := s.still) hi (fun c hc => by simp [State.still] at hc)
    (fun c hc => by simp [hq] at hc)
  refine ⟨g, hg, ?_⟩
  rw [eq_of_internals hgi.symm]
  exact ⟨hf.busy, hf.cph, hf.eph⟩

/-- R55: the cycle of a busy block takes one of the cycles to its rest, whatever the host presents. -/
theorem State.Settles.step_busy {s f : State} {k : Nat} (h : s.Settles (k + 1) f) (hr : s.busIn.rstN = true) :
    ∃ t, step s = .next t ∧ ∃ g, t.Settles k g := by
  obtain ⟨⟨hb, q, hq, hrun⟩, hf⟩ := h
  obtain ⟨t, ht, hti⟩ := step_internals (s := s) (s' := s.still) hb rfl hr rfl hq
  exact ⟨t, ht, hrun.settles hf (step_host (s := s.still) rfl hq) hti⟩

/-- R176, R179: the cycle of an idle block leaves it idle, or with the command it accepts to run. -/
theorem Idle.step_settles {s : State} (hi : Idle s) (hr : s.busIn.rstN = true) :
    ∃ t, Machine.step s = .next t ∧ ∃ k ≤ 264, ∃ g, t.Settles k g := by
  by_cases ha : ∃ w, s.busIn.accepted s w
  · obtain ⟨w, ha⟩ := ha
    have hop : (opOf w).toNat < 8 := (rejection_none ha.2).2.1
    have hrun := accepted_run (opOf w) (fieldsOf w).len s
    exact ⟨_, hi.step hr (hostEdge_accepted ha), _, latency_le _ _,
      hrun.settles (completed_idle hop _ s) rfl rfl⟩
  · obtain ⟨v, hv, -⟩ := hostEdge_cases s.busIn s.popHost
    have hvi : v.internals = s.internals := hostEdge_notAccepted (s := s.popHost) ha hv
    have hvidle : Idle v := by
      rw [eq_of_internals hvi.symm]
      exact ⟨hi.busy, hi.cph, hi.eph⟩
    exact ⟨v, hi.step hr hv, 0, Nat.zero_le _, _, hvidle.settles⟩

theorem State.Settles.idle {s f : State} (h : s.Settles 0 f) : Idle s := by
  obtain ⟨hrun, hi⟩ := h
  cases hrun
  exact ⟨hi.busy, hi.cph, hi.eph⟩

/-- R164, R175: a cycle without an access does not put off the rest. -/
theorem State.Settles.step_silent {s f : State} {k : Nat} (h : s.Settles k f) :
    ∃ t, step (s.present BusIn.idle) = .next t ∧ ∃ j ≤ k, ∃ g, t.Settles j g := by
  cases k with
  | zero => exact ⟨_, h.idle.step_idle, 0, Nat.le_refl 0, _, (h.idle.setResp none).settles⟩
  | succ k =>
    obtain ⟨t, ht, hg⟩ := State.Settles.step_busy (s := s.present BusIn.idle) h rfl
    exact ⟨t, ht, k, Nat.le_succ k, hg⟩

/-! ### The cycles a program takes -/

/-- A cycle in which the host presents no access. -/
theorem cycle_silent {b : Bool} {h : HostRun} {t : State} (hs : b = false ∨ h.prog = [])
    (ht : step (h.st.present BusIn.idle) = .next t) : h.cycle b = .next { h with st := t } := by
  obtain ⟨prog, r, s⟩ := h
  unfold HostRun.cycle
  cases b with
  | false => simp only [ht]
  | true =>
    obtain rfl : prog = [] := hs.resolve_left Bool.noConfusion
    simp only [ht]

theorem HostOp.busIn_rstN (op : HostOp) : op.busIn.rstN = true := by cases op <;> rfl

/-- R69: an operation presented to an idle block is over with its one access. -/
theorem HostOp.ended_of_idle {op : HostOp} {s t : State} (hb : s.busy = false)
    (ht : step (s.present op.busIn) = .next t) : op.ended t = true := by
  cases op with
  | wr off v => rfl
  | rd off => rfl
  | wait =>
    rw [wait_ended rfl ht, Bool.not_eq_true']
    exact hb

/-- R69: the program is over after at most `m` more cycles in which the host is ready: 265 for each further operation,
and for the one at hand one more than the block takes to its rest. -/
def HostRun.EndsWithin (m : Nat) (h : HostRun) : Prop :=
  ∃ n ≤ 264, (∃ f, h.st.Settles n f) ∧ 265 * h.prog.length + n ≤ m + 264

/-- R69: a cycle in which an access is presented takes one of the ready cycles: the operation is over, or it is a WAIT on
a busy block, which comes one cycle nearer to its rest. -/
theorem HostRun.EndsWithin.ready {op : HostOp} {ops : List HostOp} {r : List Word} {s : State} {m : Nat}
    (hm : HostRun.EndsWithin (m + 1) { prog := op :: ops, reads := r, st := s }) :
    ∃ h', HostRun.cycle true { prog := op :: ops, reads := r, st := s } = .next h' ∧ h'.EndsWithin m := by
  obtain ⟨n, hn, ⟨f, hf⟩, hle⟩ := hm
  rw [List.length_cons] at hle
  cases n with
  | zero =>
    have hi : Idle (s.present op.busIn) := State.Settles.idle hf
    obtain ⟨t, ht, k, hk, hg⟩ := hi.step_settles op.busIn_rstN
    refine ⟨_, cycle_ready ht, k, hk, hg, ?_⟩
    rw [HostOp.ended_of_idle (s := s) hi.busy ht, if_pos rfl]
    dsimp only
    omega
  | succ n =>
    obtain ⟨t, ht, hg⟩ := State.Settles.step_busy (s := s.present op.busIn) hf op.busIn_rstN
    refine ⟨_, cycle_ready ht, n, by omega, hg, ?_⟩
    dsimp only
    split_ifs
    · omega
    · rw [List.length_cons]
      omega

/-- R69: a cycle of the host takes one of the ready cycles if the host is ready. -/
theorem HostRun.EndsWithin.cycle {b : Bool} {h : HostRun} {m : Nat} (hm : h.EndsWithin (m + b.toNat)) :
    ∃ h', h.cycle b = .next h' ∧ h'.EndsWithin m := by
  by_cases hs : b = false ∨ h.prog = []
  · obtain ⟨n, hn, ⟨f, hf⟩, hle⟩ := hm
    obtain ⟨t, ht, k, hk, hg⟩ := hf.step_silent
    refine ⟨_, cycle_silent hs ht, k, hk.trans hn, hg, ?_⟩
    rcases hs with rfl | hp
    · rw [Bool.toNat_false] at hle
      dsimp only
      omega
    · rw [hp, List.length_nil]
      omega
  · obtain ⟨hb, hp⟩ := not_or.1 hs
    obtain ⟨op, ops, hops⟩ := List.exists_cons_of_ne_nil hp
    obtain ⟨prog, r, s⟩ := h
    cases hops
    obtain rfl : b = true := by simpa using hb
    exact hm.ready

/-- R69: the ready cycles being there, the program is over, and the block has not stopped. -/
theorem HostRun.EndsWithin.drive {sched : List Bool} {h : HostRun} (hm : h.EndsWithin (sched.count true)) :
    ∃ h', h.drive sched = .next h' ∧ h'.prog = [] := by
  induction sched generalizing h with
  | nil =>
    obtain ⟨n, -, -, hle⟩ := hm
    refine ⟨h, rfl, List.eq_nil_of_length_eq_zero ?_⟩
    rw [List.count_nil] at hle
    omega
  | cons b bs ih =>
    have hcount : (b :: bs).count true = bs.count true + b.toNat := by cases b <;> simp
    rw [hcount] at hm
    obtain ⟨h', hc, hm'⟩ := hm.cycle
    rw [drive_cons hc]
    exact ih hm'

end Sys2Proof.Machine

open Sys2Proof Sys2Proof.Machine

/-- Settles O49: the block comes to rest within 264 cycles of any state, so 265 ready cycles are enough for each
operation. -/
theorem hostProgramsEnd : Obligations.HostProgramsEnd := by
  intro ops sched s hi hc
  obtain ⟨n, hn, hf⟩ := hi.settles
  exact HostRun.EndsWithin.drive ⟨n, hn, hf, by dsimp only; omega⟩

end

section
/-! SUPPORT. WAIT and the writes of DATA beside a running command (R55, R69): they reach DATA and the answer on the ports,
which the engine and the controller neither read nor write. -/

namespace Sys2Proof.Machine

/-! ### DATA, the host's cycles and the answer do not reach the engine -/

/-- R55: with other contents of DATA, other cycles of the host to come and another answer on the ports. -/
def State.withPorts (d : Block) (l : List BusIn) (x : Option Response) (s : State) : State :=
  { s with data := d, host := l, resp := x }

section
variable (d : Block) (l : List BusIn) (x : Option Response) (s : State)

theorem engineStep_withPorts (p : EnginePhase) (i : BitVec 6) :
    (s.withPorts d l x).engineStep p i = (s.engineStep p i).map (State.withPorts d l x) := by
  cases p with
  | idle => rfl
  | load =>
    have hj : (s.withPorts d l x).currentJob = s.currentJob := rfl
    simp only [State.engineStep, hj]
    cases s.currentJob <;> rfl
  | round => rfl
  | add => rfl

theorem controllerEdge_withPorts (last : Bool) :
    controllerEdge last (s.withPorts d l x) = (controllerEdge last s).withPorts d l x := by
  cases last with
  | false => rfl
  | true =>
    have hop : (s.withPorts d l x).opL = s.opL := rfl
    simp only [controllerEdge_true, finish, hop]
    split <;> rfl

end

/-- R174: an edge with `rst_n` = 1, put together. -/
theorem step_of_parts {s v u : State} (hr : s.busIn.rstN = true) (hv : hostEdge s.busIn s.popHost = .next v)
    (hu : v.engineStep s.eph s.rnd = some u) : step s = .next (controllerEdge s.lastCycle u) := by
  rw [step_of_hostEdge hr hv, engineEdge_eq, hu]
  rfl

/-- R55, R174: an access that reaches DATA and the answer alone leaves the rest of the block to the edge it would have
had from the silent host. -/
theorem step_fills {s t : State} {c : BusIn} {d : Block} {x : Option Response} (hc : c.rstN = true)
    (hv : hostEdge c s = .next (s.withPorts d s.host x)) (ht : step s.still = .next t) :
    step (s.present c) = .next (t.withPorts d s.host x) ∧ t.still = t := by
  obtain ⟨v, w, hsv, hw, rfl⟩ := step_parts (s := s.still) rfl ht
  cases hsv
  obtain ⟨u, hu, rfl⟩ := Option.map_eq_some_iff.1 ((engineStep_withPorts Block.zero [] none s _ _).symm.trans hw)
  have he : (s.withPorts d s.host x).engineStep s.eph s.rnd = some (u.withPorts d s.host x) := by
    rw [engineStep_withPorts]
    exact congrArg (Option.map _) hu
  have hlast : s.still.lastCycle = s.lastCycle := rfl
  rw [step_of_parts (s := s.present c) hc hv he, hlast, controllerEdge_withPorts, controllerEdge_withPorts Block.zero]
  exact ⟨rfl, rfl⟩

/-! ### Operations that wait or fill DATA -/

/-- R69: a WAIT, or a write of a DATA register. -/
def HostOp.WaitsOrFills : HostOp → Prop
  | .wr off _ => off.toNat % 4 = 0 ∧ 0x040 ≤ off.toNat ∧ off.toNat ≤ 0x07C
  | .rd _ => False
  | .wait => True

/-- R17, R47: what such an operation makes of DATA. -/
def HostOp.fill : Block → HostOp → Block
  | d, .wr off v => d.set (BitVec.ofNat 4 ((off.toNat - 0x040) / 4)) v
  | d, .rd _ => d
  | d, .wait => d

/-- R46, R47: the access of such an operation reaches DATA and the answer alone. -/
theorem hostEdge_waitsOrFills {op : HostOp} (ho : op.WaitsOrFills) (s : State) :
    ∃ x, hostEdge op.busIn s = .next (s.withPorts (op.fill s.data) s.host x) := by
  cases op with
  | wr off v =>
    obtain ⟨hal, hlo, hhi⟩ := ho
    have h0 : off ≠ 0 := by rintro rfl; exact absurd hlo (by decide)
    refine ⟨some { err := false, rdata := none }, ?_⟩
    rw [HostOp.busIn, hostEdge_wr hal h0, busWrite_data hlo hhi]
    rfl
  | rd off => exact ho.elim
  | wait =>
    refine ⟨some { err := false, rdata := some (s.busRead 0x004) }, ?_⟩
    have hoff : isChainOff 0x004 = false := by decide
    rw [HostOp.busIn, hostEdge_rd (by decide), hoff, Bool.and_false]
    rfl

theorem loadBlk_waitsOrFills {p : List Byte} {op : HostOp} (h : op ∈ loadBlk p) : op.WaitsOrFills := by
  have hoff : ∀ j : BitVec 4,
      (dataOff j).toNat % 4 = 0 ∧ 0x040 ≤ (dataOff j).toNat ∧ (dataOff j).toNat ≤ 0x07C := by decide
  obtain ⟨j, -, rfl⟩ := List.mem_map.1 h
  exact hoff j

/-! ### A program of such operations -/

/-- R55, R69: a program of WAITs and writes of DATA is on its way on a block that comes to rest in `f`: DATA will hold
`d` at its end, the host's further cycles `l` are not touched, nothing has been read, and the block is at rest once no
WAIT is left. -/
structure HostRun.Waiting (f : State) (d : Block) (l : List BusIn) (h : HostRun) : Prop where
  ops : ∀ op ∈ h.prog, op.WaitsOrFills
  settles : ∃ k, h.st.Settles k f
  wait : .wait ∈ h.prog ∨ h.st.busy = false
  data : h.prog.foldl HostOp.fill h.st.data = d
  host : h.st.host = l
  reads : h.reads = []

/-- R55, R69: at its end the block is as it comes to rest, with DATA filled. -/
theorem HostRun.Waiting.over {f : State} {d : Block} {l : List BusIn} {h : HostRun} (hw : h.Waiting f d l)
    (hp : h.prog = []) : h.reads = [] ∧ h.st = f.withPorts d l h.st.resp := by
  obtain ⟨-, ⟨k, hrun, -⟩, hwait, hd, rfl, hr⟩ := hw
  rw [hp] at hwait hd
  have hb : h.st.busy = false := hwait.resolve_left List.not_mem_nil
  cases hd
  cases k with
  | zero => cases hrun; exact ⟨hr, rfl⟩
  | succ k => exact absurd (hrun.1.symm.trans hb) Bool.noConfusion

/-- R55, R164: a cycle whose access waits, fills DATA or is none, of a block on its way to rest in `f`. -/
theorem State.Settles.step_fills {s f : State} {k : Nat} {c : BusIn} {d : Block} {x : Option Response}
    (h : s.Settles k f) (hc : c.rstN = true) (hv : hostEdge c s = .next (s.withPorts d s.host x)) :
    ∃ t, step (s.present c) = .next t ∧ (∃ j, t.Settles j f) ∧ (s.busy = false → t.busy = false) ∧
      t.data = d ∧ t.host = s.host := by
  cases k with
  | zero =>
    have hi : Idle s.still := ⟨h.idle.busy, h.idle.cph, h.idle.eph⟩
    have hq : step s.still = .next s.still := hi.step rfl rfl
    obtain ⟨ht, -⟩ := Machine.step_fills hc hv hq
    exact ⟨_, ht, ⟨0, h⟩, id, rfl, rfl⟩
  | succ k =>
    obtain ⟨⟨hb, q, hq, hrun⟩, hf⟩ := h
    obtain ⟨ht, hqs⟩ := Machine.step_fills hc hv hq
    refine ⟨_, ht, ⟨k, ?_, hf⟩, fun hb' => absurd (hb.symm.trans hb') Bool.noConfusion, rfl, rfl⟩
    exact (congrArg (BusyRun k · f) hqs).mpr hrun

/-- R69: a cycle in which an access is presented: a write is over, and so is a WAIT of a block at rest. -/
theorem HostRun.Waiting.ready {f : State} {d : Block} {l : List BusIn} {op : HostOp} {ops : List HostOp}
    {r : List Word} {s : State} (hw : HostRun.Waiting f d l { prog := op :: ops, reads := r, st := s }) :
    ∃ h', HostRun.cycle true { prog := op :: ops, reads := r, st := s } = .next h' ∧ h'.Waiting f d l := by
  obtain ⟨hops, ⟨k, hk⟩, hwait, hdata, hhost, hreads⟩ := hw
  obtain ⟨ho, hrest⟩ := List.forall_mem_cons.1 hops
  obtain ⟨x, hv⟩ := hostEdge_waitsOrFills ho s
  obtain ⟨t, ht, hset, hb, hd, hh⟩ := hk.step_fills op.busIn_rstN hv
  refine ⟨_, cycle_ready ht, ?_⟩
  have htdata : ops.foldl HostOp.fill t.data = d := by rw [hd]; exact hdata
  have hnil : r ++ [] = [] := (List.append_nil r).trans hreads
  cases op with
  | wr off v =>
    have hmem : .wait ∈ ops ∨ s.busy = false :=
      hwait.imp_left fun h => (List.mem_cons.1 h).resolve_left HostOp.noConfusion
    exact ⟨hrest, hset, hmem.imp_right hb, htdata, hh.trans hhost, hnil⟩
  | rd off => exact ho.elim
  | wait =>
    have hend : HostOp.ended .wait t = !s.busy :=
      wait_ended (s := s.present (BusIn.rd 0x004)) rfl ht
    rw [hend]
    cases hbusy : s.busy with
    | false => exact ⟨hrest, hset, .inr (hb hbusy), htdata, hh.trans hhost, hnil⟩
    | true => exact ⟨hops, hset, .inl List.mem_cons_self, htdata, hh.trans hhost, hnil⟩

/-- R69: so is every cycle of such a program. -/
theorem HostRun.Waiting.cycle {f : State} {d : Block} {l : List BusIn} {h : HostRun} (hw : h.Waiting f d l) (b : Bool) :
    ∃ h', h.cycle b = .next h' ∧ h'.Waiting f d l := by
  by_cases hs : b = false ∨ h.prog = []
  · obtain ⟨k, hk⟩ := hw.settles
    obtain ⟨t, ht, hset, hb, hd, hh⟩ := hk.step_fills (c := BusIn.idle) (d := h.st.data) (x := none) rfl rfl
    refine ⟨_, cycle_silent hs ht, hw.ops, hset, hw.wait.imp_right hb, ?_, hh.trans hw.host, hw.reads⟩
    exact (congrArg (h.prog.foldl HostOp.fill) hd).trans hw.data
  · obtain ⟨hb, hp⟩ := not_or.1 hs
    obtain ⟨op, ops, hops⟩ := List.exists_cons_of_ne_nil hp
    obtain ⟨prog, r, s⟩ := h
    cases hops
    obtain rfl : b = true := by simpa using hb
    exact hw.ready

/-- R69: so are all its cycles. -/
theorem HostRun.Waiting.drive {f : State} {d : Block} {l : List BusIn} {sched : List Bool} {h h' : HostRun}
    (hw : h.Waiting f d l) (hd : h.drive sched = .next h') : h'.Waiting f d l := by
  induction sched generalizing h with
  | nil => cases hd; exact hw
  | cons b bs ih =>
    obtain ⟨g, hg, hwg⟩ := hw.cycle b
    rw [drive_cons hg] at hd
    exact ih hwg hd

end Sys2Proof.Machine

open Sys2Proof Sys2Proof.Machine

/-- Settles O50: both programs are of WAITs and writes of DATA, hold a WAIT and fill DATA alike, so both end where the
block comes to rest when left alone. -/
theorem loadBlkMayPrecedeWait : Obligations.LoadBlkMayPrecedeWait := by
  intro p sched sched' s h h' hi hd hp hd' hp'
  obtain ⟨k, -, f, hf⟩ := hi.settles
  obtain ⟨d, hfill⟩ : ∃ d, (loadBlk p).foldl HostOp.fill s.data = d := ⟨_, rfl⟩
  have hload : ∀ op ∈ loadBlk p, op.WaitsOrFills := fun _ => loadBlk_waitsOrFills
  have hw : HostRun.Waiting f d s.host { prog := .wait :: loadBlk p, reads := [], st := s } :=
    ⟨List.forall_mem_cons.2 ⟨trivial, hload⟩, ⟨k, hf⟩, .inl List.mem_cons_self, (List.foldl_cons ..).trans hfill, rfl,
      rfl⟩
  have hw' : HostRun.Waiting f d s.host { prog := loadBlk p ++ [.wait], reads := [], st := s } := by
    refine ⟨List.forall_mem_append.2 ⟨hload, List.forall_mem_singleton.2 trivial⟩, ⟨k, hf⟩,
      .inl List.mem_concat_self, ?_, rfl, rfl⟩
    rw [List.foldl_append, hfill]
    rfl
  obtain ⟨hr, hst⟩ := (hw.drive hd).over hp
  obtain ⟨hr', hst'⟩ := (hw'.drive hd').over hp'
  refine ⟨hr.trans hr'.symm, ?_⟩
  rw [hst, hst']
  rfl

end

section
/-! SUPPORT. The operands of a round by its quarter and its place in it, what LOAD reads, and the compression of a job
while the host makes accesses (R80, R81, R84 to R95, R177). -/

namespace Sys2Proof.Machine

/-! ### The round functions -/

/-- R84, R85: in each bit position, `(x & y) | (~x & z)` selects by `x`. -/
theorem getLsbD_select (x y z : Word) {k : Nat} (hk : k < 32) :
    ((x &&& y) ||| (~~~x &&& z)).getLsbD k = if x.getLsbD k then y.getLsbD k else z.getLsbD k := by
  simp only [BitVec.getLsbD_or, BitVec.getLsbD_and, BitVec.getLsbD_not, hk]
  cases x.getLsbD k <;> simp

/-! ### The round operands -/

/-- R65: the round index, quarter by quarter. -/
theorem roundIndex_toNat (r : BitVec 4) :
    (roundIndex 0 r).toNat = r.toNat ∧ (roundIndex 1 r).toNat = 16 + r.toNat ∧
    (roundIndex 2 r).toNat = 32 + r.toNat ∧ (roundIndex 3 r).toNat = 48 + r.toNat := by
  revert r; decide

theorem kConst_eq (i : BitVec 6) : kConst i = Config.kTable.getD i.toNat 0 :=
  List.getElem_eq_getD ..

/-- R81: the row of rotation amounts of each quarter. -/
theorem sAmount_roundIndex (r : BitVec 4) :
    sAmount (roundIndex 0 r) = [7, 12, 17, 22].getD (r.toNat % 4) 0 ∧
    sAmount (roundIndex 1 r) = [5, 9, 14, 20].getD (r.toNat % 4) 0 ∧
    sAmount (roundIndex 2 r) = [4, 11, 16, 23].getD (r.toNat % 4) 0 ∧
    sAmount (roundIndex 3 r) = [6, 10, 15, 21].getD (r.toNat % 4) 0 := by
  revert r; decide

theorem sAmount_lt (i : BitVec 6) : sAmount i < 32 := by
  revert i; decide

/-- R88: the message index on the full round index, quarter by quarter. -/
theorem gIndex_roundIndex (r : BitVec 4) :
    gIndex (roundIndex 0 r) = BitVec.ofNat 4 (r.toNat % 16) ∧
    gIndex (roundIndex 1 r) = BitVec.ofNat 4 ((5 * (16 + r.toNat) + 1) % 16) ∧
    gIndex (roundIndex 2 r) = BitVec.ofNat 4 ((3 * (32 + r.toNat) + 5) % 16) ∧
    gIndex (roundIndex 3 r) = BitVec.ofNat 4 ((7 * (48 + r.toNat)) % 16) := by
  revert r; decide

/-- R88: the same formulas on `i[3:0]`. -/
theorem gIndex_roundIndex_low (r : BitVec 4) :
    gIndex (roundIndex 0 r) = r ∧
    gIndex (roundIndex 1 r) = BitVec.ofNat 4 ((5 * r.toNat + 1) % 16) ∧
    gIndex (roundIndex 2 r) = BitVec.ofNat 4 ((3 * r.toNat + 5) % 16) ∧
    gIndex (roundIndex 3 r) = BitVec.ofNat 4 ((7 * r.toNat) % 16) := by
  revert r; decide

/-- R88: over a quarter no message index comes twice. -/
theorem gIndex_roundIndex_injective (q : BitVec 2) : Function.Injective fun r => gIndex (roundIndex q r) := by
  unfold Function.Injective
  revert q; decide

theorem ofNat_mod_sixteen (n : Nat) : BitVec.ofNat 4 (n % 16) = BitVec.ofNat 4 n :=
  BitVec.eq_of_toNat_eq (by simp)

/-- R89: the model's rotation is the library's. -/
theorem rotl32_eq (x : Word) {n : Nat} (hn : n < 32) : rotl32 x n = x.rotateLeft n := by
  rw [BitVec.rotateLeft_def, Nat.mod_eq_of_lt hn, rotl32]

/-- R90: the working registers after round `k`, with rotation amount `n` and message index `g`. -/
def roundResult (f : Word → Word → Word → Word) (k n : Nat) (g : BitVec 4) (v : Quad) (m : Block) : Quad :=
  { a := v.d
    b := v.b + (f v.b v.c v.d + v.a + Config.kTable.getD k 0 + m.get g).rotateLeft n
    c := v.b
    d := v.c }

section
variable {i : BitVec 6} {k n : Nat} {g : BitVec 4} (hi : i.toNat = k) (hn : sAmount i = n) (hg : gIndex i = g)
  (f : Word → Word → Word → Word)
include hi hn hg

/-- R90: a round with its operands put in. -/
theorem roundWith_eq (v : Quad) (m : Block) : roundWith f i v m = roundResult f k n g v m := by
  rw [roundWith, rotl32_eq _ (sAmount_lt i), kConst_eq, hi, hn, hg]
  rfl

/-- R90: a round before round 63 hands on to the next index. -/
theorem doRound_of_lt (hk : k < 63) (s : State) :
    s.doRound f i = { s with work := roundResult f k n g s.work s.m, rnd := BitVec.ofNat 6 (k + 1) } := by
  have hnext : i + 1 = BitVec.ofNat 6 (k + 1) := by
    rw [← hi, BitVec.ofNat_add, BitVec.ofNat_toNat, BitVec.setWidth_eq]
    rfl
  rw [State.doRound, roundWith_eq hi hn hg, hnext, hi, if_pos hk, if_pos hk]

/-- R90: round 63 hands on to ADD. -/
theorem doRound_last (hk : k = 63) (s : State) :
    s.doRound f i = { s with work := roundResult f k n g s.work s.m, eph := .add } := by
  have hnot : ¬ k < 63 := by omega
  rw [State.doRound, roundWith_eq hi hn hg, hi, if_neg hnot, if_neg hnot]

end

/-! ### LOAD -/

theorem baseChain_eq (s : State) (b : Base) : s.baseChain b = if b = .iv then Config.iv else s.chain := by
  cases b <;> rfl

theorem exec_load_of_job {s : State} {j : Job} (hj : s.currentJob = some j) : exec .load s = .next (s.doLoad j) := by
  change execLoad s = _
  rw [execLoad, hj]

theorem exec_load_of_no_job {s : State} (hj : s.currentJob = none) : exec .load s = .fault .loadWithoutJob := by
  change execLoad s = _
  rw [execLoad, hj]

/-! ### A whole job -/

/-- R177: MD5_INIT, the one command whose completion writes the chaining registers, has no jobs. -/
theorem controllerEdge_chain {s : State} (hj : s.jobs ≠ []) (last : Bool) :
    (controllerEdge last s).chain = s.chain := by
  by_contra hne
  obtain ⟨-, hop⟩ := (controllerEdge_writes last s).chain hne
  exact hj (by rw [State.jobs, hop]; rfl)

end Sys2Proof.Machine

open Sys2Proof Sys2Proof.Machine

/-- Settles O6, quarter by quarter, with the operands of the round put in; of the rounds only round 63 is not followed
by another. -/
theorem roundsComputeTheWorkingRegisters : Obligations.RoundsComputeTheWorkingRegisters := by
  refine ⟨fun r s => ?_, fun r s => ?_, fun r s => ?_, fun r s => ?_⟩
  all_goals
    obtain ⟨hi0, hi1, hi2, hi3⟩ := roundIndex_toNat r
    obtain ⟨hs0, hs1, hs2, hs3⟩ := sAmount_roundIndex r
    obtain ⟨-, hg1, hg2, hg3⟩ := gIndex_roundIndex r
    have hr : r.toNat < 16 := r.isLt
  · exact congrArg Host.Outcome.next (doRound_of_lt hi0 hs0 (gIndex_roundIndex_low r).1 fnF (by omega) s)
  · exact congrArg Host.Outcome.next (doRound_of_lt hi1 hs1 (hg1.trans (ofNat_mod_sixteen _)) fnG (by omega) s)
  · exact congrArg Host.Outcome.next (doRound_of_lt hi2 hs2 (hg2.trans (ofNat_mod_sixteen _)) fnH (by omega) s)
  · have hg := hg3.trans (ofNat_mod_sixteen _)
    by_cases h15 : r = 15
    · rw [if_pos h15, if_pos h15]
      exact congrArg Host.Outcome.next (doRound_last hi3 hs3 hg fnI (by rw [h15]; rfl) s)
    · have hne : r.toNat ≠ 15 := fun h => h15 (BitVec.eq_of_toNat_eq h)
      rw [if_neg h15, if_neg h15]
      exact congrArg Host.Outcome.next (doRound_of_lt hi3 hs3 hg fnI (by omega) s)

/-- Settles O12: with the host silent the job takes 66 cycles and leaves `Compress`; what it leaves is internal, so it
is the same under any accesses. -/
theorem sixtySixCyclesCompressTheBlock : Obligations.SixtySixCyclesCompressTheBlock := by
  intro s j hb hc hs hp hj
  have hquiet : BusyRun 66 s.quiet (controllerEdge (!s.furtherJob) (s.quiet.afterJob j)) := job_run hb hc rfl rfl hj hp
  obtain ⟨u, hu, hui⟩ := hquiet.transfer (s := s) rfl hs (fun c hc => by simp [State.quiet] at hc)
  have hjobs : (s.quiet.afterJob j).jobs ≠ [] := by rw [State.afterJob_jobs]; exact jobs_ne_nil hj
  have hchain : u.chain = compress (s.baseChain j.base) (s.jobBlock j.src) :=
    (congrArg State.chain hui).trans ((controllerEdge_chain hjobs _).trans (State.afterJob_chain j s.quiet))
  have hihash : u.ihash = if j.save then compress (s.baseChain j.base) (s.jobBlock j.src) else s.ihash :=
    (congrArg State.ihash hui).trans ((controllerEdge_ihash _ _).trans (State.afterJob_ihash j s.quiet))
  refine ⟨u, hu.run, hchain.trans (by rw [baseChain_eq]), fun hsave => ?_⟩
  rw [hihash, if_pos hsave, hchain]

/-- Settles O7: F and G select, H and I are bitwise by definition. -/
theorem roundFunctionsAreBitwise : Obligations.RoundFunctionsAreBitwise := by
  intro b c d k hk
  refine ⟨getLsbD_select b c d hk, getLsbD_select d b c hk, ?_, ?_⟩
  · simp only [fnH, BitVec.getLsbD_xor]
  · simp [fnI, hk]

/-- Settles O8: the indices of a quarter differ, so all sixteen occur. -/
theorem messageIndexIsAPermutation : Obligations.MessageIndexIsAPermutation := by
  refine ⟨gIndex_roundIndex, gIndex_roundIndex_low, fun q j => ?_, by decide⟩
  exact (gIndex_roundIndex_injective q).bijective_of_finite.existsUnique j

/-- Settles O9: LOAD answers `doLoad` of the current job; its block is the rule's for each source. -/
theorem loadStartsTheCurrentJob : Obligations.LoadStartsTheCurrentJob := by
  intro s j hj
  obtain ⟨src, base, save⟩ := j
  rw [exec_load_of_job hj, State.doLoad, baseChain_eq]
  cases src <;> rfl

/-- Settles O10: with a current job LOAD answers a next state. -/
theorem loadStopsOnlyWithoutAJob : Obligations.LoadStopsOnlyWithoutAJob := by
  intro s
  constructor
  · intro hf
    cases hj : s.currentJob with
    | none => rfl
    | some j => cases hf.symm.trans (exec_load_of_job hj)
  · exact exec_load_of_no_job

/-- Settles O11: ADD answers `doAdd` of the state, whose choices are those of the rule in their boolean form. -/
theorem addAccumulatesIntoTheChain : Obligations.AddAccumulatesIntoTheChain := by
  intro s
  refine ⟨s.doAdd, rfl, rfl, ?_, ?_, ?_, rfl⟩
  · simp only [State.doAdd_ihash, State.doAdd_chain, Option.any_eq_true]
  · simp only [State.doAdd_eph, State.furtherJob, decide_eq_true_eq]
  · simp only [State.doAdd_jobIdx, State.furtherJob, decide_eq_true_eq]

end

section
/-! SUPPORT. The MD5 commands from the write of CTRL to their completion (R110 to R113, R150 to R153), and the bytes of
PadTail's blocks (R114). -/

namespace Sys2Proof.Machine

/-! ### Acceptance and rejection -/

/-- R152: issuing a command that is rejected. -/
theorem issue_rejected {op : BitVec 4} {n : BitVec 7} {s : State} {c : CmdError} (w : Word)
    (h : rejection op n s = some c) : s.issue w op n = s.rejected w c.code := by
  rw [State.issue, h]
  rfl

/-- R150, R152: issuing a command while one runs. -/
theorem issue_busy {s : State} (h : s.busy = true) (w : Word) (op : BitVec 4) (n : BitVec 7) :
    s.issue w op n = s.rejected w 2 := issue_rejected w (rejection_busy h op n)

/-- R110 to R112, R150: NOP, MD5_INIT and MD5_UPDATE are rejected for BUSY alone. -/
theorem rejection_none_of_lt {op : BitVec 4} (hop : op.toNat < 3) {s : State} (hb : s.busy = false) (n : BitVec 7) :
    rejection op n s = none := by
  have hcases : op = 0 ∨ op = 1 ∨ op = 2 := by revert op; decide
  rcases hcases with rfl | rfl | rfl <;> simp [rejection, hb]

/-- R113, R150: the checks of MD5_FINAL while no command runs. -/
theorem rejection_md5Final {s : State} (hb : s.busy = false) (n : BitVec 7) :
    rejection 0x3 n s =
      if 63 < n.toNat then some .badLen else if s.hmacActive = true then some .sequence else none := by
  simp [rejection, hb]

/-- R8, R150: issuing a command that is accepted, and its atomic effect once its latency is over. -/
theorem issue_completes (op : BitVec 4) {n : BitVec 7} {s : State} (w : Word) (h : rejection op n s = none)
    (hs : s.served (latency op n)) :
    ∃ u, s.issue w op n = { s with ctrl := w }.accept op n ∧
      Host.Core.run core (latency op n) ({ s with ctrl := w }.accept op n) = .next u ∧
      u.cmdState = atomicEffect op n s.data s.digest s.cmdState := by
  obtain ⟨-, hop, hlen, -⟩ := rejection_none h
  obtain ⟨u, hu, -, hcmd⟩ := accept_atomicEffect hop hlen (s := { s with ctrl := w }) hs
  exact ⟨u, issue_accepted w h, hu.run, hcmd⟩

/-! ### MD5_FINAL by its length -/

/-- R177: MD5_FINAL has jobs. -/
theorem jobList_md5Final_ne (n : BitVec 7) : jobList 0x3 n ≠ [] := by
  simp only [jobList]
  split_ifs <;> exact List.cons_ne_nil _ _

/-- R179: one compression for n ≤ 55 and two otherwise. -/
theorem latency_md5Final (n : BitVec 7) : latency 0x3 n = if n.toNat ≤ 55 then 66 else 132 := by
  rw [latency, if_neg (jobList_md5Final_ne n)]
  simp only [jobList]
  split_ifs <;> rfl

/-- R28, R177: a second padding block is to come for n ≥ 56. -/
theorem padStage_md5Final (n : BitVec 7) :
    (jobList 0x3 n).any (·.src == .p2) = decide (56 ≤ n.toNat) := by
  simp only [jobList]
  split_ifs with h
  · exact (decide_eq_false (by omega)).symm
  · exact (decide_eq_true (by omega)).symm

end Sys2Proof.Machine

open Sys2Proof Sys2Proof.Machine

/-- Settles O13: NOP has no job, so it completes in the cycle after its acceptance. -/
theorem nopCompletes : Obligations.NopCompletes := by
  refine ⟨fun f s hb hs => ?_, fun f s hb => congrArg Host.Outcome.next (issue_busy hb _ _ _)⟩
  obtain ⟨u, hissue, hrun, hcmd⟩ := issue_completes 0x0 (cmdWord 0x0 f) (rejection_none_of_lt (by decide) hb f.len) hs
  exact ⟨_, u, rfl, congrArg Host.Outcome.next hissue, hrun, hcmd⟩

/-- Settles O14: neither has MD5_INIT. -/
theorem md5InitCompletes : Obligations.Md5InitCompletes := by
  refine ⟨fun f s hb hs => ?_, fun f s hb => congrArg Host.Outcome.next (issue_busy hb _ _ _)⟩
  obtain ⟨u, hissue, hrun, hcmd⟩ := issue_completes 0x1 (cmdWord 0x1 f) (rejection_none_of_lt (by decide) hb f.len) hs
  exact ⟨_, u, rfl, congrArg Host.Outcome.next hissue, hrun, hcmd⟩

/-- Settles O15: the one job of MD5_UPDATE compresses the latched DATA. -/
theorem md5UpdateCompletes : Obligations.Md5UpdateCompletes := by
  refine ⟨fun f s hb hs => ?_, fun f s hb => congrArg Host.Outcome.next (issue_busy hb _ _ _)⟩
  obtain ⟨u, hissue, hrun, hcmd⟩ := issue_completes 0x2 (cmdWord 0x2 f) (rejection_none_of_lt (by decide) hb f.len) hs
  exact ⟨_, u, rfl, congrArg Host.Outcome.next hissue, hrun, hcmd⟩

/-- Settles O16: the length chooses the latency and the padding stage; of the checks of R150 three can reject
MD5_FINAL. -/
theorem md5FinalCompletes : Obligations.Md5FinalCompletes := by
  refine ⟨fun f s hb hs hn ha => ?_, fun f s hb => ?_, fun f s hb hn => ?_, fun f s hb hn ha => ?_⟩
  · have haccept : rejection 0x3 f.len s = none := by
      rw [rejection_md5Final hb, if_neg (by omega), if_neg (by simp [ha])]
    rw [← latency_md5Final] at hs ⊢
    obtain ⟨u, hissue, hrun, hcmd⟩ := issue_completes 0x3 (cmdWord 0x3 f) haccept hs
    refine ⟨_, u, ?_, congrArg Host.Outcome.next hissue, hrun, hcmd⟩
    rw [State.accept, padStage_md5Final, if_neg (jobList_md5Final_ne _)]
  · exact congrArg Host.Outcome.next (issue_busy hb _ _ _)
  · refine congrArg Host.Outcome.next (issue_rejected (c := .badLen) _ ?_)
    rw [rejection_md5Final hb, if_pos hn]
  · refine congrArg Host.Outcome.next (issue_rejected (c := .sequence) _ ?_)
    rw [rejection_md5Final hb, if_neg (by omega), if_pos ha]

/-- Settles O26: the bytes of each block are the 64 bytes it was made of. -/
theorem padTailLaysOutTheTail : Obligations.PadTailLaysOutTheTail := by
  intro t l ht
  unfold padTail
  split_ifs with h
  · refine ⟨?_, rfl⟩
    rw [List.flatMap_singleton, blockBytes_words _ (by simp; omega)]
  · refine ⟨?_, rfl⟩
    have hzeros : 119 - t.length = (63 - t.length) + 56 := by omega
    rw [List.flatMap_cons, List.flatMap_singleton, blockBytes_words _ (by simp; omega), blockBytes_words _ (by simp),
      hzeros, List.replicate_add]
    simp only [List.append_assoc]

end

section
/-! SUPPORT. The host program `MD5 msg` (R69, R115): the blocks of a message streamed in by MD5_UPDATE, its tail by
MD5_FINAL, and the digest that is read at the end. -/

namespace Sys2Proof.Machine

/-! ### A message in the terms of the commands -/

/-- R112: MD5_UPDATE of one block after the other. -/
def updateAll (bs : List Block) (x : CmdState) : CmdState := bs.foldl (fun x b => atomicMd5Update b x) x

theorem updateAll_cons (b : Block) (bs : List Block) (x : CmdState) :
    updateAll (b :: bs) x = updateAll bs (atomicMd5Update b x) := List.foldl_cons ..

/-- R112: what agrees with the result of an MD5_UPDATE beside the registers it writes agrees with what was before it.
Stated for any chaining value `c`: with a compression in its place, the kernel would run all its rounds to compare. -/
theorem frame_of_updated {x y : CmdState} (c : Quad) (l : BitVec 64)
    (h : y = { CmdState.complete { x with chain := c, bitlen := l } with
      chain := y.chain, bitlen := y.bitlen, busy := y.busy, done := y.done }) :
    y = { x with chain := y.chain, bitlen := y.bitlen, busy := y.busy, done := y.done } := h

/-- R112: the registers MD5_UPDATE writes. -/
theorem updateAll_frame (bs : List Block) (x : CmdState) :
    updateAll bs x = { x with
      chain := (updateAll bs x).chain, bitlen := (updateAll bs x).bitlen
      busy := (updateAll bs x).busy, done := (updateAll bs x).done } := by
  induction bs generalizing x with
  | nil => rfl
  | cons b bs ih =>
    rw [updateAll_cons]
    exact frame_of_updated (compress x.chain b) (x.bitlen + 512) (ih _)

theorem updateAll_hmacActive (bs : List Block) (x : CmdState) : (updateAll bs x).hmacActive = x.hmacActive := by
  rw [updateAll_frame]

theorem atomicMd5Update_chain (b : Block) (x : CmdState) : (atomicMd5Update b x).chain = compress x.chain b := rfl

/-- R112: the blocks are compressed in order. -/
theorem updateAll_chain (bs : List Block) (x : CmdState) : (updateAll bs x).chain = bs.foldl compress x.chain := by
  induction bs generalizing x with
  | nil => rfl
  | cons b bs ih => rw [updateAll_cons, ih, atomicMd5Update_chain, List.foldl_cons]

theorem atomicMd5Update_bitlen (b : Block) (x : CmdState) : (atomicMd5Update b x).bitlen = x.bitlen + 512 := rfl

/-- R112: each block counts for 512 bits. -/
theorem updateAll_bitlen (bs : List Block) (x : CmdState) :
    (updateAll bs x).bitlen = x.bitlen + BitVec.ofNat 64 (512 * bs.length) := by
  induction bs generalizing x with
  | nil => exact (BitVec.add_zero _).symm
  | cons b bs ih =>
    have hcount : BitVec.ofNat 64 (512 * (bs.length + 1)) = 512 + BitVec.ofNat 64 (512 * bs.length) := by
      rw [Nat.mul_succ, Nat.add_comm, BitVec.ofNat_add]
      rfl
    rw [updateAll_cons, ih, atomicMd5Update_bitlen, List.length_cons, hcount, BitVec.add_assoc]

@[simp] theorem chunks_length (k : Nat) (m : List Byte) : (chunks k m).length = k := by
  induction k generalizing m with
  | zero => rfl
  | succ k ih => rw [chunks, List.length_cons, ih]

/-- R69: the full blocks of a message. -/
def fullBlocks (m : List Byte) : List Block := (chunks (m.length / 64) m).map words

theorem fullBlocks_length (m : List Byte) : (fullBlocks m).length = m.length / 64 := by simp [fullBlocks]

theorem tailLen_toNat (m : List Byte) : (tailLen m).toNat = m.length % 64 := by
  rw [tailLen, BitVec.toNat_ofNat]
  omega

/-- R69, R113: the tail that MD5_FINAL pads is the rest of the message that LOADBLK wrote. -/
theorem compressTail_tailOf (m : List Byte) (len : BitVec 64) (c : Quad) :
    compressTail (words (tailOf m)) (tailLen m) len c = (padTail (tailOf m) len).foldl compress c := by
  have htake := take_words (tailOf m) (by rw [tailOf_length]; omega)
  rw [tailOf_length] at htake
  rw [compressTail, tailLen_toNat, htake]

/-- R113: the length of a message of which `a` bytes were counted before. -/
theorem finalLen_updateAll {x : CmdState} {a : Nat} (hx : x.bitlen = BitVec.ofNat 64 (8 * a)) (m : List Byte) :
    (updateAll (fullBlocks m) x).finalLen (tailLen m) = BitVec.ofNat 64 (8 * (a + m.length)) := by
  apply BitVec.eq_of_toNat_eq
  rw [CmdState.finalLen, updateAll_bitlen, hx, fullBlocks_length, tailLen_toNat]
  simp only [BitVec.toNat_add, BitVec.toNat_ofNat]
  omega

/-- R115: what `MD5 m` leaves in the registers of the command rules. -/
structure Digested (m : List Byte) (x : CmdState) : Prop where
  digest : x.digest = digestOf m
  chain : x.chain = digestOf m
  bitlen : x.bitlen = BitVec.ofNat 64 (8 * m.length)
  hmacActive : x.hmacActive = false
  busy : x.busy = false
  done : x.done = true

/-- R111 to R115: MD5_INIT, MD5_UPDATE of the full blocks and MD5_FINAL of the tail compute the digest. -/
theorem digested_of_commands (m : List Byte) (x : CmdState) :
    Digested m (atomicMd5Final (words (tailOf m)) (tailLen m) (updateAll (fullBlocks m) (atomicMd5Init x))) := by
  have hlen : (updateAll (fullBlocks m) (atomicMd5Init x)).finalLen (tailLen m) = BitVec.ofNat 64 (8 * m.length) := by
    rw [finalLen_updateAll (a := 0) rfl, Nat.zero_add]
  have hchain : (updateAll (fullBlocks m) (atomicMd5Init x)).chain = foldBlocks Config.iv m := by
    rw [updateAll_chain]
    rfl
  have hdigest : compressTail (words (tailOf m)) (tailLen m) (BitVec.ofNat 64 (8 * m.length))
      (foldBlocks Config.iv m) = digestOf m := by
    rw [compressTail_tailOf, digestOf_eq]
  rw [atomicMd5Final, hlen, hchain, hdigest]
  exact ⟨rfl, rfl, rfl, updateAll_hmacActive _ _, rfl, rfl⟩

/-! ### The registers a program leaves alone -/

/-- R154: `u` has the error registers of `s`, and the host has the same cycles still to drive. -/
structure Undisturbed (s u : State) : Prop where
  err : u.err = s.err
  errcode : u.errcode = s.errcode
  host : u.host = s.host

theorem Undisturbed.refl (s : State) : Undisturbed s s := ⟨rfl, rfl, rfl⟩

theorem Undisturbed.trans {s t u : State} (h : Undisturbed s t) (h' : Undisturbed t u) : Undisturbed s u :=
  ⟨h'.err.trans h.err, h'.errcode.trans h.errcode, h'.host.trans h.host⟩

/-! ### The parts of the program -/

section
variable {ops : List HostOp} {r : List Word} {s : State} {Q : List Word → State → Prop} (hi : Idle s)
include hi

/-- R69: `CMD` of a command that is accepted, and its WAIT. -/
theorem command_ends {op : BitVec 4} {n : BitVec 7} (hn : rejection op n s = none)
    (h : ∀ u, Idle u → u.cmdState = atomicEffect op n s.data s.digest s.cmdState → Undisturbed s u →
      Ends ops r u Q) : Ends ([cmdOp op n, .wait] ++ ops) r s Q :=
  ends_cmd_wait hi hn fun u hu hcmd _ herr hcode _ _ hhost => h u hu hcmd ⟨herr, hcode, hhost⟩

/-- R69: `LOADBLK`, `CMD` of a command that is accepted, and its WAIT. -/
theorem blockCommand_ends {op : BitVec 4} {n : BitVec 7} (hn : rejection op n s = none) (p : List Byte)
    (h : ∀ u, Idle u → u.cmdState = atomicEffect op n (words p) s.digest s.cmdState → Undisturbed s u →
      Ends ops r u Q) : Ends (loadBlk p ++ [cmdOp op n, .wait] ++ ops) r s Q := by
  rw [List.append_assoc]
  exact ends_loadBlk_cmd_wait hi hn fun u hu hcmd _ herr hcode _ _ hhost => h u hu hcmd ⟨herr, hcode, hhost⟩

/-- R69: MD5_UPDATE of one block of bytes after the other. -/
theorem blocks_ends (bs : List (List Byte))
    (h : ∀ u, Idle u → u.cmdState = updateAll (bs.map words) s.cmdState → Undisturbed s u → Ends ops r u Q) :
    Ends (bs.flatMap (fun b => loadBlk b ++ [cmdOp 0x2 0, .wait]) ++ ops) r s Q := by
  induction bs generalizing s with
  | nil => exact h s hi rfl (.refl s)
  | cons b bs ih =>
    rw [List.flatMap_cons, List.append_assoc]
    refine blockCommand_ends hi (rejection_none_of_lt (by decide) hi.busy 0) b fun u hu hcmd hk => ?_
    refine ih hu fun v hv hvcmd hvk => h v hv ?_ (hk.trans hvk)
    rw [hvcmd, hcmd, List.map_cons, updateAll_cons]
    rfl

/-- R69: the full blocks of a message. -/
theorem updateOps_ends (m : List Byte)
    (h : ∀ u, Idle u → u.cmdState = updateAll (fullBlocks m) s.cmdState → Undisturbed s u → Ends ops r u Q) :
    Ends (updateOps m ++ ops) r s Q :=
  blocks_ends hi (chunks (m.length / 64) m) h

/-- R69: `read DIGEST[0..3]`, with more of the program after it. -/
theorem readDigest_append_ends (h : Ends ops (r ++ [s.digest.a, s.digest.b, s.digest.c, s.digest.d]) s Q) :
    Ends (readDigest ++ ops) r s Q := by
  refine ends_rd hi (by decide) (ends_rd hi (by decide) (ends_rd hi (by decide) (ends_rd hi (by decide) ?_)))
  simpa [State.busRead, Quad.get] using h

/-! ### The whole program -/

/-- R69, R115: the program `MD5 m` and what comes after it. -/
theorem md5Ops_append_ends (m : List Byte)
    (h : ∀ u, Idle u → Digested m u.cmdState → Undisturbed s u →
      Ends ops (r ++ [(digestOf m).a, (digestOf m).b, (digestOf m).c, (digestOf m).d]) u Q) :
    Ends (md5Ops m ++ ops) r s Q := by
  unfold md5Ops
  simp only [List.append_assoc]
  refine command_ends hi (rejection_none_of_lt (by decide) hi.busy 0) fun t ht htcmd htk => ?_
  refine updateOps_ends ht m fun v hv hvcmd hvk => ?_
  have hvcmd' : v.cmdState = updateAll (fullBlocks m) (atomicMd5Init s.cmdState) := hvcmd.trans (by rw [htcmd]; rfl)
  have hactive : v.hmacActive = false := (congrArg CmdState.hmacActive hvcmd').trans (updateAll_hmacActive _ _)
  have hfinal : rejection 0x3 (tailLen m) v = none := by
    rw [rejection_md5Final hv.busy, tailLen_toNat, if_neg (by omega), if_neg (by simp [hactive])]
  rw [← List.append_assoc]
  refine blockCommand_ends hv hfinal (tailOf m) fun u hu hcmd hk => ?_
  have hdigested : Digested m u.cmdState := by
    rw [hcmd, hvcmd']
    exact digested_of_commands m s.cmdState
  have hread := h u hu hdigested ((htk.trans hvk).trans hk)
  rw [← hdigested.digest] at hread
  exact readDigest_append_ends hu hread

end

end Sys2Proof.Machine

open Sys2Proof Sys2Proof.Machine

/-- Settles O47: the commands of the program compute the digest, part by part, under any schedule of the host. The
premise on HMAC_ACTIVE is not needed: MD5_INIT clears it (R111). -/
theorem md5SequenceComputesTheDigest : Obligations.Md5SequenceComputesTheDigest := by
  intro m sched s hi hb _
  have hends : Ends (md5Ops m ++ []) [] s fun reads t =>
      reads = [(digestOf m).a, (digestOf m).b, (digestOf m).c, (digestOf m).d] ∧ Digested m t.cmdState ∧
        Undisturbed s t :=
    md5Ops_append_ends (hi.idle hb) m fun u hu hd hk =>
      ends_nil hu fun _ => ⟨rfl, hd, hk.err, hk.errcode, hk.host⟩
  rw [List.append_nil] at hends
  obtain ⟨h, hdrive, hover⟩ := hends s.resp sched
  refine ⟨h, hdrive, fun hprog => ?_⟩
  obtain ⟨hreads, hd, hk⟩ := hover hprog
  exact ⟨hreads, hd.digest, hd.chain, hd.bitlen, hd.busy, hd.done, hk.err, hk.errcode, hk.host⟩

end

section
/-! SUPPORT. The invariant of Sys2Proof/Safety.lean, kept by each part of an edge: the reset, an access, the acceptance of
a command, the engine's micro-operation, the completion writes (R137, R151, R170, R175 to R177). -/

namespace Sys2Proof.Machine

/-! ### A reset edge -/

/-- R170: an edge with `rst_n` = 0. -/
theorem inv_resetEdge (s : State) : Inv (resetEdge s) where
  busy_iff_run := by simp [resetEdge, State.reset]
  idle_engine _ := rfl
  empty_engine h := ControllerPhase.noConfusion h
  job_engine h := ControllerPhase.noConfusion h
  latched_legal h := ControllerPhase.noConfusion h
  latched_mode h := ControllerPhase.noConfusion h
  busy_not_done _ := rfl
  errcode_legal := rfl
  active_has_key h := Bool.noConfusion h
  no_key_zero _ := rfl
  pad_stage := rfl

/-! ### The host's access -/

/-- R24, R151: the field `errcode_legal` of the invariant, on the two registers it speaks of. -/
def ErrcodeLegal (err : Bool) (code : BitVec 4) : Prop :=
  if err then 1 ≤ code.toNat ∧ code.toNat ≤ 5 else code = 0

/-- R151: a rejection records one of the five codes. -/
theorem errcodeLegal_code (e : CmdError) : ErrcodeLegal true e.code := by
  cases e <;> exact ⟨by decide, by decide⟩

/-- R47, R152: an access records a legal code, clears ERR and ERRCODE together, or leaves both. -/
theorem hostEdge_errcodeLegal {c : BusIn} {s v : State} (h : hostEdge c s = .next v)
    (hs : ErrcodeLegal s.err s.errcode) : ErrcodeLegal v.err v.errcode := by
  obtain ⟨v', hv', hc⟩ := hostEdge_cases c s
  cases h.symm.trans hv'
  rcases hc with ⟨r, k, rfl⟩ | ⟨w, -, rfl⟩ | ⟨w, -, rfl⟩ | ⟨j, w, rfl⟩ | ⟨w, -, rfl⟩
  · exact hs
  · simp only [State.respond_err, State.respond_errcode, State.writeStatus_err, State.writeStatus_errcode]
    split_ifs
    · rfl
    · exact hs
  · exact hs
  · exact hs
  · rcases issue_cases w (opOf w) (fieldsOf w).len s with ⟨e, -, hi⟩ | ⟨-, hi⟩
    · rw [hi]
      exact errcodeLegal_code e
    · rw [hi]
      exact hs

/-- R94: beside DONE, ERR and ERRCODE the invariant speaks of the internal part alone. -/
theorem Inv.of_internals {s t : State} (hi : Inv s) (h : t.internals = s.internals)
    (hd : s.done = false → t.done = false) (he : ErrcodeLegal t.err t.errcode) : Inv t := by
  rw [eq_of_internals h.symm]
  exact { hi with busy_not_done := fun hb => hd (hi.busy_not_done hb), errcode_legal := he }

/-- R94, R150: an access that is no accepted command keeps the invariant. -/
theorem Inv.access {c : BusIn} {s v : State} (hi : Inv s) (hn : ¬ ∃ w, c.accepted s w)
    (h : hostEdge c s = .next v) : Inv v :=
  hi.of_internals (hostEdge_notAccepted hn h) (hostEdge_done_false h) (hostEdge_errcodeLegal h hi.errcode_legal)

/-- R150, R175, R176: so does the acceptance of a command, whose checks are what the latches and the mode flags then
satisfy. -/
theorem Inv.afterAccept {s : State} {w : Word} (hi : Inv s)
    (hn : rejection (opOf w) (fieldsOf w).len s = none) : Inv (s.afterAccept w) := by
  obtain ⟨-, hop, h63, h64, hclosed, hopen, hkey⟩ := rejection_none hn
  exact { hi with
    busy_iff_run := iff_of_true rfl rfl
    idle_engine := ControllerPhase.noConfusion
    empty_engine := fun _ hj => if_pos hj
    job_engine := fun _ hj => ⟨(if_neg hj).trans_ne EnginePhase.noConfusion, List.length_pos_iff.2 hj⟩
    latched_legal := fun _ => ⟨hop, h63, h64⟩
    latched_mode := fun _ => ⟨hclosed, hopen, hkey⟩
    busy_not_done := fun _ => rfl
    pad_stage := p2_not_first _ _ }

/-! ### The engine and the controller -/

/-- R176: the controller is in RUN while the engine works. -/
theorem Inv.run_of_engine {s : State} (hi : Inv s) (he : s.eph ≠ .idle) : s.cph = .run := by
  cases hc : s.cph with
  | idle => exact absurd (hi.idle_engine hc) he
  | run => rfl

/-- R175, R177: the engine at work has a current job. -/
theorem Inv.engine_job {s : State} (hi : Inv s) (he : s.eph ≠ .idle) : s.jobs ≠ [] ∧ s.jobIdx < s.jobs.length := by
  have hj : s.jobs ≠ [] := fun hj => he (hi.empty_engine (hi.run_of_engine he) hj)
  exact ⟨hj, (hi.job_engine (hi.run_of_engine he) hj).2⟩

/-- R175: the engine's own registers do not matter as long as it stays at work on a job of the list, with the padding
stage that goes with that job. -/
theorem Inv.setEngine {s : State} (hi : Inv s) (he : s.eph ≠ .idle) {p : EnginePhase} {i : Nat} {b : Bool}
    (hp : p ≠ .idle) (hidx : i < s.jobs.length) (hpad : b = (s.jobs.drop (i + 1)).any (·.src == .p2))
    (c v ih : Quad) (r : BitVec 6) (m : Block) :
    Inv { s with chain := c, work := v, rnd := r, eph := p, m := m, ihash := ih, jobIdx := i, padStage := b } := by
  have hrun := hi.run_of_engine he
  exact { hi with
    idle_engine := fun hc => ControllerPhase.noConfusion (hc.symm.trans hrun)
    empty_engine := fun _ hj => absurd hj (hi.engine_job he).1
    job_engine := fun _ _ => ⟨hp, hidx⟩
    pad_stage := by simp [hrun, hpad, State.jobs] }

/-- R28, R177: the padding stage while the engine works. -/
theorem Inv.padStage_engine {s : State} (hi : Inv s) (he : s.eph ≠ .idle) :
    s.padStage = (s.jobs.drop (s.jobIdx + 1)).any (·.src == .p2) := by
  simpa [hi.run_of_engine he] using hi.pad_stage

/-- R28, R177: ADD moves the padding stage on: after P1's job P2 is no longer to come behind the next job, and the ADD
of another job passes no P2. -/
theorem Inv.padStage_doAdd {s : State} (hi : Inv s) (he : s.eph ≠ .idle) :
    s.doAdd.padStage = (s.jobs.drop (s.jobIdx + 2)).any (·.src == .p2) := by
  have hj : s.currentJob = some (s.jobs[s.jobIdx]'(hi.engine_job he).2) := List.getElem?_eq_getElem _
  generalize s.jobs[s.jobIdx]'(hi.engine_job he).2 = j at hj
  rw [State.doAdd_padStage, hj, hi.padStage_engine he, Option.any_some]
  by_cases hp : j.src = .p1
  · rw [hp]
    exact (Bool.and_false _).trans (no_p2_two_jobs_on s.opL s.nL s.jobIdx j hj).symm
  · rw [beq_false_of_ne hp, Bool.not_false, Bool.and_true]
    exact (p2_only_after_p1 s.opL s.nL s.jobIdx j hj hp).symm

/-- R175: the engine's step in a cycle that is not the command's last. -/
theorem Inv.engine {s u : State} (hi : Inv s) (hl : s.lastCycle = false)
    (h : s.engineStep s.eph s.rnd = some u) : Inv u := by
  cases hp : s.eph with
  | idle =>
    rw [hp] at h
    cases h
    exact hi
  | load =>
    have he : s.eph ≠ .idle := hp ▸ EnginePhase.noConfusion
    rw [hp] at h
    simp only [State.engineStep, Option.map_eq_some_iff] at h
    obtain ⟨j, -, rfl⟩ := h
    exact hi.setEngine he EnginePhase.noConfusion (hi.engine_job he).2 (hi.padStage_engine he) _ _ _ _ _
  | round =>
    have he : s.eph ≠ .idle := hp ▸ EnginePhase.noConfusion
    rw [hp] at h
    cases h
    have hnext : (if s.rnd.toNat < 63 then s.eph else .add) ≠ EnginePhase.idle := by
      split_ifs
      · exact he
      · exact EnginePhase.noConfusion
    exact hi.setEngine he hnext (hi.engine_job he).2 (hi.padStage_engine he) _ _ _ _ _
  | add =>
    have he : s.eph ≠ .idle := hp ▸ EnginePhase.noConfusion
    have hf : s.furtherJob = true := by
      simpa [State.lastCycle, hi.run_of_engine he, (hi.engine_job he).1, hp] using hl
    have hpad := hi.padStage_doAdd he
    rw [hp] at h
    cases h
    have heph : s.doAdd.eph = .load := if_pos hf
    have hidx : s.doAdd.jobIdx = s.jobIdx + 1 := if_pos hf
    have hlt : s.doAdd.jobIdx < s.jobs.length := hidx ▸ of_decide_eq_true hf
    exact hi.setEngine he (heph.trans_ne EnginePhase.noConfusion) hlt (by rw [hidx]; exact hpad) _ _ _ _ _

/-- R175, R178: in a command's last cycle the engine's step leaves it at rest, with no padding block to come. -/
theorem Inv.engineStep_rest {s u : State} (hi : Inv s) (hl : s.lastCycle = true)
    (h : s.engineStep s.eph s.rnd = some u) : u.eph = .idle ∧ u.padStage = false := by
  have hrun := lastCycle_run hl
  by_cases hj : s.jobs = []
  · rw [hi.empty_engine hrun hj] at h
    cases h
    exact ⟨hi.empty_engine hrun hj, by simpa [hj] using hi.pad_stage⟩
  · have hlast : s.eph = .add ∧ s.furtherJob = false := by simpa [State.lastCycle, hrun, hj] using hl
    obtain ⟨hp, hf⟩ := hlast
    have hpad := hi.padStage_doAdd (hp ▸ EnginePhase.noConfusion)
    rw [hp] at h
    cases h
    have hend : s.jobs.length ≤ s.jobIdx + 2 := by
      have : ¬ s.jobIdx + 1 < s.jobs.length := of_decide_eq_false hf
      omega
    rw [List.drop_of_length_le hend] at hpad
    exact ⟨if_neg (by simp [hf]), hpad⟩

/-- R137, R134: the completion writes set HMAC_ACTIVE only for a loaded key, and clear K0 with KEY_VALID. -/
theorem finish_key {u : State} (hkey : u.hmacActive = true → u.keyValid = true)
    (hzero : u.keyValid = false → u.k0 = Block.zero) (hinit : u.opL = 6 → u.keyValid = true) :
    ((finish u).hmacActive = true → (finish u).keyValid = true) ∧
      ((finish u).keyValid = false → (finish u).k0 = Block.zero) := by
  rcases finish_cases u with ⟨-, hf⟩ | ⟨-, hf⟩ | ⟨-, hf⟩ | ⟨-, hf⟩ | ⟨-, hf⟩ | ⟨-, hf⟩ | ⟨ho, hf⟩ | ⟨-, hf⟩ | hf <;>
    rw [hf]
  · exact ⟨hkey, hzero⟩
  · exact ⟨Bool.noConfusion, hzero⟩
  · simpa [finishMd5Update] using ⟨hkey, hzero⟩
  · exact ⟨hkey, hzero⟩
  · exact ⟨fun _ => rfl, Bool.noConfusion⟩
  · exact ⟨fun _ => rfl, Bool.noConfusion⟩
  · exact ⟨fun _ => hinit ho, hzero⟩
  · exact ⟨Bool.noConfusion, fun _ => rfl⟩
  · exact ⟨hkey, hzero⟩

/-- R176 to R178: the last cycle of a command, its engine's step and the completion writes. -/
theorem Inv.completion {s u : State} (hi : Inv s) (hl : s.lastCycle = true)
    (h : s.engineStep s.eph s.rnd = some u) : Inv (finish u) := by
  have hrun := lastCycle_run hl
  obtain ⟨-, -, hinit⟩ := hi.latched_mode hrun
  obtain ⟨heph, hpad⟩ := hi.engineStep_rest hl h
  have hk : KeepsCommand s u := engineStep_keepsCommand rfl h
  obtain ⟨hbusy, hdone, hcph⟩ := finish_complete (s := u) (hk.opL ▸ (hi.latched_legal hrun).1)
  obtain ⟨hactive, hzero⟩ := finish_key (u := u) (hk.hmacActive ▸ hk.keyValid ▸ hi.active_has_key)
    (hk.keyValid ▸ hk.k0 ▸ hi.no_key_zero) (hk.opL ▸ hk.keyValid ▸ hinit)
  have herr : (finish u).accessRegs = s.accessRegs :=
    (controllerEdge_accessRegs true u).trans (engineStep_accessRegs h)
  have hnot : (finish u).cph ≠ .run := hcph ▸ ControllerPhase.noConfusion
  exact {
    busy_iff_run := iff_of_false (by simp [hbusy]) hnot
    idle_engine := fun _ => (controllerEdge_eph true u).trans heph
    empty_engine := fun hc => absurd hc hnot
    job_engine := fun hc => absurd hc hnot
    latched_legal := fun hc => absurd hc hnot
    latched_mode := fun hc => absurd hc hnot
    busy_not_done := fun hb => Bool.noConfusion (hbusy.symm.trans hb)
    errcode_legal := by
      have hlegal : ErrcodeLegal s.accessRegs.err s.accessRegs.errcode := hi.errcode_legal
      rw [← herr] at hlegal
      exact hlegal
    active_has_key := hactive
    no_key_zero := hzero
    pad_stage := ((controllerEdge_padStage true u).trans hpad).trans (by simp [hcph]) }

/-- R174: the engine and the controller after the access. -/
theorem Inv.engineController {s u : State} (hi : Inv s) (h : s.engineStep s.eph s.rnd = some u) :
    Inv (controllerEdge s.lastCycle u) := by
  cases hl : s.lastCycle with
  | false => exact hi.engine hl h
  | true => exact hi.completion hl h

/-- R94, R174: an edge that accepts no command: the engine and the controller find what the access left internally
unchanged. -/
theorem Inv.step_notAccepted {s t : State} (hi : Inv s) (hr : s.busIn.rstN = true)
    (hn : ¬ ∃ w, s.busIn.accepted s w) (h : step s = .next t) : Inv t := by
  obtain ⟨v, u, hv, hu, rfl⟩ := step_parts hr h
  have hpop : Inv s.popHost := hi.of_internals rfl id hi.errcode_legal
  have hiv : Inv v := hpop.access hn hv
  have hvi : v.internals = s.internals := hostEdge_notAccepted (s := s.popHost) hn hv
  have heph : v.eph = s.eph := by rw [eq_of_internals hvi.symm]
  have hrnd : v.rnd = s.rnd := by rw [eq_of_internals hvi.symm]
  have hlast : v.lastCycle = s.lastCycle := by rw [eq_of_internals hvi.symm]; rfl
  rw [← heph, ← hrnd] at hu
  rw [← hlast]
  exact hiv.engineController hu

end Sys2Proof.Machine

open Sys2Proof Sys2Proof.Machine

/-- Settles O43, part by part of the edge: a reset, an acceptance (the engine and the controller are then at rest), or
another access, after which the engine and the controller go on from what they found. -/
theorem stepKeepsTheInvariant : Obligations.StepKeepsTheInvariant := by
  intro s t hi h
  cases hr : s.busIn.rstN with
  | false =>
    cases h.symm.trans (step_reset hr)
    exact inv_resetEdge _
  | true =>
    by_cases ha : ∃ w, s.busIn.accepted s w
    · obtain ⟨w, ha⟩ := ha
      have hidle : Idle s := hi.idle (rejection_none ha.2).1
      cases h.symm.trans (hidle.step hr (hostEdge_accepted ha))
      exact hi.afterAccept ha.2
    · exact hi.step_notAccepted hr ha h

end

section
/-! SUPPORT. The HMAC commands from the write of CTRL to their completion (R130 to R134, R150 to R153), the bytes of a
loaded key and the words of the outer tail block (R130, R131, R133). -/

namespace Sys2Proof.Machine

/-! ### Acceptance and rejection -/

/-- R130, R150: the checks of HMAC_SETKEY while no command runs. -/
theorem rejection_hmacSetkey {s : State} (hb : s.busy = false) (n : BitVec 7) :
    rejection 0x4 n s =
      if 64 < n.toNat then some .badLen else if s.hmacActive = true then some .sequence else none := by
  simp [rejection, hb]

/-- R131, R150: the check of HMAC_SETKEY_DIGEST. -/
theorem rejection_hmacSetkeyDigest {s : State} (hb : s.busy = false) (n : BitVec 7) :
    rejection 0x5 n s = if s.hmacActive = true then some .sequence else none := by
  simp [rejection, hb]

/-- R132, R150: the check of HMAC_INIT. -/
theorem rejection_hmacInit {s : State} (hb : s.busy = false) (n : BitVec 7) :
    rejection 0x6 n s = if s.keyValid = false then some .noKey else none := by
  simp [rejection, hb]

/-- R134, R150: the checks of HMAC_FINAL. -/
theorem rejection_hmacFinal {s : State} (hb : s.busy = false) (n : BitVec 7) :
    rejection 0x7 n s =
      if 63 < n.toNat then some .badLen else if s.hmacActive = false then some .sequence else none := by
  simp [rejection, hb]

/-! ### The key and the outer tail -/

/-- R130, R131: the bytes of a block made of `p` and zero bytes. -/
theorem blockBytes_padded (p : List Byte) (hp : p.length ≤ 64) {j : Nat} (hj : j < 64) :
    (blockBytes (words (p ++ List.replicate (64 - p.length) 0x00)))[j]? =
      if j < p.length then p[j]? else some 0x00 := by
  rw [blockBytes_words _ (by simp; omega)]
  split_ifs with h
  · exact List.getElem?_append_left h
  · rw [List.getElem?_append_right (by omega), List.getElem?_replicate_of_lt (by omega)]

/-- R130: the bytes of the key that HMAC_SETKEY loads. -/
theorem blockBytes_keyBlock (dl : Block) {k j : Nat} (hk : k ≤ 64) (hj : j < 64) :
    (blockBytes (keyBlock dl k))[j]? = if j < k then (blockBytes dl)[j]? else some 0x00 := by
  have hlen : ((blockBytes dl).take k).length = k := by rw [List.length_take, blockBytes_length]; omega
  have h := blockBytes_padded ((blockBytes dl).take k) (by omega) hj
  rw [hlen] at h
  rw [keyBlock, h]
  split_ifs with hjk
  · exact List.getElem?_take_of_lt hjk
  · rfl

/-- R131: the bytes of the key that HMAC_SETKEY_DIGEST loads. -/
theorem blockBytes_digestKeyBlock (dgl : Quad) {j : Nat} (hj : j < 64) :
    (blockBytes (digestKeyBlock dgl))[j]? = if j < 16 then (quadBytes dgl)[j]? else some 0x00 :=
  blockBytes_padded (quadBytes dgl) (by simp) hj

/-! ### HMAC_FINAL by its length -/

/-- R177: HMAC_FINAL has jobs. -/
theorem jobList_hmacFinal_ne (n : BitVec 7) : jobList 0x7 n ≠ [] := by
  simp only [jobList]
  split_ifs <;> exact List.cons_ne_nil _ _

/-- R179: three compressions for n ≤ 55 and four otherwise. -/
theorem latency_hmacFinal (n : BitVec 7) : latency 0x7 n = if n.toNat ≤ 55 then 198 else 264 := by
  rw [latency, if_neg (jobList_hmacFinal_ne n)]
  simp only [jobList]
  split_ifs <;> rfl

/-- R28, R177: a second padding block is to come for n ≥ 56. -/
theorem padStage_hmacFinal (n : BitVec 7) :
    (jobList 0x7 n).any (·.src == .p2) = decide (56 ≤ n.toNat) := by
  simp only [jobList]
  split_ifs with h
  · exact (decide_eq_false (by omega)).symm
  · exact (decide_eq_true (by omega)).symm

end Sys2Proof.Machine

open Sys2Proof Sys2Proof.Machine

/-- Settles O17: HMAC_SETKEY has no job; its completion writes the padded key. -/
theorem hmacSetkeyCompletes : Obligations.HmacSetkeyCompletes := by
  refine ⟨fun f s hb hs hn ha => ?_, fun f s hb => ?_, fun f s hb hn => ?_, fun f s hb hn ha => ?_⟩
  · have haccept : rejection 0x4 f.len s = none := by
      rw [rejection_hmacSetkey hb, if_neg (by omega), if_neg (by simp [ha])]
    obtain ⟨u, hissue, hrun, hcmd⟩ := issue_completes 0x4 (cmdWord 0x4 f) haccept hs
    have hkey : u.k0 = keyBlock s.data f.len.toNat := congrArg CmdState.k0 hcmd
    refine ⟨_, u, rfl, congrArg Host.Outcome.next hissue, hrun, fun j hj => ?_, ?_⟩
    · rw [hkey, blockBytes_keyBlock s.data hn hj]
    · rw [hkey]
      exact hcmd
  · exact congrArg Host.Outcome.next (issue_busy hb _ _ _)
  · refine congrArg Host.Outcome.next (issue_rejected (c := .badLen) _ ?_)
    rw [rejection_hmacSetkey hb, if_pos hn]
  · refine congrArg Host.Outcome.next (issue_rejected (c := .sequence) _ ?_)
    rw [rejection_hmacSetkey hb, if_neg (by omega), if_pos ha]

/-- Settles O18: neither has HMAC_SETKEY_DIGEST, whose completion writes the latched digest. -/
theorem hmacSetkeyDigestCompletes : Obligations.HmacSetkeyDigestCompletes := by
  refine ⟨fun f s hb hs ha => ?_, fun f s hb => ?_, fun f s hb ha => ?_⟩
  · have haccept : rejection 0x5 f.len s = none := by
      rw [rejection_hmacSetkeyDigest hb, if_neg (by simp [ha])]
    obtain ⟨u, hissue, hrun, hcmd⟩ := issue_completes 0x5 (cmdWord 0x5 f) haccept hs
    have hkey : u.k0 = digestKeyBlock s.digest := congrArg CmdState.k0 hcmd
    refine ⟨_, u, rfl, congrArg Host.Outcome.next hissue, hrun, fun j hj => ?_, ?_⟩
    · rw [hkey, blockBytes_digestKeyBlock s.digest hj]
    · rw [hkey]
      exact hcmd
  · exact congrArg Host.Outcome.next (issue_busy hb _ _ _)
  · refine congrArg Host.Outcome.next (issue_rejected (c := .sequence) _ ?_)
    rw [rejection_hmacSetkeyDigest hb, if_pos ha]

/-- Settles O19: the one job of HMAC_INIT compresses the ipad block from the IV. -/
theorem hmacInitCompletes : Obligations.HmacInitCompletes := by
  refine ⟨fun f s hb hs hk => ?_, fun f s hb => ?_, fun f s hb hk => ?_⟩
  · have haccept : rejection 0x6 f.len s = none := by
      rw [rejection_hmacInit hb, if_neg (by simp [hk])]
    obtain ⟨u, hissue, hrun, hcmd⟩ := issue_completes 0x6 (cmdWord 0x6 f) haccept hs
    exact ⟨_, u, rfl, congrArg Host.Outcome.next hissue, hrun, hcmd⟩
  · exact congrArg Host.Outcome.next (issue_busy hb _ _ _)
  · refine congrArg Host.Outcome.next (issue_rejected (c := .noKey) _ ?_)
    rw [rejection_hmacInit hb, if_pos hk]

/-- Settles O20: the length chooses the latency and the padding stage; the jobs end the inner hash and run the outer
one. -/
theorem hmacFinalCompletes : Obligations.HmacFinalCompletes := by
  refine ⟨fun f s hb hs hn ha => ?_, fun f s hb => ?_, fun f s hb hn => ?_, fun f s hb hn ha => ?_⟩
  · have haccept : rejection 0x7 f.len s = none := by
      rw [rejection_hmacFinal hb, if_neg (by omega), if_neg (by simp [ha])]
    rw [← latency_hmacFinal] at hs ⊢
    obtain ⟨u, hissue, hrun, hcmd⟩ := issue_completes 0x7 (cmdWord 0x7 f) haccept hs
    refine ⟨_, u, ?_, congrArg Host.Outcome.next hissue, hrun, hcmd⟩
    rw [State.accept, padStage_hmacFinal, if_neg (jobList_hmacFinal_ne _)]
  · exact congrArg Host.Outcome.next (issue_busy hb _ _ _)
  · refine congrArg Host.Outcome.next (issue_rejected (c := .badLen) _ ?_)
    rw [rejection_hmacFinal hb, if_pos hn]
  · refine congrArg Host.Outcome.next (issue_rejected (c := .sequence) _ ?_)
    rw [rejection_hmacFinal hb, if_neg (by omega), if_pos ha]

/-- Settles O27: the padded 16 bytes are the bytes of the stated words. -/
theorem outerTailHasTheStatedWords : Obligations.OuterTailHasTheStatedWords := by
  intro ih
  have hbytes : quadBytes ih ++ [0x80] ++ List.replicate 39 0x00 ++ le64 640 =
      blockBytes ⟨ih.a, ih.b, ih.c, ih.d, 0x00000080, 0, 0, 0, 0, 0, 0, 0, 0, 0, 0x00000280, 0⟩ := by
    simp [quadBytes, blockBytes, wordBytes, le64, List.replicate]
  have htail : outerTail ih = words (quadBytes ih ++ [0x80] ++ List.replicate 39 0x00 ++ le64 640) := rfl
  rw [htail, hbytes, words_blockBytes]

end

section
/-! SUPPORT. The host program `HMAC key, msg` (R69, R135, R136): the key loaded directly or by its digest, the inner hash
streamed behind the ipad block, and the MAC that is read at the end. -/

namespace Sys2Proof.Machine

/-! ### Key and message in the terms of the commands -/

/-- R130, R135: the key of at most 64 bytes that LOADBLK wrote. -/
theorem keyBlock_words {key : List Byte} (hk : key.length ≤ 64) :
    keyBlock (words key) key.length = words (normalisedKey key) := by
  rw [keyBlock, take_words key hk, normalisedKey, if_pos hk]

/-- R131, R135: a longer key, by its digest. -/
theorem digestKeyBlock_digestOf {key : List Byte} (hk : ¬ key.length ≤ 64) :
    digestKeyBlock (digestOf key) = words (normalisedKey key) := by
  rw [digestKeyBlock, normalisedKey, if_neg hk]

/-- R135: what the key load of `HMAC key, msg` leaves in the registers of the command rules. -/
structure Keyed (key : List Byte) (x : CmdState) : Prop where
  k0 : x.k0 = words (normalisedKey key)
  keyValid : x.keyValid = true

theorem updateAll_k0 (bs : List Block) (x : CmdState) : (updateAll bs x).k0 = x.k0 := by
  rw [updateAll_frame]

/-- R132: HMAC_INIT keeps the key. Stated for any chaining value, as `frame_of_updated` is. -/
theorem k0_of_initialised (x : CmdState) (c : Quad) (l : BitVec 64) :
    (CmdState.complete { x with chain := c, bitlen := l, hmacActive := true }).k0 = x.k0 := rfl

theorem atomicHmacInit_k0 (x : CmdState) : (atomicHmacInit x).k0 = x.k0 :=
  k0_of_initialised x (compress Config.iv (ipadBlock x.k0)) 512

/-- R136: what `HMAC key, m` leaves in the registers of the command rules. -/
structure Authenticated (key m : List Byte) (x : CmdState) : Prop where
  digest : x.digest = hmacOf key m
  keyValid : x.keyValid = false
  hmacActive : x.hmacActive = false
  k0 : x.k0 = Block.zero
  busy : x.busy = false
  done : x.done = true

/-- R132, R136: HMAC_INIT and MD5_UPDATE of the full blocks compress the ipad block and then the blocks. -/
theorem updateAll_hmacInit_chain (m : List Byte) (x : CmdState) :
    (updateAll (fullBlocks m) (atomicHmacInit x)).chain = foldBlocks (compress Config.iv (ipadBlock x.k0)) m := by
  rw [updateAll_chain]
  rfl

/-- R134: what HMAC_FINAL writes beside the two hashes. Stated for any `ih` and `mac`: with compressions in their place,
the kernel would run all their rounds to compare. -/
theorem authenticated_of_mac {key m : List Byte} (x : CmdState) (ih : Quad) {mac : Quad} (h : mac = hmacOf key m) :
    Authenticated key m (CmdState.complete { x with
      chain := mac, ihash := ih, digest := mac, bitlen := 640
      hmacActive := false, keyValid := false, k0 := Block.zero }) :=
  ⟨h, rfl, rfl, rfl, rfl, rfl⟩

/-- R132 to R136: HMAC_INIT, MD5_UPDATE of the full blocks and HMAC_FINAL of the tail compute the MAC. -/
theorem authenticated_of_commands {key : List Byte} (m : List Byte) {x : CmdState} (hx : Keyed key x) :
    Authenticated key m
      (atomicHmacFinal (words (tailOf m)) (tailLen m) (updateAll (fullBlocks m) (atomicHmacInit x))) := by
  have hlen : (updateAll (fullBlocks m) (atomicHmacInit x)).finalLen (tailLen m) =
      BitVec.ofNat 64 (8 * (64 + m.length)) := finalLen_updateAll rfl m
  have hkey : (updateAll (fullBlocks m) (atomicHmacInit x)).k0 = words (normalisedKey key) :=
    (updateAll_k0 _ _).trans ((atomicHmacInit_k0 x).trans hx.k0)
  refine authenticated_of_mac _ _ ?_
  rw [hlen, hkey, updateAll_hmacInit_chain, hx.k0, compressTail_tailOf, ← hmacOf_eq]

/-! ### The parts of the program -/

/-- R69: what the key load reads: the digest of a key of more than 64 bytes. -/
def keyReads (key : List Byte) : List Word :=
  if key.length ≤ 64 then [] else [(digestOf key).a, (digestOf key).b, (digestOf key).c, (digestOf key).d]

section
variable {ops : List HostOp} {r : List Word} {s : State} {Q : List Word → State → Prop} (hi : Idle s)
include hi

/-- R69, R135: the key load, and what comes after it. -/
theorem keyOps_ends (ha : s.hmacActive = false) (key : List Byte)
    (h : ∀ u, Idle u → Keyed key u.cmdState → Undisturbed s u → Ends ops (r ++ keyReads key) u Q) :
    Ends (keyOps key ++ ops) r s Q := by
  unfold keyOps
  unfold keyReads at h
  split_ifs at h ⊢ with hk
  · rw [List.append_nil] at h
    have hn : (BitVec.ofNat 7 key.length).toNat = key.length := by rw [BitVec.toNat_ofNat]; omega
    have haccept : rejection 0x4 (BitVec.ofNat 7 key.length) s = none := by
      rw [rejection_hmacSetkey hi.busy, hn, if_neg (by omega), if_neg (by simp [ha])]
    refine blockCommand_ends hi haccept key fun u hu hcmd hd => h u hu ⟨?_, congrArg CmdState.keyValid hcmd⟩ hd
    have hk0 : u.k0 = keyBlock (words key) (BitVec.ofNat 7 key.length).toNat := congrArg CmdState.k0 hcmd
    exact hk0.trans (hn.symm ▸ keyBlock_words hk)
  · rw [List.append_assoc]
    refine md5Ops_append_ends hi key fun t ht hdigested htd => ?_
    have hactive : t.hmacActive = false := hdigested.hmacActive
    have haccept : rejection 0x5 0 t = none := by
      rw [rejection_hmacSetkeyDigest ht.busy, if_neg (by simp [hactive])]
    refine command_ends ht haccept fun u hu hcmd hd =>
      h u hu ⟨?_, congrArg CmdState.keyValid hcmd⟩ (htd.trans hd)
    have hk0 : u.k0 = digestKeyBlock t.digest := congrArg CmdState.k0 hcmd
    exact hk0.trans ((congrArg digestKeyBlock hdigested.digest).trans (digestKeyBlock_digestOf hk))

/-- R69, R136: the message behind a loaded key, to the MAC. -/
theorem hmacMessage_ends {key : List Byte} (hx : Keyed key s.cmdState) (m : List Byte)
    (h : ∀ u, Idle u → Authenticated key m u.cmdState → Undisturbed s u →
      Ends ops (r ++ [(hmacOf key m).a, (hmacOf key m).b, (hmacOf key m).c, (hmacOf key m).d]) u Q) :
    Ends ([cmdOp 0x6 0, .wait] ++ (updateOps m ++ (loadBlk (tailOf m) ++
      ([cmdOp 0x7 (tailLen m), .wait] ++ (readDigest ++ ops))))) r s Q := by
  have hkey : s.keyValid = true := hx.keyValid
  have hinit : rejection 0x6 0 s = none := by
    rw [rejection_hmacInit hi.busy, if_neg (by simp [hkey])]
  refine command_ends hi hinit fun t ht htcmd htd => ?_
  refine updateOps_ends ht m fun v hv hvcmd hvd => ?_
  have hvcmd' : v.cmdState = updateAll (fullBlocks m) (atomicHmacInit s.cmdState) := hvcmd.trans (by rw [htcmd]; rfl)
  have hactive : v.hmacActive = true := (congrArg CmdState.hmacActive hvcmd').trans (updateAll_hmacActive _ _)
  have hfinal : rejection 0x7 (tailLen m) v = none := by
    rw [rejection_hmacFinal hv.busy, tailLen_toNat, if_neg (by omega), if_neg (by simp [hactive])]
  rw [← List.append_assoc]
  refine blockCommand_ends hv hfinal (tailOf m) fun u hu hcmd hd => ?_
  have hmac : Authenticated key m u.cmdState := by
    rw [hcmd, hvcmd']
    exact authenticated_of_commands m hx
  have hread := h u hu hmac ((htd.trans hvd).trans hd)
  rw [← hmac.digest] at hread
  exact readDigest_append_ends hu hread

end

end Sys2Proof.Machine

open Sys2Proof Sys2Proof.Machine

/-- Settles O48: the key load leaves the normalised key in K0, and the commands after it compute the MAC, under any
schedule of the host. -/
theorem hmacSequenceComputesTheMac : Obligations.HmacSequenceComputesTheMac := by
  intro key m sched s hi hb ha
  have hends : Ends (hmacOps key m ++ []) [] s fun reads t =>
      reads = keyReads key ++ [(hmacOf key m).a, (hmacOf key m).b, (hmacOf key m).c, (hmacOf key m).d] ∧
        Authenticated key m t.cmdState ∧ Undisturbed s t := by
    unfold hmacOps
    simp only [List.append_assoc]
    refine keyOps_ends (hi.idle hb) ha key fun t ht hkeyed htd => ?_
    exact hmacMessage_ends ht hkeyed m fun u hu hmac hd =>
      ends_nil hu fun _ => ⟨rfl, hmac, (htd.trans hd).err, (htd.trans hd).errcode, (htd.trans hd).host⟩
  rw [List.append_nil] at hends
  obtain ⟨h, hdrive, hover⟩ := hends s.resp sched
  refine ⟨h, hdrive, fun hprog => ?_⟩
  obtain ⟨hreads, hmac, hd⟩ := hover hprog
  exact ⟨hreads, hmac.digest, hmac.keyValid, hmac.hmacActive, hmac.k0, hmac.busy, hmac.done, hd.err, hd.errcode,
    hd.host⟩

end

section
/-! SUPPORT. Issuing a command word in any state, check by check (R150 to R153), and what one edge makes of ERR and
ERRCODE and of an engine at work (R154, R157, R175). -/

namespace Sys2Proof

/-- R60: `OP = word[3:0]` as a number. -/
theorem opOf_toNat (w : Word) : (opOf w).toNat = w.toNat % 16 := by
  simp [opOf]

/-- R60: `LEN = word[14:8]` as a number. -/
theorem fieldsOf_len_toNat (w : Word) : (fieldsOf w).len.toNat = w.toNat / 256 % 128 := by
  simp [fieldsOf, Nat.shiftRight_eq_div_pow]

namespace Machine

/-! ### Issuing a command -/

/-- R150 to R153: the first check that applies rejects the command with its code; if none does, it is accepted. -/
theorem issue_eq_checks (w : Word) (op : BitVec 4) (n : BitVec 7) (s : State) :
    s.issue w op n =
      if s.busy = true then s.rejected w 2
      else if 8 ≤ op.toNat then s.rejected w 1
      else if (op.toNat = 3 ∨ op.toNat = 7) ∧ 63 < n.toNat then s.rejected w 3
      else if op.toNat = 4 ∧ 64 < n.toNat then s.rejected w 3
      else if (op.toNat = 3 ∨ op.toNat = 4 ∨ op.toNat = 5) ∧ s.hmacActive = true then s.rejected w 5
      else if op.toNat = 7 ∧ s.hmacActive = false then s.rejected w 5
      else if op.toNat = 6 ∧ s.keyValid = false then s.rejected w 4
      else { s with ctrl := w }.accept op n := by
  unfold State.issue rejection
  simp only [← BitVec.toNat_inj, BitVec.ofNat_eq_ofNat, BitVec.reduceToNat]
  split_ifs <;> rfl

/-- R177: the commands without compressions. -/
theorem jobList_eq_nil_iff (op : BitVec 4) (n : BitVec 7) :
    jobList op n = [] ↔ ¬(op.toNat = 2 ∨ op.toNat = 3 ∨ op.toNat = 6 ∨ op.toNat = 7) := by
  by_cases h3 : op = 3
  · subst h3
    exact iff_of_false (jobList_md5Final_ne n) (by decide)
  by_cases h7 : op = 7
  · subst h7
    exact iff_of_false (jobList_hmacFinal_ne n) (by decide)
  revert op
  apply forall_index <;> simp [jobList]

/-- R28, R177: the commands with a second padding block, which are the final ones from 56 bytes on. -/
theorem padStage_jobList (op : BitVec 4) (n : BitVec 7) :
    (jobList op n).any (·.src == .p2) = decide ((op.toNat = 3 ∨ op.toNat = 7) ∧ 56 ≤ n.toNat) := by
  by_cases h3 : op = 3
  · subst h3
    simpa using padStage_md5Final n
  by_cases h7 : op = 7
  · subst h7
    simpa using padStage_hmacFinal n
  revert op
  apply forall_index <;> simp [jobList]

/-- R28, R150, R175 to R177: what an acceptance leaves, with the start of the job sequence by opcode and length. -/
theorem accept_eq (op : BitVec 4) (n : BitVec 7) (s : State) :
    s.accept op n = { s with
      busy := true, done := false, dl := s.data, dgl := s.digest, opL := op, nL := n, cph := .run, jobIdx := 0
      padStage := decide ((op.toNat = 3 ∨ op.toNat = 7) ∧ 56 ≤ n.toNat)
      eph := if op.toNat = 2 ∨ op.toNat = 3 ∨ op.toNat = 6 ∨ op.toNat = 7 then .load else .idle } := by
  simp only [State.accept, padStage_jobList, jobList_eq_nil_iff, ite_not]

/-! ### ERR and ERRCODE -/

/-- R47: an access that writes STATUS, served. -/
theorem hostEdge_statusWrite {c : BusIn} {w : Word} (h : c.access = .write 0x004 w) (s : State) :
    hostEdge c s = .next ((s.writeStatus w).respond false none) := by
  rw [hostEdge, h]
  rfl

/-- R152: an access that is a rejected command, served. -/
theorem hostEdge_rejected {c : BusIn} {s : State} {w : Word} {e : CmdError} (h : c.rejected s w e) :
    hostEdge c s = .next ((s.rejected w e.code).respond false none) := by
  obtain ⟨hw, he⟩ := h
  rw [hostEdge, hw]
  simp only [busEdge, exec_decodeCmd, andThen_next, issue_rejected w he]

/-! ### The engine at work -/

/-- R91, R175, R177: in a state of the invariant the engine never meets a LOAD without a block, as the access of the
cycle leaves the running command its current job. -/
theorem Inv.engine_answers {s v : State} (hi : Inv s) (hv : hostEdge s.busIn s.popHost = .next v) :
    ∃ u, v.engineStep s.eph s.rnd = some u := by
  cases hp : s.eph with
  | idle | round | add => exact ⟨_, rfl⟩
  | load =>
    have he : s.eph ≠ .idle := hp ▸ EnginePhase.noConfusion
    have hb : s.busy = true := hi.busy_iff_run.2 (hi.run_of_engine he)
    obtain ⟨v', hv', hint⟩ := hostEdge_busy (c := s.busIn) (s := s.popHost) hb
    cases hv.symm.trans hv'
    have hjob : v.currentJob = some (s.jobs[s.jobIdx]'(hi.engine_job he).2) := by
      rw [eq_of_internals hint.symm]
      exact List.getElem?_eq_getElem _
    exact ⟨_, congrArg (Option.map _) hjob⟩

end Machine

end Sys2Proof

open Sys2Proof Sys2Proof.Machine

/-- Settles O23: the word is issued, check by check in the order of R150, and OP and LEN are fields of its number. -/
theorem issueFollowsTheOrderOfChecks : Obligations.IssueFollowsTheOrderOfChecks := by
  intro w s
  have hop : BitVec.ofNat 4 (w.toNat % 16) = opOf w := by rw [← opOf_toNat, BitVec.ofNat_toNat, BitVec.setWidth_eq]
  have hlen : BitVec.ofNat 7 (w.toNat / 256 % 128) = (fieldsOf w).len := by
    rw [← fieldsOf_len_toNat, BitVec.ofNat_toNat, BitVec.setWidth_eq]
  simp only [exec_decodeCmd, issue_eq_checks, accept_eq, State.rejected, hop, hlen, opOf_toNat, fieldsOf_len_toNat]

/-- Settles O40: ERR and ERRCODE are as the access of the cycle leaves them, and of the accesses only a rejection and a
STATUS write with bit 2 set reach them. -/
theorem errIsSticky : Obligations.ErrIsSticky := by
  intro s t herr hr h
  obtain ⟨v, hv, hregs⟩ := step_access_writes hr h
  obtain ⟨-, -, hterr, htcode, -⟩ := AccessRegs.mk.inj hregs
  have hw : AccessWrites s.busIn s.popHost v := hostEdge_writes hv
  rw [hterr, htcode]
  refine ⟨fun hkeep => ?_, fun w ha hb => ?_, fun w c ha hc => ?_, fun hkeep hnone => ?_, fun _ _ _ _ => rfl⟩
  · by_contra hne
    rcases hw.err (fun heq => hne (heq.trans herr)) with ⟨-, hset⟩ | ⟨⟨w, ha, hb⟩, -⟩
    · exact hne hset
    · rw [hkeep w ha] at hb
      cases hb
  · cases hv.symm.trans (hostEdge_statusWrite ha _)
    exact ⟨if_pos hb, if_pos hb⟩
  · cases hv.symm.trans (hostEdge_rejected (s := s.popHost) ⟨ha, hc⟩)
    rfl
  · by_contra hne
    rcases hw.errcode hne with ⟨w, e, ⟨ha, he⟩, -⟩ | ⟨⟨w, ha, hb⟩, -⟩
    · have hn : rejection (opOf w) (fieldsOf w).len s.popHost = none := hnone w ha
      rw [hn] at he
      cases he
    · rw [hkeep w ha] at hb
      cases hb

/-- Settles O44: a reset edge and the access always answer a state, the engine does by the invariant, and the controller
follows it. -/
theorem noStepStops : Obligations.NoStepStops := by
  intro s hi
  cases hr : s.busIn.rstN with
  | false => exact ⟨_, step_reset hr⟩
  | true =>
    obtain ⟨v, hv, hs⟩ := step_served hr
    obtain ⟨u, hu⟩ := hi.engine_answers hv
    rw [hu] at hs
    exact ⟨_, hs⟩

/-- Settles O37: the invariant has the engine and the controller at rest, so the edge is the access alone, and there is
none. -/
theorem idleBlockKeepsItsState : Obligations.IdleBlockKeepsItsState :=
  fun s hi hb hr hq => (hi.idle hb).step hr (hostEdge_noAccess hq s.popHost)

end

section
/-! SUPPORT. The reset values and the latencies of section 70 (R170, R179, R180). -/

namespace Sys2Proof.Machine

/-- R170: every word of a block at its reset value is 0. -/
@[simp] theorem Block.get_zero (j : BitVec 4) : Block.zero.get j = 0 := by
  revert j; apply forall_index <;> rfl

end Sys2Proof.Machine

open Sys2Proof Sys2Proof.Machine

/-- Settles O46: left alone the block comes to rest within 264 cycles, and the busy run to it carries over to the host's
accesses, which leave BUSY alone. -/
theorem everyCommandCompletes : Obligations.EveryCommandCompletes := by
  intro s hi hs
  obtain ⟨k, hk, f, hrun, hf⟩ := hi.settles
  have hstill : s.still.served k := fun c hc => by simp [State.still] at hc
  obtain ⟨u, hu, hui⟩ := hrun.transfer (s := s) rfl (hs.mono hk) hstill
  exact ⟨k, hk, u, hu.run, (congrArg State.busy hui).trans hf.busy⟩

/-- Settles O24: the commands without jobs take one cycle, MD5_UPDATE and HMAC_INIT one compression, and the length
chooses for the two FINAL commands alone. -/
theorem latenciesFollowTheTable : Obligations.LatenciesFollowTheTable :=
  fun n => ⟨rfl, rfl, rfl, rfl, rfl, rfl, latency_md5Final n, latency_hmacFinal n⟩

/-- Settles O38: the edge is `resetEdge`, and each element of the reset state is a value of the table. -/
theorem resetOverwritesEverything : Obligations.ResetOverwritesEverything := by
  refine ⟨fun s hr => step_reset hr, ?_⟩
  exact ⟨rfl, rfl, rfl, rfl, Block.get_zero, Block.get_zero, Block.get_zero, rfl, rfl, rfl, rfl, rfl, rfl, rfl, rfl,
    rfl, rfl, rfl, rfl, rfl, rfl, rfl, rfl, rfl, rfl, Block.get_zero, rfl, rfl⟩

/-- Settles O42: a reset edge gives a state of the invariant, and at the reset state it gives that state again. -/
theorem resetMeetsTheInvariant : Obligations.ResetMeetsTheInvariant := inv_resetEdge State.reset

end
